-- ==== Sys2Proof/Word.lean ====
section
/-! DEFINITION. The word types of the acquisition block, by the names the spec gives the things they hold
(00_scope.md R6, R7; 30_encoding.md R70, R71). Every one is a bit vector the spec numbers and slices as bits. -/

namespace Sys2Proof

/-- A channel-selection code, opaque to the block (R23, R82; `CODE_W` of R6). -/
abbrev Code := BitVec 16

/-- A sample: the word a tick captures and the buffer stores (R50, R103; `SAMPLE_W` of R6). -/
abbrev Sample := BitVec 16

/-- The data word of a host access and an accumulator (`HDATA_W` and `ACC_W` of R6). -/
abbrev DataWord := BitVec 64

/-- The host's element address `A` (R53; `HADDR_W` of R6). -/
abbrev HostAddr := BitVec 22

/-- The event word `EV` (R71). -/
abbrev EventWord := BitVec 32

/-- The machine state register's value `ST` (R20). -/
abbrev StCode := BitVec 2

/-- A slot of the channel list, and the channel index that selects one (R22, R23; `CIDX_W` of R6). -/
abbrev Slot := BitVec 3

/-- A buffer index as the event word carries it, `EV[20:0]` (R73). -/
abbrev BufIndex := BitVec 21

end Sys2Proof
end

