-- ==== Sys2Proof/Config.lean ====
section
/-! DEFINITION. The block's parameters (00_scope.md R6): the ones the spec fixes, and the OPEN ones, which have no
body, so that nothing can be proved of their values. -/

namespace Sys2Proof

/-- `ST` = Idle (R20). -/
def stIdle : StCode := 0b00#2

/-- `ST` = Starting (R20). -/
def stStarting : StCode := 0b01#2

/-- `ST` = Running (R20). -/
def stRunning : StCode := 0b10#2

/-- The reserved encoding of `ST`, which no rule sets (R20, R124). -/
def stReserved : StCode := 0b11#2

namespace Config

/-- The default of `CAP`, the buffer's capacity; `CAP` itself is the field `State.cap` (R6, R31; log 6). -/
def defaultCap : BitVec 32 := 32768#32

/-- The upper bound `2^21` of `CAP` (R6, decision D5). -/
def maxCap : Nat := 2 ^ 21

/-- `PRIME`, the priming bias: a run's point counter starts at `-PRIME` (R6, R122, R240). -/
def primingBias : Int := 2

/-- Which end of a serial frame goes first; which one is OPEN (`BIT_ORDER`, R6, decision D17). -/
inductive BitOrder where
  | msbFirst
  | lsbFirst
deriving DecidableEq, Repr, Inhabited

/-- OPEN `ADC_LAG`: ticks from sending a code to capturing its result. No rule of the block depends on it; only the
environment's contract does (R6, R107; log 13). -/
opaque adcLag : Nat

/-- OPEN `CS_ACTIVE_LEVEL`: whether an asserted CS is electrically high (R6, R104; log 14). -/
opaque csActiveHigh : Bool

/-- OPEN `FRAME_BITS`: the serial frame's length; no rule depends on it (R6, R108; log 14). -/
opaque frameBits : Nat

/-- OPEN `BIT_ORDER`: the serial bit order; no rule depends on it (R6, R55; log 14). -/
opaque bitOrder : BitOrder

/-- OPEN rounding of `TICK_PERIOD`: the period in microseconds for a sample rate whose period is no whole number of
them (R6, R212; log 15). -/
opaque roundedPeriod : Rat → Nat

end Config

end Sys2Proof
end

