-- ==== Sys2Proof/Syntax.lean ====
section
/-! DEFINITION. The block's operations, one constructor per row of the opcode map (30_encoding.md R75), each with the
payload its rule takes; and the two forms an event has before it is one of them: the event word with its payload
lanes (R71) and the four kinds of event (R70). -/

namespace Sys2Proof

/-- One operation of the opcode map (R75). A `TICK` row carries the captured word `rx`, an `HWRITE` row the data `D`. -/
inductive Instr where
  /-- `TICK.IDLE` (R121) -/
  | tickIdle (rx : Sample)
  /-- `TICK.START` (R122) -/
  | tickStart (rx : Sample)
  /-- `TICK.RUN` (R123) -/
  | tickRun (rx : Sample)
  /-- `TICK.RSVD` (R124) -/
  | tickRsvd (rx : Sample)
  /-- `RD.STATE` (R161) -/
  | rdState
  /-- `WR.STATE` (R162) -/
  | wrState (d : DataWord)
  /-- `RD.LEN` (R163) -/
  | rdLen
  /-- `WR.LEN` (R164) -/
  | wrLen (d : DataWord)
  /-- `RD.COUNT` (R165) -/
  | rdCount
  /-- `RD.NPT` (R166) -/
  | rdNpt
  /-- `RD.CIDX` (R167) -/
  | rdCidx
  /-- `RD.CAP` (R168) -/
  | rdCap
  /-- `RD.CHAN[k]` (R169) -/
  | rdChan (k : Slot)
  /-- `WR.CHAN[k]` (R170) -/
  | wrChan (k : Slot) (d : DataWord)
  /-- `RD.SUM` (R171) -/
  | rdSum
  /-- `WR.SUM` (R172) -/
  | wrSum (d : DataWord)
  /-- `RD.SUMSQ` (R173) -/
  | rdSumsq
  /-- `WR.SUMSQ` (R174) -/
  | wrSumsq (d : DataWord)
  /-- `RD.BUF[i]` (R175) -/
  | rdBuf (i : BufIndex)
  /-- `RESET` (R230) -/
  | reset
deriving DecidableEq, Repr

/-- An event as it reaches the block: the event word and, beside it, the two payload lanes (R71, R79). `rx` is the
serial port's received word and `d` the host's data bus; a kind that has no use for a lane ignores it (log 2). -/
structure RawEvent where
  ev : EventWord
  rx : Sample
  d : DataWord
deriving DecidableEq, Repr

/-- The four kinds of event, as R70 writes the type. -/
inductive Event where
  | tick (rx : Sample)
  | hread (a : HostAddr)
  | hwrite (a : HostAddr) (d : DataWord)
  | reset
deriving DecidableEq, Repr

end Sys2Proof
end

