-- ==== Sys2Proof/WellFormed.lean ====
section
/-! DEFINITION. When an operation can stand for an event: the two decode conditions of the opcode map that are not in
the event word, the mode of a `TICK` row and the index bound of `RD.BUF` (30_encoding.md R74, R75). The widths of
the operands are in their types. -/

namespace Sys2Proof

/-- The value `ST` must hold at the tick's start for a `TICK` row; `none` for every other row (R74, R75). -/
def Instr.tickMode : Instr → Option StCode
  | .tickIdle _ => some stIdle
  | .tickStart _ => some stStarting
  | .tickRun _ => some stRunning
  | .tickRsvd _ => some stReserved
  | .rdState => none
  | .wrState _ => none
  | .rdLen => none
  | .wrLen _ => none
  | .rdCount => none
  | .rdNpt => none
  | .rdCidx => none
  | .rdCap => none
  | .rdChan _ => none
  | .wrChan _ _ => none
  | .rdSum => none
  | .wrSum _ => none
  | .rdSumsq => none
  | .wrSumsq _ => none
  | .rdBuf _ => none
  | .reset => none

/-- The operation's mode condition holds for the value `ST` has at the event's start (R74). -/
def Instr.modeOk (st : StCode) (i : Instr) : Bool :=
  match i.tickMode with
  | none => true
  | some m => m == st

/-- The operation's buffer index lies below `CAP` (R75, row `RD.BUF`). -/
def Instr.indexOk (cap : BitVec 32) (i : Instr) : Bool :=
  match i with
  | .rdBuf k => decide (k.toNat < cap.toNat)
  | _ => true

/-- The operation is one the decoder can give with `ST` at `st` and a buffer of `cap` entries (R75). -/
def Instr.wellFormed (st : StCode) (cap : BitVec 32) (i : Instr) : Bool :=
  i.modeOk st && i.indexOk cap

end Sys2Proof
end

