-- ==== Sys2Proof/Decode.lean ====
section
/-! DEFINITION. Decoding an event (30_encoding.md R70 to R79): fields of the event word, the kind of event, then the row
of the opcode map; total on every word, rejecting by name. After it the opcode map as the table R75 prints it, the
encoder, and the host's view of the decoder on a bare word. -/

namespace Sys2Proof

/-- Why an event word matches no row of the opcode map: the cases R78 lists, in its order. -/
inductive Reject where
  /-- `K` is 0 or 5 to 15 -/
  | reservedKind
  /-- `Z` is not zero -/
  | zFieldNotZero
  /-- a `TICK` or `RESET` word with `A != 0` -/
  | addressNotZero
  /-- an access to an address the map reserves -/
  | reservedAddress
  /-- an `HWRITE` of a read-only register or of a buffer entry -/
  | readOnlyAddress
  /-- a buffer address with `i >= CAP` -/
  | indexBeyondCap
deriving DecidableEq, Repr

/-! ### Fields of the event word (R71, R73) -/

/-- `K = EV[31:28]`. -/
def kindField (w : EventWord) : BitVec 4 := w.extractLsb' 28 4

/-- `Z = EV[27:22]`. -/
def zField (w : EventWord) : BitVec 6 := w.extractLsb' 22 6

/-- `A = EV[21:0]`. -/
def addrField (w : EventWord) : HostAddr := w.extractLsb' 0 22

/-- `A[21]`: the address names a buffer entry (R73). -/
def isBufAddr (a : HostAddr) : Bool := a.extractLsb' 21 1 == 1#1

/-- `i = A[20:0]`, a buffer address's index (R73). -/
def bufIndex (a : HostAddr) : BufIndex := a.extractLsb' 0 21

/-- The address is `0x000008 + k`, a slot of the channel list (R53). -/
def isChanAddr (a : HostAddr) : Bool := a.extractLsb' 3 19 == 1#19

/-- `k = A[2:0]`, a channel address's slot (R73). -/
def chanSlot (a : HostAddr) : Slot := a.extractLsb' 0 3

/-! ### From an event word to an operation -/

/-- The kind of event a word selects, with its payload (R70 to R72, R78). -/
def decodeKind (e : RawEvent) : Except Reject Event :=
  if zField e.ev ≠ 0#6 then .error .zFieldNotZero
  else if kindField e.ev = 1#4 then
    if addrField e.ev = 0#22 then .ok (.tick e.rx) else .error .addressNotZero
  else if kindField e.ev = 2#4 then .ok (.hread (addrField e.ev))
  else if kindField e.ev = 3#4 then .ok (.hwrite (addrField e.ev) e.d)
  else if kindField e.ev = 4#4 then
    if addrField e.ev = 0#22 then .ok .reset else .error .addressNotZero
  else .error .reservedKind

/-- The row a `TICK` selects, by the mode `ST` holds when the tick starts (R74, R120). -/
def selectTick (st : StCode) (rx : Sample) : Instr :=
  if st = stIdle then .tickIdle rx
  else if st = stStarting then .tickStart rx
  else if st = stRunning then .tickRun rx
  else .tickRsvd rx

/-- The row a host read of address `a` selects (R53, R75, R78). -/
def selectRead (cap : BitVec 32) (a : HostAddr) : Except Reject Instr :=
  if isBufAddr a then
    if (bufIndex a).toNat < cap.toNat then .ok (.rdBuf (bufIndex a)) else .error .indexBeyondCap
  else if isChanAddr a then .ok (.rdChan (chanSlot a))
  else if a = 0x000000#22 then .ok .rdState
  else if a = 0x000001#22 then .ok .rdLen
  else if a = 0x000002#22 then .ok .rdCount
  else if a = 0x000003#22 then .ok .rdNpt
  else if a = 0x000004#22 then .ok .rdCidx
  else if a = 0x000005#22 then .ok .rdCap
  else if a = 0x000010#22 then .ok .rdSum
  else if a = 0x000011#22 then .ok .rdSumsq
  else .error .reservedAddress

/-- The row a host write of address `a` selects (R53, R75, R78). -/
def selectWrite (cap : BitVec 32) (a : HostAddr) (d : DataWord) : Except Reject Instr :=
  if isBufAddr a then
    if (bufIndex a).toNat < cap.toNat then .error .readOnlyAddress else .error .indexBeyondCap
  else if isChanAddr a then .ok (.wrChan (chanSlot a) d)
  else if a = 0x000000#22 then .ok (.wrState d)
  else if a = 0x000001#22 then .ok (.wrLen d)
  else if a = 0x000010#22 then .ok (.wrSum d)
  else if a = 0x000011#22 then .ok (.wrSumsq d)
  else if a = 0x000002#22 ∨ a = 0x000003#22 ∨ a = 0x000004#22 ∨ a = 0x000005#22 then
    .error .readOnlyAddress
  else .error .reservedAddress

/-- The operation an event stands for, with `ST` at `st` when it starts and a buffer of `cap` entries (R75). -/
def decode (st : StCode) (cap : BitVec 32) (e : RawEvent) : Except Reject Instr :=
  match decodeKind e with
  | .error r => .error r
  | .ok (.tick rx) => .ok (selectTick st rx)
  | .ok (.hread a) => selectRead cap a
  | .ok (.hwrite a d) => selectWrite cap a d
  | .ok .reset => .ok .reset

/-! ### The opcode map as R75 prints it -/

/-- One row of the opcode map (R75). -/
structure OpcodeRow where
  mnemonic : String
  pattern : EventWord
  mask : EventWord
  /-- the mode column: what `ST` must hold -/
  mode : Option StCode
  /-- the row's condition `uint(EV[20:0]) < CAP` -/
  boundedIndex : Bool
deriving DecidableEq, Repr

/-- An event word selects the row: `(EV & mask) == match`, and the row's conditions hold (R75). -/
def OpcodeRow.selects (st : StCode) (cap : BitVec 32) (w : EventWord) (r : OpcodeRow) : Bool :=
  (w &&& r.mask) == r.pattern
    && (match r.mode with | none => true | some m => m == st)
    && (!r.boundedIndex || decide ((w.extractLsb' 0 21).toNat < cap.toNat))

/-- A row whose whole word is fixed and whose selection has no condition. -/
def plainRow (mnemonic : String) (pattern : EventWord) : OpcodeRow :=
  { mnemonic, pattern, mask := 0xFFFFFFFF#32, mode := none, boundedIndex := false }

/-- One of the four rows of the `TICK` word (R74). -/
def tickRow (mnemonic : String) (st : StCode) : OpcodeRow :=
  { mnemonic, pattern := 0x10000000#32, mask := 0xFFFFFFFF#32, mode := some st, boundedIndex := false }

/-- A row of eight words, one for each slot of the channel list. -/
def chanRow (mnemonic : String) (pattern : EventWord) : OpcodeRow :=
  { mnemonic, pattern, mask := 0xFFFFFFF8#32, mode := none, boundedIndex := false }

/-- The row of R75 an operation belongs to. -/
def opcodeRow : Instr → OpcodeRow
  | .tickIdle _ => tickRow "TICK.IDLE" stIdle
  | .tickStart _ => tickRow "TICK.START" stStarting
  | .tickRun _ => tickRow "TICK.RUN" stRunning
  | .tickRsvd _ => tickRow "TICK.RSVD" stReserved
  | .rdState => plainRow "RD.STATE" 0x20000000#32
  | .wrState _ => plainRow "WR.STATE" 0x30000000#32
  | .rdLen => plainRow "RD.LEN" 0x20000001#32
  | .wrLen _ => plainRow "WR.LEN" 0x30000001#32
  | .rdCount => plainRow "RD.COUNT" 0x20000002#32
  | .rdNpt => plainRow "RD.NPT" 0x20000003#32
  | .rdCidx => plainRow "RD.CIDX" 0x20000004#32
  | .rdCap => plainRow "RD.CAP" 0x20000005#32
  | .rdChan _ => chanRow "RD.CHAN" 0x20000008#32
  | .wrChan _ _ => chanRow "WR.CHAN" 0x30000008#32
  | .rdSum => plainRow "RD.SUM" 0x20000010#32
  | .wrSum _ => plainRow "WR.SUM" 0x30000010#32
  | .rdSumsq => plainRow "RD.SUMSQ" 0x20000011#32
  | .wrSumsq _ => plainRow "WR.SUMSQ" 0x30000011#32
  | .rdBuf _ =>
    { mnemonic := "RD.BUF", pattern := 0x20200000#32, mask := 0xFFE00000#32, mode := none, boundedIndex := true }
  | .reset => plainRow "RESET" 0x40000000#32

/-- The opcode map's twenty rows, in the order of R75 and of opcode_table.json. -/
def opcodeTable : List OpcodeRow :=
  [.tickIdle 0, .tickStart 0, .tickRun 0, .tickRsvd 0, .rdState, .wrState 0, .rdLen, .wrLen 0, .rdCount, .rdNpt,
   .rdCidx, .rdCap, .rdChan 0, .wrChan 0 0, .rdSum, .wrSum 0, .rdSumsq, .wrSumsq 0, .rdBuf 0, .reset].map opcodeRow

/-! ### The encoder -/

/-- The event word of an operation, from R80's sums: the row's word, plus the slot or the index. -/
def eventWord : Instr → EventWord
  | .tickIdle _ => 0x10000000#32
  | .tickStart _ => 0x10000000#32
  | .tickRun _ => 0x10000000#32
  | .tickRsvd _ => 0x10000000#32
  | .rdState => 0x20000000#32
  | .wrState _ => 0x30000000#32
  | .rdLen => 0x20000001#32
  | .wrLen _ => 0x30000001#32
  | .rdCount => 0x20000002#32
  | .rdNpt => 0x20000003#32
  | .rdCidx => 0x20000004#32
  | .rdCap => 0x20000005#32
  | .rdChan k => 0x20000008#32 + k.setWidth 32
  | .wrChan k _ => 0x30000008#32 + k.setWidth 32
  | .rdSum => 0x20000010#32
  | .wrSum _ => 0x30000010#32
  | .rdSumsq => 0x20000011#32
  | .wrSumsq _ => 0x30000011#32
  | .rdBuf i => 0x20200000#32 + i.setWidth 32
  | .reset => 0x40000000#32

/-- The captured word an operation carries; zero where its kind has none (R79). -/
def rxPayload : Instr → Sample
  | .tickIdle rx => rx
  | .tickStart rx => rx
  | .tickRun rx => rx
  | .tickRsvd rx => rx
  | _ => 0#16

/-- The write data an operation carries; zero where its kind has none (R79). -/
def dPayload : Instr → DataWord
  | .wrState d => d
  | .wrLen d => d
  | .wrChan _ d => d
  | .wrSum d => d
  | .wrSumsq d => d
  | _ => 0#64

/-- The event that stands for an operation; a payload lane its kind does not use is zero (R71, R79). -/
def encode (i : Instr) : RawEvent :=
  { ev := eventWord i, rx := rxPayload i, d := dPayload i }

/-- An event with the payload lanes its kind does not use put to zero (R79): `TICK` keeps `rx`, `HWRITE` keeps `d`. -/
def RawEvent.canonical (e : RawEvent) : RawEvent :=
  { ev := e.ev
    rx := if kindField e.ev = 1#4 then e.rx else 0#16
    d := if kindField e.ev = 3#4 then e.d else 0#64 }

/-- The host's question: the operation the decoder reads from a bare 32-bit event word, payload lanes zero, in the
mode and with the capacity the block has after reset (R71, R74; log 10, log 11). -/
def decodeTableWord (nbits w : Nat) : Option Instr :=
  if nbits ≤ 32 ∧ w < 2 ^ 32 then
    (decode stIdle Config.defaultCap { ev := BitVec.ofNat 32 w, rx := 0#16, d := 0#64 }).toOption
  else none

end Sys2Proof
end

