-- ==== Sys2Proof/Machine/State.lean ====
section
/-! DEFINITION. The state of the block as plain data (10_state.md R20 to R31, R38), the ports through which its
environment drives and observes it, and the reasons a step can stop. -/

namespace Sys2Proof.Machine

/-- The logical level of the device-select output (R27). -/
inductive CsLevel where
  | deasserted
  | asserted
deriving DecidableEq, Repr

/-- One record of the bus-port history `BUSLOG` (R109). -/
inductive BusRecord where
  /-- one tick's exchange, with the code it sent -/
  | exchange (code : Code)
  /-- the marker a reset appends -/
  | reset
deriving DecidableEq, Repr

/-- The periodic trigger as the platform holds it (R212): disarmed, or armed with a period in microseconds. -/
inductive Trigger where
  | disarmed
  | armed (periodMicros : Nat)
deriving DecidableEq, Repr

/-- What `FAULT` records: the model fault and the information R201 gives it (R30, R201). -/
inductive FaultRecord where
  /-- `RESERVED_EVENT`, raised by the decoder: the event word (R78) -/
  | reservedEvent (ev : EventWord)
  /-- `RESERVED_STATE`, raised by `TICK.RSVD`: `ST` (R124) -/
  | reservedState (st : StCode)
  /-- `WRITE_DURING_RUN`, raised by every `WR.*`: the event word and `ST` (R176) -/
  | writeDuringRun (ev : EventWord) (st : StCode)
  /-- `ILLEGAL_WRITE_VALUE`, raised by every `WR.*`: the event word and `D` (R76) -/
  | illegalWriteValue (ev : EventWord) (d : DataWord)
  /-- `LEN_EXCEEDS_CAP`, raised by `WR.STATE`: `LEN` (R162) -/
  | lenExceedsCap (len : BitVec 32)
  /-- `BUFFER_OVERRUN`, raised by `TICK.RUN`: `NPT` (R128) -/
  | bufferOverrun (npt : BitVec 32)
  /-- `UNWRITTEN_READ`, raised by `RD.BUF`: the index (R175) -/
  | unwrittenRead (i : BufIndex)
deriving DecidableEq, Repr

/-- What the environment does next (R59, R207): an event delivered to the block, or a platform action on the trigger,
which has no event word (R80, R212). -/
inductive Input where
  | event (e : RawEvent)
  | arm (periodMicros : Nat)
  | disarm
deriving DecidableEq, Repr

/-- The sample buffer's written entries as (index, value) pairs; an index that is not listed is unwritten (R50, R51).
The unit of address is the entry, not the byte (log 8). -/
abbrev Memory := List (Nat × Sample)

/-- The block's state. -/
structure State where
  /-- `ST` (R20) -/
  st : StCode
  /-- `NPT`, two's complement (R21) -/
  npt : BitVec 32
  /-- `CIDX` (R22) -/
  cidx : Slot
  /-- `CHAN[0..7]` (R23) -/
  chan : Vector Code 8
  /-- `LEN` (R24) -/
  len : BitVec 32
  /-- `SUM` (R25) -/
  sum : DataWord
  /-- `SUMSQ` (R26) -/
  sumsq : DataWord
  /-- `CS` (R27) -/
  cs : CsLevel
  /-- `LASTTX` (R28) -/
  lastTx : Option Code
  /-- `BUF` (R29) -/
  buf : Memory
  /-- `CAP`, a constant of the block (R31; log 6) -/
  cap : BitVec 32
  /-- `FAULT` (R30) -/
  faultRec : Option FaultRecord
  /-- `BUSLOG`, oldest record first (R109) -/
  busLog : List BusRecord
  /-- the platform's periodic trigger (R212; log 12) -/
  trigger : Trigger
  /-- the result-out port: the word the last event returned (R70, R77; log 5) -/
  result : Option DataWord
  /-- what the environment still has to deliver, oldest first (R59, R207; log 1) -/
  inputs : List Input
deriving DecidableEq, Repr

/-- Why a step can stop. -/
inductive Fault where
  /-- Raised by `step` alone, in a state whose `FAULT` is set: a fault is final, and no further event is taken, a reset
  included (R202). Safe: the model goes no further where the source says nothing. -/
  | halted (r : FaultRecord)
deriving DecidableEq, Repr

/-- Why an operation can have no meaning. -/
inductive Refusal where
  /-- Raised by an arm of `exec` whose operation has no meaning yet; no arm raises it. Safe: nothing runs. -/
  | notModelled (mnemonic : String)
deriving DecidableEq, Repr

/-- The state right after power-up, which is a reset with `FAULT = none` (R38, R231). The two ports of the model are
empty (log 1, log 5), and `CAP` is the spec's default (log 6). -/
def State.reset : State where
  st := stIdle
  npt := 0#32
  cidx := 0#3
  chan := Vector.replicate 8 0#16
  len := 0#32
  sum := 0#64
  sumsq := 0#64
  cs := .deasserted
  lastTx := none
  buf := []
  cap := Config.defaultCap
  faultRec := none
  busLog := []
  trigger := .disarmed
  result := none
  inputs := []

end Sys2Proof.Machine
end

