-- ==== Sys2Proof/Machine/Ops.lean ====
section
/-! DEFINITION. The named operations over registers, the sample buffer and the ports (00_scope.md R8, R9), and taking a
model fault as one shared operation (60_exceptions.md R201). -/

namespace Sys2Proof.Machine

/-! ### Registers -/

/-- `x[CHAN][k]` (R8, R23). -/
def chanAt (chan : Vector Code 8) (k : Slot) : Code :=
  chan[k.toNat]'(k.isLt)

/-- `x[CHAN][k] <- c` (R8, R170). -/
def setChan (k : Slot) (c : Code) (s : State) : State :=
  { s with chan := s.chan.set k.toNat c k.isLt }

/-! ### The sample buffer (R50 to R52) -/

/-- The buffer's canonical form: the listed indexes strictly rise. No listed entry can equal what an unlisted index
reads as, since that is "unwritten". -/
abbrev Memory.wf (m : Memory) : Prop := m.Pairwise (fun a b => a.1 < b.1)

/-- `MemRead(i, 2)`: what entry `i` holds, `none` where it is unwritten (R52). -/
def memRead : Memory → Nat → Option Sample
  | [], _ => none
  | c :: m, i => if c.1 = i then some c.2 else memRead m i

/-- `MemWrite(i, 2, v)`: entry `i` holds `v` from now on (R52). -/
def memWrite : Memory → Nat → Sample → Memory
  | [], i, v => [(i, v)]
  | c :: m, i, v =>
    if i < c.1 then (i, v) :: c :: m
    else if c.1 = i then (i, v) :: m
    else c :: memWrite m i v

/-! ### The bus port and the CS line -/

/-- `CsSet(level)` (R8, R104). -/
def csSet (l : CsLevel) (s : State) : State := { s with cs := l }

/-- `BusSend(code)`: one `Exchange(code)` record at the end of `BUSLOG` (R8, R109). -/
def busSend (c : Code) (s : State) : State := { s with busLog := s.busLog ++ [.exchange c] }

/-- `x[LASTTX] <- some(code)` (R105). -/
def setLastTx (c : Code) (s : State) : State := { s with lastTx := some c }

/-- The electrical level of the device-select pin, high or low by the OPEN `CS_ACTIVE_LEVEL` (R27, R104, R214). -/
def csPin (s : State) : Bool :=
  match s.cs with
  | .asserted => Config.csActiveHigh
  | .deasserted => !Config.csActiveHigh

/-! ### The result-out port and the trigger -/

/-- An `HREAD` returns `v` (R70, R77). -/
def withResult (v : DataWord) (s : State) : State := { s with result := some v }

/-- The platform arms or disarms its trigger (R212). -/
def setTrigger (t : Trigger) (s : State) : State := { s with trigger := t }

/-! ### Taking a model fault (R9, R201) -/

/-- Recording a model fault: the one change a faulting event makes (R9, R201). -/
def withFault (f : FaultRecord) (s : State) : State := { s with faultRec := some f }

/-- The code R201 numbers a fault by. -/
def FaultRecord.code : FaultRecord → Nat
  | .reservedEvent _ => 1
  | .reservedState _ => 2
  | .writeDuringRun _ _ => 3
  | .illegalWriteValue _ _ => 4
  | .lenExceedsCap _ => 5
  | .bufferOverrun _ => 6
  | .unwrittenRead _ => 7

/-- Ending an event (R9): where its rule came to an end, all its writes are applied together; where it raised a fault,
the state is the one before the event with the fault recorded. -/
def commit (s : State) (r : Except FaultRecord State) : Host.Outcome State Fault Refusal :=
  match r with
  | .ok t => .next t
  | .error f => .next (withFault f s)

end Sys2Proof.Machine
end

