-- ==== Sys2Proof/Machine/Operands.lean ====
section
/-! DEFINITION. Operand forms: the width conversions of R7, what a read returns (30_encoding.md R77), which write data
a write accepts (R76), the code a tick sends (40_pipeliner.md R102) and the channel index's advance (41_fsm.md R125). -/

namespace Sys2Proof.Machine

/-- `zext_64(v)` (R7, R77). -/
def zext64 {w : Nat} (v : BitVec w) : DataWord := v.setWidth 64

/-- `sext_64(v)` (R7, R77). -/
def sext64 {w : Nat} (v : BitVec w) : DataWord := v.signExtend 64

/-- `trunc_N(i)`, the low `N` bits of an integer (R7). -/
def trunc (n : Nat) (i : Int) : BitVec n := BitVec.ofInt n i

/-- `WR.STATE` accepts the one word 1, Starting (R76, R162). -/
def stateDataOk (d : DataWord) : Bool := d == 1#64

/-- `WR.LEN` uses `D[31:0]`; the bits above must be zero (R76, R164). -/
def lenDataOk (d : DataWord) : Bool := d.extractLsb' 32 32 == 0#32

/-- `WR.CHAN` uses `D[15:0]`; the bits above must be zero (R76, R170). -/
def chanDataOk (d : DataWord) : Bool := d.extractLsb' 16 48 == 0#48

/-- `WR.SUM` and `WR.SUMSQ` accept the one word 0 (R76, R172, R174). -/
def accDataOk (d : DataWord) : Bool := d == 0#64

/-- The length `WR.LEN` stores, `D[31:0]` (R164). -/
def lenOfData (d : DataWord) : BitVec 32 := d.extractLsb' 0 32

/-- The code `WR.CHAN` stores, `D[15:0]` (R170). -/
def codeOfData (d : DataWord) : Code := d.extractLsb' 0 16

/-- The code a tick sends: `CHAN[CIDX]` with both as the tick finds them (R102). -/
def codeToSend (s : State) : Code := chanAt s.chan s.cidx

/-- `NextIdx(i)`: wrap past the eighth slot, wrap where the next slot holds the terminator, else one on (R125). -/
def nextIdx (chan : Vector Code 8) (i : Slot) : Slot :=
  if i.toNat + 1 = 8 then 0#3
  else if chanAt chan (i + 1#3) = 0x0000#16 then 0#3
  else i + 1#3

end Sys2Proof.Machine
end

