-- ==== Sys2Proof/Machine/Flags.lean ====
section
/-! DEFINITION. The block has no condition codes (10_state.md R33): `ST` being Idle is its completion signal. What it
computes from its counters instead is here: the view `COUNT`, the end-of-run test and the accumulators' arithmetic. -/

namespace Sys2Proof.Machine

/-- The completion signal: `ST` is Idle (R33). -/
def isIdle (s : State) : Bool := s.st == stIdle

/-- `COUNT = max(sint(NPT), 0)` (R34). -/
def countOf (npt : BitVec 32) : Int := max npt.toInt 0

/-- `EndOfRun(m, len)`: `m >= uint(len)` on mathematical integers (R126). -/
def endOfRun (m : Int) (len : BitVec 32) : Bool := decide ((len.toNat : Int) ≤ m)

/-- `SUM <- (SUM + uint(s)) mod 2^64` (R127). -/
def addSample (sum : DataWord) (v : Sample) : DataWord := trunc 64 (sum.toNat + v.toNat)

/-- `SUMSQ <- (SUMSQ + uint(s)^2) mod 2^64`, the product exact (R127). -/
def addSquare (sumsq : DataWord) (v : Sample) : DataWord := trunc 64 (sumsq.toNat + v.toNat * v.toNat)

/-- The host's write of `LEN` is startable: `uint(LEN) <= CAP` (R162). -/
def lenFits (s : State) : Bool := decide (s.len.toNat ≤ s.cap.toNat)

end Sys2Proof.Machine
end

