-- ==== Sys2Proof/Machine/HostRead.lean ====
section
/-! DEFINITION. The host's reads (42_host.md R161 to R175), each allowed in every state and without side effect (R57,
R160): the word it returns on the result-out port is its whole effect. -/

namespace Sys2Proof.Machine

/-- A host read that returns `v` (R57, R77). -/
def hostRead (v : DataWord) (s : State) : Host.Outcome State Fault Refusal :=
  commit s (.ok (withResult v s))

/-- `RD.STATE` (R161). -/
def execRdState (s : State) : Host.Outcome State Fault Refusal := hostRead (zext64 s.st) s

/-- `RD.LEN` (R163). -/
def execRdLen (s : State) : Host.Outcome State Fault Refusal := hostRead (zext64 s.len) s

/-- `RD.COUNT` (R165). -/
def execRdCount (s : State) : Host.Outcome State Fault Refusal := hostRead (trunc 64 (countOf s.npt)) s

/-- `RD.NPT` (R166). -/
def execRdNpt (s : State) : Host.Outcome State Fault Refusal := hostRead (sext64 s.npt) s

/-- `RD.CIDX` (R167). -/
def execRdCidx (s : State) : Host.Outcome State Fault Refusal := hostRead (zext64 s.cidx) s

/-- `RD.CAP` (R168). -/
def execRdCap (s : State) : Host.Outcome State Fault Refusal := hostRead (zext64 s.cap) s

/-- `RD.CHAN[k]` (R169). -/
def execRdChan (k : Slot) (s : State) : Host.Outcome State Fault Refusal := hostRead (zext64 (chanAt s.chan k)) s

/-- `RD.SUM` (R171). -/
def execRdSum (s : State) : Host.Outcome State Fault Refusal := hostRead s.sum s

/-- `RD.SUMSQ` (R173). -/
def execRdSumsq (s : State) : Host.Outcome State Fault Refusal := hostRead s.sumsq s

/-- `RD.BUF[i]` (R175). The decoder gives it only with `i < CAP`; the check stands here too, so that the operation
means what R175 says on every index (log 18). -/
def execRdBuf (i : BufIndex) (s : State) : Host.Outcome State Fault Refusal :=
  if i.toNat < s.cap.toNat then
    match memRead s.buf i.toNat with
    | some v => hostRead (zext64 v) s
    | none => commit s (.error (.unwrittenRead i))
  else commit s (.error (.reservedEvent (eventWord (.rdBuf i))))

end Sys2Proof.Machine
end

