-- ==== Sys2Proof/Machine/HostWrite.lean ====
section
/-! DEFINITION. The host's writes (42_host.md R162 to R174, R176). -/

namespace Sys2Proof.Machine

/-- A host write of data `d` by the event word `ev`, in the order of checks R176 gives: `HostWriteGuard`, the data
check, then the write's own effect. -/
def hostWrite (ev : EventWord) (d : DataWord) (dataOk : Bool) (effect : Except FaultRecord State) (s : State) :
    Host.Outcome State Fault Refusal :=
  commit s <|
    if s.st ≠ stIdle then .error (.writeDuringRun ev s.st)
    else if dataOk then effect
    else .error (.illegalWriteValue ev d)

/-- `WR.STATE`, the start (R162). -/
def execWrState (d : DataWord) (s : State) : Host.Outcome State Fault Refusal :=
  hostWrite (eventWord (.wrState d)) d (stateDataOk d)
    (if lenFits s then .ok { s with st := stStarting } else .error (.lenExceedsCap s.len)) s

/-- `WR.LEN` (R164). -/
def execWrLen (d : DataWord) (s : State) : Host.Outcome State Fault Refusal :=
  hostWrite (eventWord (.wrLen d)) d (lenDataOk d) (.ok { s with len := lenOfData d }) s

/-- `WR.CHAN[k]` (R170). -/
def execWrChan (k : Slot) (d : DataWord) (s : State) : Host.Outcome State Fault Refusal :=
  hostWrite (eventWord (.wrChan k d)) d (chanDataOk d) (.ok (setChan k (codeOfData d) s)) s

/-- `WR.SUM` (R172). -/
def execWrSum (d : DataWord) (s : State) : Host.Outcome State Fault Refusal :=
  hostWrite (eventWord (.wrSum d)) d (accDataOk d) (.ok { s with sum := 0#64 }) s

/-- `WR.SUMSQ` (R174). -/
def execWrSumsq (d : DataWord) (s : State) : Host.Outcome State Fault Refusal :=
  hostWrite (eventWord (.wrSumsq d)) d (accDataOk d) (.ok { s with sumsq := 0#64 }) s

end Sys2Proof.Machine
end

