-- ==== Sys2Proof/Machine/Reset.lean ====
section
/-! DEFINITION. The reset event (70_reset_and_hazards.md R230 to R232). -/

namespace Sys2Proof.Machine

/-- What `RESET` installs (R230): the values of R38, a `Reset` marker at the end of `BUSLOG`, the trigger disarmed. It
keeps `CAP` (R31), `FAULT` (R30, R38) and the two ports of the model (log 24). -/
def resetState (s : State) : State :=
  { s with
    st := stIdle
    npt := 0#32
    cidx := 0#3
    chan := Vector.replicate 8 0x0000#16
    len := 0#32
    sum := 0#64
    sumsq := 0#64
    cs := .deasserted
    lastTx := none
    buf := []
    busLog := s.busLog ++ [.reset]
    trigger := .disarmed }

/-- `RESET` (R230). -/
def execReset (s : State) : Host.Outcome State Fault Refusal :=
  commit s (.ok (resetState s))

end Sys2Proof.Machine
end

