-- ==== Sys2Proof/Machine/Pipeliner.lean ====
section
/-! DEFINITION. Tick phase 1, the bus transaction pipeliner (40_pipeliner.md R100 to R110). -/

namespace Sys2Proof.Machine

/-- `Pipeline(rx)`: the captured word, and the state after the exchange (R101). The captured word is the payload itself
(R103); the code sent is the one the tick finds at `CHAN[CIDX]` (R102). -/
def pipeline (rx : Sample) (s : State) : Sample × State :=
  let s₁ := csSet .deasserted s
  let captured := rx
  let s₂ := csSet .asserted s₁
  let code := codeToSend s₂
  let s₃ := busSend code s₂
  (captured, setLastTx code s₃)

end Sys2Proof.Machine
end

