-- ==== Sys2Proof/Machine/Tick.lean ====
section
/-! DEFINITION. The four `TICK` operations, the acquisition state machine (41_fsm.md R120 to R128). Which of the four a
tick runs is the decoder's choice, by `ST` (R74; log 10). -/

namespace Sys2Proof.Machine

/-- The store and accumulation of a Running tick whose counter `n` is not negative (R123, R127, R128). -/
def storeSample (n : Nat) (v : Sample) (s : State) : State :=
  { s with buf := memWrite s.buf n v, sum := addSample s.sum v, sumsq := addSquare s.sumsq v }

/-- The counter and the index of a Running tick: `NPT <- trunc_32(n + 1)`, `CIDX <- NextIdx(CIDX)` (R123). -/
def advance (n : Int) (s : State) : State :=
  { s with npt := trunc 32 (n + 1), cidx := nextIdx s.chan s.cidx }

/-- The end test of a Running tick: `ST <- Idle` when the incremented counter reaches `LEN` (R123, R126). -/
def finishIfDone (n : Int) (s : State) : State :=
  if endOfRun (n + 1) s.len then { s with st := stIdle } else s

/-- `TICK.IDLE` (R121): phase 1 alone. -/
def execTickIdle (rx : Sample) (s : State) : Host.Outcome State Fault Refusal :=
  commit s (.ok (pipeline rx s).2)

/-- `TICK.START` (R122): phase 1, then `CIDX <- 0`, `NPT <- -PRIME`, `ST <- Running`. -/
def execTickStart (rx : Sample) (s : State) : Host.Outcome State Fault Refusal :=
  let s₁ := (pipeline rx s).2
  commit s (.ok { s₁ with cidx := 0#3, npt := trunc 32 (-Config.primingBias), st := stRunning })

/-- `TICK.RUN` (R123): the overrun check before any effect, phase 1, store and accumulate when the counter is not
negative, count, advance, end test. -/
def execTickRun (rx : Sample) (s : State) : Host.Outcome State Fault Refusal :=
  let n := s.npt.toInt
  commit s <|
    if 0 ≤ n ∧ (s.cap.toNat : Int) ≤ n then .error (.bufferOverrun s.npt)
    else
      let p := pipeline rx s
      let s₂ := if 0 ≤ n then storeSample n.toNat p.1 p.2 else p.2
      .ok (finishIfDone n (advance n s₂))

/-- `TICK.RSVD` (R124): no phase 1, no change but the recorded fault. -/
def execTickRsvd (_rx : Sample) (s : State) : Host.Outcome State Fault Refusal :=
  commit s (.error (.reservedState s.st))

end Sys2Proof.Machine
end

