-- ==== Sys2Proof/Machine/Dispatch.lean ====
section
/-! DEFINITION. The meaning of every operation of the opcode map (30_encoding.md R75), one arm a constructor. -/

namespace Sys2Proof.Machine

def exec (i : Instr) (s : State) : Host.Outcome State Fault Refusal :=
  match i with
  | .tickIdle rx => Sys2Proof.Machine.execTickIdle rx s
  | .tickStart rx => Sys2Proof.Machine.execTickStart rx s
  | .tickRun rx => Sys2Proof.Machine.execTickRun rx s
  | .tickRsvd rx => Sys2Proof.Machine.execTickRsvd rx s
  | .rdState => Sys2Proof.Machine.execRdState s
  | .wrState d => Sys2Proof.Machine.execWrState d s
  | .rdLen => Sys2Proof.Machine.execRdLen s
  | .wrLen d => Sys2Proof.Machine.execWrLen d s
  | .rdCount => Sys2Proof.Machine.execRdCount s
  | .rdNpt => Sys2Proof.Machine.execRdNpt s
  | .rdCidx => Sys2Proof.Machine.execRdCidx s
  | .rdCap => Sys2Proof.Machine.execRdCap s
  | .rdChan k => Sys2Proof.Machine.execRdChan k s
  | .wrChan k d => Sys2Proof.Machine.execWrChan k d s
  | .rdSum => Sys2Proof.Machine.execRdSum s
  | .wrSum d => Sys2Proof.Machine.execWrSum d s
  | .rdSumsq => Sys2Proof.Machine.execRdSumsq s
  | .wrSumsq d => Sys2Proof.Machine.execWrSumsq d s
  | .rdBuf idx => Sys2Proof.Machine.execRdBuf idx s
  | .reset => Sys2Proof.Machine.execReset s

end Sys2Proof.Machine
end

