-- ==== Sys2Proof/Machine/Fetch.lean ====
section
/-! DEFINITION. Taking the next input (20_memory.md R59, 60_exceptions.md R202, R207): the block fetches nothing, its
environment delivers events one at a time. -/

namespace Sys2Proof.Machine

/-- What a step finds to do. -/
inductive Fetched where
  /-- `FAULT` is set: nothing is taken (R202) -/
  | halted (r : FaultRecord)
  /-- the environment delivers nothing now: the block holds its state (R217) -/
  | quiet
  /-- a platform action on the trigger, and the state after it (R212) -/
  | platform (t : State)
  /-- an event, and the state its rule starts from -/
  | event (e : RawEvent) (t : State)
deriving DecidableEq, Repr

/-- The state an event's rule starts from: the event is off the input list, and the result-out port holds nothing of an
earlier event (R70; log 5). -/
def takeEvent (rest : List Input) (s : State) : State := { s with inputs := rest, result := none }

/-- A platform action is off the input list. -/
def dropInput (rest : List Input) (s : State) : State := { s with inputs := rest }

/-- The oldest pending input, and the state it is taken in (R59, R202). -/
def fetch (s : State) : Fetched :=
  match s.faultRec with
  | some r => .halted r
  | none =>
    match s.inputs with
    | [] => .quiet
    | .arm p :: rest => .platform (setTrigger (.armed p) (dropInput rest s))
    | .disarm :: rest => .platform (setTrigger .disarmed (dropInput rest s))
    | .event e :: rest => .event e (takeEvent rest s)

/-- Delivering an input: it goes in front of what the environment still has to deliver. -/
def place (i : Input) (s : State) : State := { s with inputs := i :: s.inputs }

/-- Delivering an event. -/
def deliver (e : RawEvent) (s : State) : State := place (.event e) s

/-- A bare event word with its payload lanes zero (log 11). -/
def bareEvent (w : Nat) : RawEvent := { ev := BitVec.ofNat 32 w, rx := 0#16, d := 0#64 }

/-- An event whose word matches no row of the opcode map: `RESERVED_EVENT`, nothing else changes (R78). -/
def takeReserved (e : RawEvent) (s : State) : Host.Outcome State Fault Refusal :=
  commit s (.error (.reservedEvent e.ev))

end Sys2Proof.Machine
end

