-- ==== Sys2Proof/Machine/Step.lean ====
section
/-! DEFINITION. One step: the oldest pending input is taken, decoded by the mode `ST` holds, and run (20_memory.md R59,
30_encoding.md R74, R78; 60_exceptions.md R202). -/

namespace Sys2Proof.Machine

/-- One step of the block in its environment. With nothing to deliver the state stays as it is (R217; log 3). -/
def step (s : State) : Host.Outcome State Fault Refusal :=
  match fetch s with
  | .halted r => .fault (.halted r)
  | .quiet => .next s
  | .platform t => .next t
  | .event e t =>
    match decode t.st t.cap e with
    | .ok i => exec i t
    | .error _ => takeReserved e t

/-- The state with the event word `w` delivered next, its payload lanes zero (log 11). -/
def State.withFetchWord (s : State) (_nbits w : Nat) : State := deliver (bareEvent w) s

end Sys2Proof.Machine
end

