-- ==== Sys2Proof/Machine/TextForm.lean ====
section
/-! DEFINITION. The text form of the events (30_encoding.md R80), a line of a program as data, the input it stands for and
its text; and the pseudo-operations that are lines alone (R81; 42_host.md R177, R179). The two that read and decide,
`wait_idle` and `runAcquisition`, are in Machine/Caller.lean. -/

namespace Sys2Proof.Machine

/-- The names a `rd` or `wr` line may give (R80, R53). -/
inductive Reg where
  | state
  | len
  | count
  | npt
  | cidx
  | cap
  | chan (k : Slot)
  | sum
  | sumsq
  | buf (i : BufIndex)
deriving DecidableEq, Repr

/-- `addr(REG)`, the address map (R53). -/
def regAddr : Reg → HostAddr
  | .state => 0x000000#22
  | .len => 0x000001#22
  | .count => 0x000002#22
  | .npt => 0x000003#22
  | .cidx => 0x000004#22
  | .cap => 0x000005#22
  | .chan k => 0x000008#22 + k.setWidth 22
  | .sum => 0x000010#22
  | .sumsq => 0x000011#22
  | .buf i => 0x200000#22 + i.setWidth 22

/-- One line of a program (R80). -/
inductive Line where
  | tick (rx : Sample)
  | rd (r : Reg)
  | wr (r : Reg) (v : DataWord)
  | reset
  | arm (periodMicros : Nat)
  | disarm
deriving DecidableEq, Repr

/-- The input a line stands for: an event with its word and payload, or a platform action (R80). -/
def lineInput : Line → Input
  | .tick rx => .event { ev := 0x10000000#32, rx := rx, d := 0#64 }
  | .rd r => .event { ev := 0x20000000#32 + (regAddr r).setWidth 32, rx := 0#16, d := 0#64 }
  | .wr r v => .event { ev := 0x30000000#32 + (regAddr r).setWidth 32, rx := 0#16, d := v }
  | .reset => .event { ev := 0x40000000#32, rx := 0#16, d := 0#64 }
  | .arm p => .arm p
  | .disarm => .disarm

/-- A program's inputs, in order. -/
def programInputs (p : List Line) : List Input := p.map lineInput

/-! ### Pseudo-operations that are lines alone (R81, R177, R179) -/

/-- Slots `k` and up get the codes in turn, as many as fit in the eight slots, and the first slot left gets the
terminator (R177). `k` counts from 0. -/
def configureFrom : Nat → List Code → List Line
  | k, [] => if k < 8 then [.wr (.chan (BitVec.ofNat 3 k)) 0#64] else []
  | k, c :: cs =>
    if k < 8 then .wr (.chan (BitVec.ofNat 3 k)) (c.setWidth 64) :: configureFrom (k + 1) cs else []

/-- `configure [c0, ..., c(n-1)]`, `0 <= n <= 8` (R177). That a longer list gives the writes of its first eight codes is the
model's DESIGN CHOICE (log 29). -/
def configure (codes : List Code) : List Line := configureFrom 0 codes

/-- `start` (R81). -/
def start : List Line := [.wr .state 1#64]

/-- `clear_acc` (R81). -/
def clearAcc : List Line := [.wr .sum 0#64, .wr .sumsq 0#64]

/-- The period in microseconds the host arms the trigger with for a sample rate: `1e6 / fs`, its rounding OPEN where
that is no whole number (R178, R212; log 15). The spec gives `fs` no type: that it is a rational number of samples a second
is the model's DESIGN CHOICE (R35; log 27). -/
def armPeriod (fs : Rat) : Nat :=
  if 0 < fs ∧ (1000000 / fs).den = 1 then (1000000 / fs).num.toNat else Config.roundedPeriod fs

/-- `readout len` (R179). R179 does not say what it expands to for a length above `2^21`, the number of indexes an address
can name (R53): that the index is then taken modulo `2^21` is the model's DESIGN CHOICE (log 29). -/
def readout (len : Nat) : List Line :=
  [.rd .count, .rd .sum, .rd .sumsq] ++ (List.range len).map fun i => .rd (.buf (BitVec.ofNat 21 i))

/-! ### The text of a line (R80) -/

/-- The value of a decimal digit. -/
def decDigit (c : Char) : Option Nat :=
  if '0'.toNat ≤ c.toNat ∧ c.toNat ≤ '9'.toNat then some (c.toNat - '0'.toNat) else none

/-- The value of a hexadecimal digit, either case. -/
def hexDigit (c : Char) : Option Nat :=
  if 'a'.toNat ≤ c.toNat ∧ c.toNat ≤ 'f'.toNat then some (c.toNat - 'a'.toNat + 10)
  else if 'A'.toNat ≤ c.toNat ∧ c.toNat ≤ 'F'.toNat then some (c.toNat - 'A'.toNat + 10)
  else decDigit c

/-- Digits read from the most significant, on top of `acc`. -/
def readDigits (base : Nat) (digit : Char → Option Nat) : Nat → List Char → Option Nat
  | acc, [] => some acc
  | acc, c :: cs =>
    match digit c with
    | some v => readDigits base digit (acc * base + v) cs
    | none => none

/-- A number, decimal or `0x` hex (R80). -/
def readNumber : List Char → Option Nat
  | [] => none
  | '0' :: 'x' :: c :: cs => readDigits 16 hexDigit 0 (c :: cs)
  | cs => readDigits 10 decDigit 0 cs

/-- A number that fits `w` bits. -/
def readBits (w : Nat) (cs : List Char) : Option (BitVec w) :=
  match readNumber cs with
  | some n => if n < 2 ^ w then some (BitVec.ofNat w n) else none
  | none => none

/-- A number in square brackets that closes the word. -/
def readBracketed (w : Nat) : List Char → Option (BitVec w)
  | '[' :: cs => if cs.getLast? = some ']' then readBits w cs.dropLast else none
  | _ => none

/-- `REG`, `CHAN[<k>]` or `BUF[<i>]` (R80). -/
def readReg (w : List Char) : Option Reg :=
  match w with
  | ['S', 'T', 'A', 'T', 'E'] => some .state
  | ['L', 'E', 'N'] => some .len
  | ['C', 'O', 'U', 'N', 'T'] => some .count
  | ['N', 'P', 'T'] => some .npt
  | ['C', 'I', 'D', 'X'] => some .cidx
  | ['C', 'A', 'P'] => some .cap
  | ['S', 'U', 'M'] => some .sum
  | ['S', 'U', 'M', 'S', 'Q'] => some .sumsq
  | 'C' :: 'H' :: 'A' :: 'N' :: rest => (readBracketed 3 rest).map Reg.chan
  | 'B' :: 'U' :: 'F' :: rest => (readBracketed 21 rest).map Reg.buf
  | _ => none

/-- The words of a line: separated by blanks and commas, up to a `;` (R80; log 22). `cur` is the word being read,
reversed. -/
def lineWords (cur : List Char) : List Char → List (List Char)
  | [] => if cur = [] then [] else [cur.reverse]
  | c :: cs =>
    if c = ';' then if cur = [] then [] else [cur.reverse]
    else if c = ' ' ∨ c = '\t' ∨ c = ',' then
      if cur = [] then lineWords [] cs else cur.reverse :: lineWords [] cs
    else lineWords (c :: cur) cs

/-- A line's text read: `none` where it is no line of R80, `some none` where it holds no event (blank, or a comment). -/
def readLine (text : List Char) : Option (Option Line) :=
  match lineWords [] text with
  | [] => some none
  | [['t', 'i', 'c', 'k'], 'r' :: 'x' :: '=' :: v] => (readBits 16 v).map fun rx => some (.tick rx)
  | [['r', 'd'], r] => (readReg r).map fun r => some (.rd r)
  | [['w', 'r'], r, v] =>
    match readReg r, readBits 64 v with
    | some r, some v => some (some (.wr r v))
    | _, _ => none
  | [['r', 'e', 's', 'e', 't']] => some (some .reset)
  | [['a', 'r', 'm'], p] => (readNumber p).map fun p => some (.arm p)
  | [['d', 'i', 's', 'a', 'r', 'm']] => some (some .disarm)
  | _ => none

end Sys2Proof.Machine
end

