-- ==== Sys2Proof/Machine/Caller.lean ====
section
/-! DEFINITION. The caller, the host's side of the protocol (42_host.md R160, R178): a program that makes accesses, reads
their results and decides by them, and the platform that interleaves it with the ticks of the trigger
(60_exceptions.md R205, R212). The caller and the block are two agents; the block's own state is `State`. -/

namespace Sys2Proof.Machine

/-! ### What a caller's program does -/

/-- The two times that the caller's timing check holds against the tick period, in microseconds: a tick's handler, and the
exchange after the send (R239; log 25). -/
structure Timing where
  handler : Rat
  transfer : Rat
deriving DecidableEq, Repr

/-- The caller's timing check, `T_handler + T_xfer < T_tick`, with the tick period in microseconds (R180 f, R239). -/
def timingMargin (t : Timing) (period : Nat) : Bool := decide (t.handler + t.transfer < period)

/-- One thing a caller's program does. The caller context of R211 makes the accesses of R161 to R175 and sets the trigger
(R212); that the type of a program does not keep a `tick` or a `reset` line out of it is the model's DESIGN CHOICE (log 30). -/
inductive Command where
  /-- one event or platform action (R80) -/
  | line (l : Line)
  /-- `rd CAP`; if `len` is beyond the word read: reject, arm nothing, stop (R178) -/
  | checkCap (len : BitVec 32)
  /-- the timing-margin check against a tick period, no event (R178, R239) -/
  | checkMargin (t : Timing) (period : Nat)
  /-- `rd STATE`; if the result is not 0: again (R81, R178) -/
  | waitIdle
deriving DecidableEq, Repr

/-- `wait_idle` (R81). -/
def waitIdle : List Command := [.waitIdle]

/-- `runAcquisition len, fs` (R178): the checks, the writes, the seed, the arming, the wait, the disarming. The period
checked is the one the trigger is armed with (DESIGN CHOICE where `1e6 / fs` is no whole number, log 28), and `fs` is a
rational number (DESIGN CHOICE, log 27). -/
def runAcquisition (len : BitVec 32) (fs : Rat) (timing : Timing) : List Command :=
  [.checkCap len, .checkMargin timing (armPeriod fs), .line (.wr .len (len.setWidth 64))] ++ (clearAcc ++ start).map Command.line ++
    [.line (.arm (armPeriod fs))] ++ waitIdle ++ [.line .disarm]

/-! ### The caller -/

/-- A caller in the middle of its program. -/
structure Caller where
  /-- what it still has to do; empty once it has returned or rejected -/
  todo : List Command
  /-- it has ended with a configuration error (R178) -/
  rejected : Bool
  /-- the words its reads have returned, oldest first -/
  seen : List DataWord
deriving DecidableEq, Repr

/-- The access the caller makes next, if what it does next is one. -/
def callerLine (c : Caller) : Option Line :=
  match c.todo with
  | [] => none
  | .line l :: _ => some l
  | .checkCap _ :: _ => some (.rd .cap)
  | .checkMargin _ _ :: _ => none
  | .waitIdle :: _ => some (.rd .state)

/-- The length is within the capacity that was read (R178). -/
def capacityHolds (len : BitVec 32) : Option DataWord → Bool
  | some cap => decide (len.toNat ≤ cap.toNat)
  | none => false

/-- The caller stops with a configuration error: nothing more is done, so nothing is armed (R178; log 25). -/
def reject (c : Caller) : Caller := { c with todo := [], rejected := true }

/-- The caller once its access, if it made one, has answered. -/
def callerAfter (answer : Option DataWord) (c : Caller) : Caller :=
  let c₁ := { c with seen := c.seen ++ answer.toList }
  match c.todo with
  | [] => c₁
  | .line _ :: rest => { c₁ with todo := rest }
  | .checkCap len :: rest => if capacityHolds len answer then { c₁ with todo := rest } else reject c₁
  | .checkMargin t p :: rest => if timingMargin t p then { c₁ with todo := rest } else reject c₁
  | .waitIdle :: rest => if answer = some 0#64 then { c₁ with todo := rest } else c₁

/-! ### The platform -/

/-- The caller and the block it drives. -/
structure Platform where
  caller : Caller
  block : State
deriving DecidableEq, Repr

/-- What happens next on the platform: the trigger fires, the caller goes on, or the external hard reset comes (R160, R205,
R207, R232). -/
inductive Turn where
  | tick (rx : Sample)
  | caller
  | reset
deriving DecidableEq, Repr

/-- The input a turn gives the block, if any. -/
def turnLine (u : Turn) (c : Caller) : Option Line :=
  match u with
  | .tick rx => some (.tick rx)
  | .caller => callerLine c
  | .reset => some .reset

/-- The word a line's event has returned; only a read returns one (R70, R77). -/
def answerTo (l : Line) (t : State) : Option DataWord :=
  match l with
  | .rd _ => t.result
  | .tick _ => none
  | .wr _ _ => none
  | .reset => none
  | .arm _ => none
  | .disarm => none

/-- The caller after a turn: only its own turns move it. -/
def turnCaller (u : Turn) (answer : Option DataWord) (c : Caller) : Caller :=
  match u with
  | .caller => callerAfter answer c
  | .tick _ => c
  | .reset => c

/-- One turn: the block takes the input the turn gives it, before whatever else is still to come, and the caller hears the
answer to its own access (R59, R160). -/
def turnStep (u : Turn) (y : Platform) : Host.Outcome Platform Fault Refusal :=
  match turnLine u y.caller with
  | none => .next { y with caller := turnCaller u none y.caller }
  | some l =>
    match step (place (lineInput l) y.block) with
    | .next t => .next { caller := turnCaller u (answerTo l t) y.caller, block := t }
    | .fault f => .fault f
    | .refused r => .refused r

/-- Turns in order, up to the first that does not answer a next state. -/
def runTurns : List Turn → Platform → Host.Outcome Platform Fault Refusal
  | [], y => .next y
  | u :: us, y =>
    match turnStep u y with
    | .next z => runTurns us z
    | .fault f => .fault f
    | .refused r => .refused r

/-- A caller at the start of a program. -/
def callerOf (p : List Command) : Caller := { todo := p, rejected := false, seen := [] }

end Sys2Proof.Machine
end

