-- ==== Sys2Proof/Safety.lean ====
section
/-! DEFINITION. What counts as a safe state and a correct run, in the terms the statements use: the block's invariant
(41_fsm.md R129), runs of steps, the accumulators' meaning (R133), the caller's duties and the end of a run
(42_host.md R180, R181), and the environment's contracts (40_pipeliner.md R107, 60_exceptions.md R212). -/

namespace Sys2Proof.Machine

/-- No model fault is recorded (R30, R181). -/
def Safe (s : State) : Prop := s.faultRec = none

/-! ### Reserved words and the first fault, on numbers (R53, R78, R203) -/

/-- `K` of an event word, as a number (R71). -/
def kindNat (w : EventWord) : Nat := w.toNat / 2 ^ 28

/-- `A` of an event word, as a number (R71). -/
def addrNat (w : EventWord) : Nat := w.toNat % 2 ^ 22

/-- The words R78 lists as reserved. -/
abbrev ReservedWord (cap : BitVec 32) (w : EventWord) : Prop :=
  (kindNat w = 0 ∨ 5 ≤ kindNat w) ∨ w.toNat / 2 ^ 22 % 2 ^ 6 ≠ 0
    ∨ ((kindNat w = 1 ∨ kindNat w = 4) ∧ addrNat w ≠ 0)
    ∨ (kindNat w = 2 ∧ (addrNat w = 0x6 ∨ addrNat w = 0x7 ∨ (0x12 ≤ addrNat w ∧ addrNat w < 0x200000)
        ∨ 0x200000 + cap.toNat ≤ addrNat w))
    ∨ (kindNat w = 3 ∧ ((0x2 ≤ addrNat w ∧ addrNat w ≤ 0x7) ∨ 0x12 ≤ addrNat w))

/-- The data a write of address `a` does not accept (R76). -/
abbrev IllegalData (a : Nat) (d : DataWord) : Prop :=
  (a = 0x0 ∧ d.toNat ≠ 1) ∨ (a = 0x1 ∧ 2 ^ 32 ≤ d.toNat) ∨ (0x8 ≤ a ∧ a ≤ 0xF ∧ 2 ^ 16 ≤ d.toNat)
    ∨ ((a = 0x10 ∨ a = 0x11) ∧ d.toNat ≠ 0)

/-- The one fault an event records, the first that applies in the order R203 gives; `none` where none applies. -/
def firstFault (s : State) (e : RawEvent) : Option FaultRecord :=
  if ReservedWord s.cap e.ev then some (.reservedEvent e.ev)
  else if kindNat e.ev = 1 then
    if s.st = stReserved then some (.reservedState s.st)
    else if s.st = stRunning ∧ 0 ≤ s.npt.toInt ∧ (s.cap.toNat : Int) ≤ s.npt.toInt then some (.bufferOverrun s.npt)
    else none
  else if kindNat e.ev = 2 then
    if 0x200000 ≤ addrNat e.ev ∧ memRead s.buf (addrNat e.ev - 0x200000) = none then
      some (.unwrittenRead (BitVec.ofNat 21 (addrNat e.ev)))
    else none
  else if kindNat e.ev = 3 then
    if s.st ≠ stIdle then some (.writeDuringRun e.ev s.st)
    else if IllegalData (addrNat e.ev) e.d then some (.illegalWriteValue e.ev e.d)
    else if addrNat e.ev = 0 ∧ s.cap.toNat < s.len.toNat then some (.lenExceedsCap s.len)
    else none
  else none

/-! ### Runs of steps -/

/-- `k` steps, up to the first that does not answer a next state. -/
def runSteps : Nat → State → Host.Outcome State Fault Refusal
  | 0, s => .next s
  | k + 1, s =>
    match step s with
    | .next t => runSteps k t
    | .fault f => .fault f
    | .refused r => .refused r

/-- A tick that delivers the word `rx` (R70, R80). -/
def tickInput (rx : Sample) : Input := lineInput (.tick rx)

/-- The inputs of a run of ticks, oldest first. -/
def tickInputs (rxs : List Sample) : List Input := rxs.map tickInput

/-! ### The block's invariant -/

/-- The code of the exchange in flight, as the history tells it: the last record's, if that is an exchange (R28, R109). -/
def inFlight (log : List BusRecord) : Option Code :=
  match log.getLast? with
  | some (.exchange c) => some c
  | some .reset => none
  | none => none

/-- The channel index after `j` Running ticks of a run over a channel list (R22, R125, R131). -/
def indexAfter (chan : Vector Code 8) (j : Nat) : Slot := (nextIdx chan)^[j] 0#3

/-- What holds of the block between any two events, whoever drives it. -/
structure BlockInv (s : State) : Prop where
  /-- the buffer keeps its canonical form -/
  bufCanonical : Memory.wf s.buf
  /-- only entries below `CAP` are written (R50, R128) -/
  bufBelowCap : ∀ c ∈ s.buf, c.1 < s.cap.toNat
  /-- `1 <= CAP <= 2^21` (R6) -/
  capInRange : 1 ≤ s.cap.toNat ∧ s.cap.toNat ≤ Config.maxCap
  /-- `ST` holds one of the three states (R20, R124) -/
  stateLegal : s.st ≠ stReserved
  /-- a run's length fits the buffer (R162) -/
  lenFitsInRun : s.st ≠ stIdle → s.len.toNat ≤ s.cap.toNat
  /-- `-2 <= sint(NPT) < uint(LEN)` at every Running tick's start (R129) -/
  countInRun : s.st = stRunning → -Config.primingBias ≤ s.npt.toInt ∧ s.npt.toInt < s.len.toNat
  /-- outside a run the counter holds the last run's count (R21) -/
  countOutsideRun : s.st ≠ stRunning → 0 ≤ s.npt.toInt ∧ s.npt.toInt ≤ s.cap.toNat
  /-- in a run the index is where `NextIdx` has brought it from 0 (R129) -/
  indexInRun : s.st = stRunning → s.cidx = indexAfter s.chan (s.npt.toInt + Config.primingBias).toNat
  /-- every entry the count covers has been written (R34, R131) -/
  countWritten : ∀ i : Nat, (i : Int) < s.npt.toInt → (memRead s.buf i).isSome
  /-- CS is asserted exactly when a tick has run since reset (R104) -/
  csAfterTick : s.cs = .asserted ↔ s.lastTx.isSome
  /-- `LASTTX` is the last exchange on the bus since reset (R28, R105, R109) -/
  lastTxLogged : s.lastTx = inFlight s.busLog
  /-- no tick has found the reserved state (R124) -/
  noReservedState : ∀ c, s.faultRec ≠ some (.reservedState c)
  /-- no store has run past the buffer (R129) -/
  noOverrun : ∀ n, s.faultRec ≠ some (.bufferOverrun n)

/-! ### What the accumulators mean (R133) -/

/-- Entry `i` as a number; 0 where it is unwritten. -/
def entryNat (m : Memory) (i : Nat) : Nat := ((memRead m i).map BitVec.toNat).getD 0

/-- The sum of `uint(BUF[i])` over `i < n`. -/
def bufSum (m : Memory) (n : Nat) : Nat := ((List.range n).map (entryNat m)).sum

/-- The sum of `uint(BUF[i])^2` over `i < n`. -/
def bufSquares (m : Memory) (n : Nat) : Nat := ((List.range n).map fun i => entryNat m i ^ 2).sum

/-- `SUM` and `SUMSQ` equal the sums over the stored samples exactly, `COUNT` of them (R133). -/
def AccumulatorsExact (s : State) : Prop :=
  s.sum.toNat = bufSum s.buf (countOf s.npt).toNat ∧ s.sumsq.toNat = bufSquares s.buf (countOf s.npt).toNat

/-! ### The caller's duties and the end of a run (R180, R181) -/

/-- The channel list holds `n` codes: slots below `n` non-zero, slot `n` the terminator when there is one (R134, R180 a). -/
def ListHolds (chan : Vector Code 8) (n : Nat) : Prop :=
  1 ≤ n ∧ n ≤ 8 ∧ (∀ k : Slot, k.toNat < n → chanAt chan k ≠ 0#16) ∧ (∀ k : Slot, k.toNat = n → chanAt chan k = 0#16)

/-- The accumulators are cleared before the start (R180 b). -/
def AccumulatorsClear (s : State) : Prop := s.sum = 0#64 ∧ s.sumsq = 0#64

/-- What the caller owes before it starts a run of a list of `n` codes at a sample rate, with the times of its platform
(R180 a, b, d, f). -/
structure StartDuties (n : Nat) (fs : Rat) (timing : Timing) (s : State) : Prop where
  idle : s.st = stIdle
  listConfigured : ListHolds s.chan n
  accumulatorsClear : AccumulatorsClear s
  lengthFits : s.len.toNat ≤ s.cap.toNat
  marginHolds : timingMargin timing (armPeriod fs) = true

/-- The next input is an event with the word `w`. -/
def Takes (w : EventWord) (s : State) : Prop := ∃ e rest, s.inputs = .event e :: rest ∧ e.ev = w

/-- The start write, taken in `p`, begins a run in `s` (R162, R181). -/
def StartsRun (p s : State) : Prop :=
  p.st = stIdle ∧ Takes 0x30000000#32 p ∧ step p = .next s ∧ s.st = stStarting

/-- From `s` the `k`-th step is the first that brings `ST` back to Idle, at `t`, and it is a tick, not a reset (R123, R232). -/
def EndsAfter (k : Nat) (s t : State) : Prop :=
  ∃ p, k ≠ 0 ∧ runSteps (k - 1) s = .next p ∧ Takes 0x10000000#32 p ∧ step p = .next t ∧ t.st = stIdle ∧
    ∀ j < k, ∃ q, runSteps j s = .next q ∧ q.st ≠ stIdle

/-- The run that a start write began in `s` ends after `k` steps, at `t` (R181). -/
def RunEnds (k : Nat) (s t : State) : Prop := (∃ p, StartsRun p s) ∧ EndsAfter k s t

/-- A run is complete when it has ended and no fault is recorded (R181). -/
def RunComplete (k : Nat) (s t : State) : Prop := RunEnds k s t ∧ Safe t

/-- The caller observes the end of the run that began in `s` by its `m`-th step, which leaves `u`: that step takes the first
`RD.STATE` after the tick that ended the run (R181). -/
def EndObserved (m : Nat) (s u : State) : Prop :=
  ∃ k t p, RunEnds k s t ∧ k < m ∧ runSteps (m - 1) s = .next p ∧ Takes 0x20000000#32 p ∧ step p = .next u ∧
    ∀ j, k ≤ j → j < m - 1 → ∀ q, runSteps j s = .next q → ¬ Takes 0x20000000#32 q

/-! ### The environment's contracts -/

/-- The ADC's contract over a sequence of ticks, `codes` sent and `rxs` captured, both from the same tick on: the word a
tick captures is the conversion of the code sent `lag` ticks before, where that tick is in the sequence, and any word
where it is not (R107). A conversion is a draw: `conv u c` is the result for code `c` sent at tick `u` (log 13). -/
def AdcContractAt (lag : Nat) (conv : Nat → Code → Sample) (codes : List Code) (rxs : List Sample) : Prop :=
  ∀ u, u + lag < rxs.length → ∀ c, codes[u]? = some c → rxs[u + lag]? = some (conv u c)

/-- The contract at the platform's own lag, the OPEN `ADC_LAG` (R107). -/
def AdcContract (conv : Nat → Code → Sample) (codes : List Code) (rxs : List Sample) : Prop :=
  AdcContractAt Config.adcLag conv codes rxs

/-- The trigger's contract on the inputs to come: from a trigger in state `t`, no tick arrives while it is disarmed, and a
reset disarms it (R212, R230). -/
def triggerContract : Trigger → List Input → Bool
  | _, [] => true
  | _, .arm p :: rest => triggerContract (.armed p) rest
  | _, .disarm :: rest => triggerContract .disarmed rest
  | t, .event e :: rest =>
    if e.ev = eventWord .reset then triggerContract .disarmed rest
    else if e.ev = 0x10000000#32 then t != .disarmed && triggerContract t rest
    else triggerContract t rest

/-! ### The platform's schedule (R205, R212) -/

/-- The words the ticks among the turns capture, in order. -/
def tickWords (us : List Turn) : List Sample :=
  us.filterMap fun
    | .tick rx => some rx
    | .caller => none
    | .reset => none

/-- No tick arrives while the trigger is disarmed, over the turns `us` from `y` (R212). The ticks meant are the turns of the
trigger; a `tick` line in a caller's program is none of them (log 30). -/
def TicksOnlyArmed : List Turn → Platform → Prop
  | [], _ => True
  | u :: us, y =>
    (∀ rx, u = .tick rx → y.block.trigger ≠ .disarmed) ∧ ∀ z, turnStep u y = .next z → TicksOnlyArmed us z

/-- The platform after the first `n` turns of a schedule. -/
def scheduleRun (turn : Nat → Turn) (n : Nat) (y : Platform) : Host.Outcome Platform Fault Refusal :=
  runTurns ((List.range n).map turn) y

/-- The trigger's contract on an unending schedule of turns from `y` (R212), about the trigger's own turns (log 30). -/
structure TriggerSchedule (turn : Nat → Turn) (y : Platform) : Prop where
  /-- while the trigger is disarmed, no tick arrives -/
  silentDisarmed : ∀ n z, scheduleRun turn n y = .next z → z.block.trigger = .disarmed → ∀ rx, turn n ≠ .tick rx
  /-- weak fairness: a trigger armed at one time delivers a tick at that time or later, unless it is disarmed first (D24) -/
  weaklyFair : ∀ n z p, scheduleRun turn n y = .next z → z.block.trigger = .armed p →
    ∃ m, n ≤ m ∧ ((∃ rx, turn m = .tick rx) ∨ ∃ z', scheduleRun turn m y = .next z' ∧ z'.block.trigger = .disarmed)

/-- The caller never stops for good: it is a thread of its own, which the trigger only interrupts (R160, R205; log 26). -/
def CallerGoesOn (turn : Nat → Turn) : Prop := ∀ n, ∃ m, n ≤ m ∧ turn m = .caller

end Sys2Proof.Machine
end

