-- ==== Sys2Proof/Certificates/Slice0/Obligations.lean ====
section
/-! DEFINITION. The statements about the model that the provers settle: reset, taking an input, encoding, the four
ticks, the host's operations, the whole machine, and runs. -/

open Sys2Proof Sys2Proof.Machine

/-! ### Reset (70_reset_and_hazards.md) -/

/-- R231: the block powers up in the state a reset installs, with `FAULT = none`, `ST` Idle and the trigger disarmed. -/
def Obligations.PowerUpIsReset : Prop :=
  State.reset.faultRec = none ∧ State.reset.st = stIdle ∧ State.reset.trigger = .disarmed ∧
    exec .reset State.reset = .next { State.reset with busLog := State.reset.busLog ++ [.reset] }

/-- R230, R38: from every state a reset installs these values, appends the marker, leaves `FAULT` and
the constant `CAP` as they are. Its word selects it in every state. At power-up `FAULT` is `none`. -/
def Obligations.ResetInstallsValues : Prop :=
  State.reset.faultRec = none ∧
  (∀ (st : StCode) (cap : BitVec 32) (rx : Sample) (d : DataWord), decode st cap ⟨0x40000000#32, rx, d⟩ = .ok .reset) ∧
  ∀ s : State, ∃ t, exec .reset s = .next t ∧
    t.st = 0b00#2 ∧ t.npt = 0x00000000#32 ∧ t.cidx = 0#3 ∧ (∀ k, chanAt t.chan k = 0x0000#16) ∧ t.len = 0x00000000#32 ∧
    t.sum = 0#64 ∧ t.sumsq = 0#64 ∧ t.cs = .deasserted ∧ t.lastTx = none ∧ (∀ i, memRead t.buf i = none) ∧
    t.busLog = s.busLog ++ [.reset] ∧ t.trigger = .disarmed ∧ t.faultRec = s.faultRec ∧ t.cap = s.cap

/-- A reset leaves the model's two ports, the result-out port and the list of inputs: the model's choice (log 24). -/
def Obligations.ResetKeepsPorts : Prop :=
  ∀ s : State, ∃ t, exec .reset s = .next t ∧ t.result = s.result ∧ t.inputs = s.inputs

/-! ### Taking an input (20_memory.md R59, 60_exceptions.md) -/

/-- A step runs the decoded operation: the event is off the input list, the result-out port is empty (log 5), and
nothing else is added around `exec`. -/
def Obligations.StepRunsDecodedEvent : Prop :=
  ∀ (s : State) (e : RawEvent) (rest : List Input) (i : Instr),
    s.faultRec = none → s.inputs = .event e :: rest → decode s.st s.cap e = .ok i →
    step s = exec i { s with inputs := rest, result := none }

/-- R78: an event word that matches no row of the opcode map is reserved; the reserved words are the listed ones; taking
one records `RESERVED_EVENT` with the word, and no register, buffer entry or bus record changes. Of the model's own two
ports, the input list and the result-out port (log 1, log 5, log 21), it says nothing: `EventsUsePorts` does. -/
def Obligations.ReservedWordsFault : Prop :=
  (∀ (st : StCode) (cap : BitVec 32) (w : EventWord),
    ((∀ r ∈ opcodeTable, r.selects st cap w = false) ↔ ReservedWord cap w)) ∧
  ∀ (s : State) (e : RawEvent) (rest : List Input),
    s.faultRec = none → s.inputs = .event e :: rest → ReservedWord s.cap e.ev →
    ∃ t, step s = .next t ∧
      t = { s with inputs := t.inputs, result := t.result, faultRec := some (.reservedEvent e.ev) }

/-- What taking an event does to the model's two ports, the model's choice (log 1, log 5, log 21): the event is off the
input list, and the result-out port holds a word exactly when the event is a host read that records no fault. -/
def Obligations.EventsUsePorts : Prop :=
  ∀ (s : State) (e : RawEvent) (rest : List Input), s.faultRec = none → s.inputs = .event e :: rest →
    ∃ t, step s = .next t ∧ t.inputs = rest ∧ (t.result.isSome ↔ kindNat e.ev = 2 ∧ t.faultRec = none)

/-- R202: once `FAULT` is set no further event is taken, not even a reset. -/
def Obligations.FaultIsFinal : Prop :=
  ∀ (s : State) (r : FaultRecord), s.faultRec = some r → step s = .fault (.halted r)

/-- R9, R201: a faulting event changes no state other than `FAULT`. -/
def Obligations.FaultChangesOnlyFault : Prop :=
  ∀ (i : Instr) (s t : State), exec i s = .next t → t.faultRec ≠ s.faultRec →
    ∃ f, t = { s with faultRec := some f }

/-- R203: an event records the first fault that applies, in the order of checks, and no other; every event that is
taken answers a next state. -/
def Obligations.FirstApplicableFaultRecorded : Prop :=
  ∀ (s : State) (e : RawEvent) (rest : List Input),
    s.faultRec = none → s.inputs = .event e :: rest →
    ∃ t, step s = .next t ∧ t.faultRec = firstFault s e

/-- With nothing to deliver the block holds its state: the model's reading of R217 (log 3). -/
def Obligations.QuietBlockHoldsState : Prop :=
  ∀ s : State, s.faultRec = none → s.inputs = [] → step s = .next s

/-- `arm` and `disarm` act on the platform's trigger alone (R80, R212; log 12). -/
def Obligations.PlatformActionsSetTrigger : Prop :=
  ∀ (s : State) (rest : List Input), s.faultRec = none →
    (∀ p, s.inputs = .arm p :: rest → step s = .next { s with inputs := rest, trigger := .armed p }) ∧
    (s.inputs = .disarm :: rest → step s = .next { s with inputs := rest, trigger := .disarmed })

/-- An environment that keeps the trigger's contract keeps keeping it: no tick while disarmed, and a reset disarms (R212). -/
def Obligations.TriggerContractKept : Prop :=
  ∀ s t : State, triggerContract s.trigger s.inputs = true → step s = .next t →
    triggerContract t.trigger t.inputs = true

/-! ### Encoding (30_encoding.md) -/

/-- Decoding the encoding of an operation gives it back, with every operand at every value. -/
def Obligations.DecodeEncodeRoundTrip : Prop :=
  ∀ (st : StCode) (cap : BitVec 32) (i : Instr), i.wellFormed st cap = true → decode st cap (encode i) = .ok i

/-- An event that decodes is, but for the payload lanes its kind ignores, the encoding of the operation it gives. -/
def Obligations.DecodedEventIsItsEncoding : Prop :=
  ∀ (st : StCode) (cap : BitVec 32) (e : RawEvent) (i : Instr), decode st cap e = .ok i →
    i.wellFormed st cap = true ∧ encode i = e.canonical

/-- R75: exactly one row of the opcode map matches a legal word, the row of the operation decoded; a word that matches no
row decodes to none. -/
def Obligations.LegalWordSelectsOneRow : Prop :=
  ∀ (st : StCode) (cap : BitVec 32) (e : RawEvent),
    (∀ i, decode st cap e = .ok i → opcodeRow i ∈ opcodeTable ∧ (opcodeRow i).selects st cap e.ev = true ∧
      opcodeTable.countP (fun r => r.selects st cap e.ev) = 1) ∧
    ((∀ r ∈ opcodeTable, r.selects st cap e.ev = false) → ∃ r, decode st cap e = .error r)

/-- R74: the one `TICK` word selects one of four rows by the value of `ST`; no other word's decoding depends on `ST`. -/
def Obligations.TickModeSelectsRow : Prop :=
  (∀ (cap : BitVec 32) (rx : Sample) (d : DataWord),
    decode 0b00#2 cap ⟨0x10000000#32, rx, d⟩ = .ok (.tickIdle rx) ∧
    decode 0b01#2 cap ⟨0x10000000#32, rx, d⟩ = .ok (.tickStart rx) ∧
    decode 0b10#2 cap ⟨0x10000000#32, rx, d⟩ = .ok (.tickRun rx) ∧
    decode 0b11#2 cap ⟨0x10000000#32, rx, d⟩ = .ok (.tickRsvd rx)) ∧
  ∀ (st st' : StCode) (cap : BitVec 32) (e : RawEvent), e.ev ≠ 0x10000000#32 → decode st cap e = decode st' cap e

/-- Words written out from R75 decode to the operations they stand for. -/
def Obligations.WrittenWordsDecode : Prop :=
  decode stIdle 32768#32 ⟨0b0001000000#10 ++ 0#22, 0x1234#16, 0#64⟩ = .ok (.tickIdle 0x1234#16) ∧
  decode stRunning 32768#32 ⟨0b0010000000#10 ++ 0b0000000000000000001111#22, 0#16, 0#64⟩ = .ok (.rdChan 7#3) ∧
  decode stIdle 32768#32 ⟨0b0011000000#10 ++ 0b0000000000000000001000#22, 0#16, 5#64⟩ = .ok (.wrChan 0#3 5#64) ∧
  decode stIdle 32768#32 ⟨0b0010000000#10 ++ 0b1000000111111111111111#22, 0#16, 0#64⟩ = .ok (.rdBuf 32767#21) ∧
  decode stIdle 32768#32 ⟨0b0100000000#10 ++ 0#22, 0#16, 0#64⟩ = .ok .reset

/-- A line of R80 stands for the event whose word and payload the table gives. -/
def Obligations.TextLinesStandForEvents : Prop :=
  (∀ rx, lineInput (.tick rx) = .event (encode (.tickIdle rx))) ∧
  lineInput (.rd .state) = .event (encode .rdState) ∧ lineInput (.rd .len) = .event (encode .rdLen) ∧
  lineInput (.rd .count) = .event (encode .rdCount) ∧ lineInput (.rd .npt) = .event (encode .rdNpt) ∧
  lineInput (.rd .cidx) = .event (encode .rdCidx) ∧ lineInput (.rd .cap) = .event (encode .rdCap) ∧
  (∀ k, lineInput (.rd (.chan k)) = .event (encode (.rdChan k))) ∧
  lineInput (.rd .sum) = .event (encode .rdSum) ∧ lineInput (.rd .sumsq) = .event (encode .rdSumsq) ∧
  (∀ i, lineInput (.rd (.buf i)) = .event (encode (.rdBuf i))) ∧
  (∀ d, lineInput (.wr .state d) = .event (encode (.wrState d))) ∧
  (∀ d, lineInput (.wr .len d) = .event (encode (.wrLen d))) ∧
  (∀ k d, lineInput (.wr (.chan k) d) = .event (encode (.wrChan k d))) ∧
  (∀ d, lineInput (.wr .sum d) = .event (encode (.wrSum d))) ∧
  (∀ d, lineInput (.wr .sumsq d) = .event (encode (.wrSumsq d))) ∧
  lineInput .reset = .event (encode .reset)

/-! ### The four ticks (40_pipeliner.md, 41_fsm.md) -/

/-- R101: what phase 1 does: it returns the payload, leaves CS asserted, sends `CHAN[CIDX]` as one record, and
remembers the code; nothing else changes. -/
def Obligations.PipelineExchange : Prop :=
  ∀ (rx : Sample) (s : State),
    pipeline rx s = (rx, { s with
      cs := .asserted
      lastTx := some (chanAt s.chan s.cidx)
      busLog := s.busLog ++ [.exchange (chanAt s.chan s.cidx)] })

/-- R121: its word in its mode; an Idle tick is phase 1 alone, and every register, buffer entry and parameter else is
unchanged. -/
def Obligations.IdleTickEffect : Prop :=
  ∀ (rx : Sample) (d : DataWord) (s : State),
    (s.st = 0b00#2 → decode s.st s.cap ⟨0x10000000#32, rx, d⟩ = .ok (.tickIdle rx)) ∧
    exec (.tickIdle rx) s = .next { s with
    cs := .asserted
    lastTx := some (chanAt s.chan s.cidx)
    busLog := s.busLog ++ [.exchange (chanAt s.chan s.cidx)] }

/-- R122: its word in its mode; a Starting tick sends with the index it finds, then sets `CIDX` to 0, `NPT` to -2 and
`ST` to Running; `LEN`, `CHAN`, the accumulators and the buffer are untouched. -/
def Obligations.StartTickEffect : Prop :=
  ∀ (rx : Sample) (d : DataWord) (s : State),
    (s.st = 0b01#2 → decode s.st s.cap ⟨0x10000000#32, rx, d⟩ = .ok (.tickStart rx)) ∧
    ∃ t, exec (.tickStart rx) s = .next t ∧ t.npt.toInt = -2 ∧ t = { s with
    cs := .asserted
    lastTx := some (chanAt s.chan s.cidx)
    busLog := s.busLog ++ [.exchange (chanAt s.chan s.cidx)]
    cidx := 0#3
    npt := 0xFFFFFFFE#32
    st := 0b10#2 }

/-- R123, R127, R128: its word in its mode; a Running tick, with `n = sint(NPT)`. With `n >= CAP` it records
`BUFFER_OVERRUN` and does nothing else. Otherwise it sends, counts, advances and tests for the end with the
incremented counter; with `n >= 0` it also stores the captured word at entry `n` and adds it and its square to the
accumulators, and with `n < 0` buffer and accumulators are unchanged. -/
def Obligations.RunTickEffect : Prop :=
  ∀ (rx : Sample) (d : DataWord) (s : State),
    (s.st = 0b10#2 → decode s.st s.cap ⟨0x10000000#32, rx, d⟩ = .ok (.tickRun rx)) ∧
    ((s.cap.toNat : Int) ≤ s.npt.toInt →
      exec (.tickRun rx) s = .next { s with faultRec := some (.bufferOverrun s.npt) }) ∧
    (s.npt.toInt < s.cap.toNat → ∃ t, exec (.tickRun rx) s = .next t ∧
      t.cs = .asserted ∧ t.lastTx = some (chanAt s.chan s.cidx) ∧
      t.busLog = s.busLog ++ [.exchange (chanAt s.chan s.cidx)] ∧
      t.npt = BitVec.ofInt 32 (s.npt.toInt + 1) ∧ t.cidx = nextIdx s.chan s.cidx ∧
      t.st = (if (s.len.toNat : Int) ≤ s.npt.toInt + 1 then 0b00#2 else s.st) ∧
      (0 ≤ s.npt.toInt →
        (∀ j : Nat, memRead t.buf j = if (j : Int) = s.npt.toInt then some rx else memRead s.buf j) ∧
        t.sum.toNat = (s.sum.toNat + rx.toNat) % 2 ^ 64 ∧
        t.sumsq.toNat = (s.sumsq.toNat + rx.toNat * rx.toNat) % 2 ^ 64) ∧
      (s.npt.toInt < 0 → t.buf = s.buf ∧ t.sum = s.sum ∧ t.sumsq = s.sumsq) ∧
      t.chan = s.chan ∧ t.len = s.len ∧ t.cap = s.cap ∧ t.faultRec = s.faultRec ∧ t.trigger = s.trigger ∧
      t.result = s.result ∧ t.inputs = s.inputs)

/-- R124: its word in its mode; a tick that finds the reserved state records `RESERVED_STATE`, always, with no phase 1
and no other change. -/
def Obligations.ReservedTickEffect : Prop :=
  ∀ (rx : Sample) (d : DataWord) (s : State),
    (s.st = 0b11#2 → decode s.st s.cap ⟨0x10000000#32, rx, d⟩ = .ok (.tickRsvd rx)) ∧
    exec (.tickRsvd rx) s = .next { s with faultRec := some (.reservedState s.st) }

/-- The words captured by Idle, Starting and priming ticks are discarded: no state depends on them (R121, R122, R235). -/
def Obligations.DiscardedCapturesLeaveNoTrace : Prop :=
  ∀ (rx rx' : Sample) (s : State),
    exec (.tickIdle rx) s = exec (.tickIdle rx') s ∧ exec (.tickStart rx) s = exec (.tickStart rx') s ∧
    (s.npt.toInt < 0 → exec (.tickRun rx) s = exec (.tickRun rx') s)

/-- R125: `NextIdx` wraps past the eighth slot and where the next slot holds the terminator, and else goes one on. -/
def Obligations.NextIndexRule : Prop :=
  ∀ (chan : Vector Code 8) (i : Slot),
    (i.toNat + 1 = 8 → nextIdx chan i = 0#3) ∧
    (∀ j : Slot, j.toNat = i.toNat + 1 →
      (chanAt chan j = 0x0000#16 → nextIdx chan i = 0#3) ∧ (chanAt chan j ≠ 0x0000#16 → nextIdx chan i = j))

/-- The channel index cycles through a list of `n` codes in list order from slot 0 (R134). -/
def Obligations.IndexCyclesThroughList : Prop :=
  ∀ (chan : Vector Code 8) (n j : Nat), ListHolds chan n → (indexAfter chan j).toNat = j % n

/-- Started with cleared accumulators, `SUM` and `SUMSQ` equal the sums over the stored samples exactly after every tick
of the run (R133, R127): true after the Starting tick, and kept by every Running tick. -/
def Obligations.AccumulatorsStayExact : Prop :=
  (∀ (rx : Sample) (s t : State), AccumulatorsClear s → exec (.tickStart rx) s = .next t → AccumulatorsExact t) ∧
  ∀ (rx : Sample) (s t : State), BlockInv s → s.st = stRunning → AccumulatorsExact s →
    exec (.tickRun rx) s = .next t → AccumulatorsExact t

/-- A Running tick of a legal state never overruns the buffer: the count is below the length, and the tick completes
without a fault (R129). -/
def Obligations.RunningTickNeverOverruns : Prop :=
  ∀ (rx : Sample) (s : State), BlockInv s → s.st = stRunning →
    -2 ≤ s.npt.toInt ∧ s.npt.toInt < s.len.toNat ∧ s.len.toNat ≤ s.cap.toNat ∧
    ∃ t, exec (.tickRun rx) s = .next t ∧ t.faultRec = s.faultRec

/-! ### The host's operations (42_host.md) -/

/-- R161, R163, R165 to R169, R171, R173: each read's word selects it in every state; it returns the register's value
on the result-out port, zero-extended (`NPT` sign-extended, `COUNT` the larger of `NPT` and 0), and changes nothing
else. -/
def Obligations.RegisterReadsReturnValues : Prop :=
  ∀ (s : State) (rx : Sample) (d : DataWord),
    (decode s.st s.cap ⟨0x20000000#32, rx, d⟩ = .ok .rdState ∧
      ∃ v, exec .rdState s = .next { s with result := some v } ∧ v.toNat = s.st.toNat) ∧
    (decode s.st s.cap ⟨0x20000001#32, rx, d⟩ = .ok .rdLen ∧
      ∃ v, exec .rdLen s = .next { s with result := some v } ∧ v.toNat = s.len.toNat) ∧
    (decode s.st s.cap ⟨0x20000002#32, rx, d⟩ = .ok .rdCount ∧
      ∃ v, exec .rdCount s = .next { s with result := some v } ∧ (v.toNat : Int) = max s.npt.toInt 0) ∧
    (decode s.st s.cap ⟨0x20000003#32, rx, d⟩ = .ok .rdNpt ∧
      ∃ v, exec .rdNpt s = .next { s with result := some v } ∧ v.toInt = s.npt.toInt) ∧
    (decode s.st s.cap ⟨0x20000004#32, rx, d⟩ = .ok .rdCidx ∧
      ∃ v, exec .rdCidx s = .next { s with result := some v } ∧ v.toNat = s.cidx.toNat) ∧
    (decode s.st s.cap ⟨0x20000005#32, rx, d⟩ = .ok .rdCap ∧
      ∃ v, exec .rdCap s = .next { s with result := some v } ∧ v.toNat = s.cap.toNat) ∧
    (∀ k : Slot, decode s.st s.cap ⟨0x20000008#32 + k.setWidth 32, rx, d⟩ = .ok (.rdChan k) ∧
      ∃ v, exec (.rdChan k) s = .next { s with result := some v } ∧ v.toNat = (chanAt s.chan k).toNat) ∧
    (decode s.st s.cap ⟨0x20000010#32, rx, d⟩ = .ok .rdSum ∧
      exec .rdSum s = .next { s with result := some s.sum }) ∧
    (decode s.st s.cap ⟨0x20000011#32, rx, d⟩ = .ok .rdSumsq ∧
      exec .rdSumsq s = .next { s with result := some s.sumsq })

/-- R175: the word of an index below `CAP` selects the read; the read returns the entry, zero-extended; an unwritten entry
records `UNWRITTEN_READ` with the index; nothing else changes. The decoder rejects the word of an index at or beyond
`CAP`, and the step that takes it records `RESERVED_EVENT`. -/
def Obligations.BufferReadReturnsEntry : Prop :=
  ∀ (i : BufIndex) (rx : Sample) (d : DataWord) (s : State),
    (i.toNat < s.cap.toNat → decode s.st s.cap ⟨0x20200000#32 + i.setWidth 32, rx, d⟩ = .ok (.rdBuf i)) ∧
    (i.toNat < s.cap.toNat → ∀ x, memRead s.buf i.toNat = some x →
      ∃ v, exec (.rdBuf i) s = .next { s with result := some v } ∧ v.toNat = x.toNat) ∧
    (i.toNat < s.cap.toNat → memRead s.buf i.toNat = none →
      exec (.rdBuf i) s = .next { s with faultRec := some (.unwrittenRead i) }) ∧
    (s.cap.toNat ≤ i.toNat →
      (∃ r, decode s.st s.cap ⟨0x20200000#32 + i.setWidth 32, rx, d⟩ = .error r) ∧
      ∀ rest, s.faultRec = none → s.inputs = .event ⟨0x20200000#32 + i.setWidth 32, rx, d⟩ :: rest →
        ∃ t, step s = .next t ∧ t.faultRec = some (.reservedEvent (0x20200000#32 + i.setWidth 32)))

/-- The model's choices about a buffer index at or beyond `CAP`: the name the decoder rejects it by (log 19), and that the
operation itself, which no step then reaches, checks once more and records `RESERVED_EVENT` (log 18). -/
def Obligations.BufferReadChecksIndexAgain : Prop :=
  ∀ (i : BufIndex) (rx : Sample) (d : DataWord) (s : State), s.cap.toNat ≤ i.toNat →
    decode s.st s.cap ⟨0x20200000#32 + i.setWidth 32, rx, d⟩ = .error .indexBeyondCap ∧
    exec (.rdBuf i) s = .next { s with faultRec := some (.reservedEvent (0x20200000#32 + i.setWidth 32)) }

/-- The guard every host write runs first: outside Idle each records `WRITE_DURING_RUN`, whatever its data (R176). -/
def Obligations.WriteGuardFaults : Prop :=
  ∀ (d : DataWord) (k : Slot) (s : State), s.st ≠ stIdle → ∀ i ∈ [Instr.wrState d, .wrLen d, .wrChan k d, .wrSum d, .wrSumsq d],
    exec i s = .next { s with faultRec := some (.writeDuringRun (eventWord i) s.st) }

/-- R162: its word; the start write. In Idle, with data 1 and `LEN <= CAP` (0 and `CAP` included), it sets `ST` to
Starting and changes nothing else; the three faults come in order. -/
def Obligations.StartWriteSeedsStarting : Prop :=
  ∀ (rx : Sample) (d : DataWord) (s : State),
    decode s.st s.cap ⟨0x30000000#32, rx, d⟩ = .ok (.wrState d) ∧
    (s.st = stIdle → d.toNat = 1 → s.len.toNat ≤ s.cap.toNat → exec (.wrState d) s = .next { s with st := 0b01#2 }) ∧
    (s.st ≠ stIdle → exec (.wrState d) s = .next { s with faultRec := some (.writeDuringRun 0x30000000#32 s.st) }) ∧
    (s.st = stIdle → d.toNat ≠ 1 →
      exec (.wrState d) s = .next { s with faultRec := some (.illegalWriteValue 0x30000000#32 d) }) ∧
    (s.st = stIdle → d.toNat = 1 → s.cap.toNat < s.len.toNat →
      exec (.wrState d) s = .next { s with faultRec := some (.lenExceedsCap s.len) })

/-- R164: its word; a length write in Idle stores `D[31:0]`, beyond `CAP` too, and changes nothing else; a set bit
above faults. -/
def Obligations.LengthWriteStores : Prop :=
  ∀ (rx : Sample) (d : DataWord) (s : State),
    decode s.st s.cap ⟨0x30000001#32, rx, d⟩ = .ok (.wrLen d) ∧
    (s.st = stIdle → d.toNat < 2 ^ 32 →
      ∃ v, exec (.wrLen d) s = .next { s with len := v } ∧ v.toNat = d.toNat) ∧
    (s.st ≠ stIdle → exec (.wrLen d) s = .next { s with faultRec := some (.writeDuringRun 0x30000001#32 s.st) }) ∧
    (s.st = stIdle → 2 ^ 32 ≤ d.toNat →
      exec (.wrLen d) s = .next { s with faultRec := some (.illegalWriteValue 0x30000001#32 d) })

/-- R170: its words; a channel write in Idle stores `D[15:0]` in its slot, the terminator included, and leaves the
other slots and every other field; a set bit above faults. -/
def Obligations.ChannelWriteStores : Prop :=
  ∀ (k : Slot) (rx : Sample) (d : DataWord) (s : State),
    decode s.st s.cap ⟨0x30000008#32 + k.setWidth 32, rx, d⟩ = .ok (.wrChan k d) ∧
    (s.st = stIdle → d.toNat < 2 ^ 16 →
      ∃ chan, exec (.wrChan k d) s = .next { s with chan := chan } ∧ (chanAt chan k).toNat = d.toNat ∧
        ∀ j, j ≠ k → chanAt chan j = chanAt s.chan j) ∧
    (s.st ≠ stIdle →
      exec (.wrChan k d) s = .next { s with faultRec := some (.writeDuringRun (0x30000008#32 + k.setWidth 32) s.st) }) ∧
    (s.st = stIdle → 2 ^ 16 ≤ d.toNat →
      exec (.wrChan k d) s = .next { s with faultRec := some (.illegalWriteValue (0x30000008#32 + k.setWidth 32) d) })

/-- R172, R174: their words; an accumulator write in Idle accepts the value 0 alone and clears its accumulator; any
other value faults. -/
def Obligations.AccumulatorWritesClear : Prop :=
  ∀ (rx : Sample) (d : DataWord) (s : State),
    decode s.st s.cap ⟨0x30000010#32, rx, d⟩ = .ok (.wrSum d) ∧
    decode s.st s.cap ⟨0x30000011#32, rx, d⟩ = .ok (.wrSumsq d) ∧
    (s.st = stIdle → d.toNat = 0 → exec (.wrSum d) s = .next { s with sum := 0#64 } ∧
      exec (.wrSumsq d) s = .next { s with sumsq := 0#64 }) ∧
    (s.st ≠ stIdle → exec (.wrSum d) s = .next { s with faultRec := some (.writeDuringRun 0x30000010#32 s.st) } ∧
      exec (.wrSumsq d) s = .next { s with faultRec := some (.writeDuringRun 0x30000011#32 s.st) }) ∧
    (s.st = stIdle → d.toNat ≠ 0 →
      exec (.wrSum d) s = .next { s with faultRec := some (.illegalWriteValue 0x30000010#32 d) } ∧
      exec (.wrSumsq d) s = .next { s with faultRec := some (.illegalWriteValue 0x30000011#32 d) })

/-- `configure` from Idle, with at most eight codes, writes them to the slots in order and the terminator to the next
slot, leaves the slots above, and records no fault (R177). -/
def Obligations.ConfigureWritesList : Prop :=
  ∀ (codes : List Code) (rest : List Input) (s : State),
    codes.length ≤ 8 → s.faultRec = none → s.st = stIdle → s.inputs = programInputs (configure codes) ++ rest →
    ∃ t, runSteps (configure codes).length s = .next t ∧ t.faultRec = none ∧ t.st = stIdle ∧ t.inputs = rest ∧
      t.len = s.len ∧ t.buf = s.buf ∧
      (∀ k : Slot, (∀ c, codes[k.toNat]? = some c → chanAt t.chan k = c) ∧
        (k.toNat = codes.length → chanAt t.chan k = 0x0000#16) ∧
        (codes.length < k.toNat → chanAt t.chan k = chanAt s.chan k))

/-! ### The whole machine -/

/-- R36: who may write what. A tick, taken in the mode of its row, writes neither `CHAN` nor `LEN` and moves `ST` only
from Starting to Running or from Running to Idle; the host writes none of `NPT`, `CIDX`, `BUF`, `CS`, `LASTTX`, writes
`CHAN` and `LEN` in Idle alone, the accumulators in Idle alone and with 0 alone, and moves `ST` from Idle to Starting alone.
Outside the two Running writes a tick leaves accumulators and buffer. -/
def Obligations.SingleWriterDiscipline : Prop :=
  ∀ (i : Instr) (s t : State), i ≠ .reset → i.modeOk s.st = true → exec i s = .next t →
    (i.tickMode ≠ none → t.chan = s.chan ∧ t.len = s.len ∧
      (t.st = s.st ∨ (s.st = stStarting ∧ t.st = stRunning) ∨ (s.st = stRunning ∧ t.st = stIdle)) ∧
      ((t.sum ≠ s.sum ∨ t.sumsq ≠ s.sumsq ∨ t.buf ≠ s.buf) → s.st = stRunning ∧ 0 ≤ s.npt.toInt)) ∧
    (i.tickMode = none →
      t.npt = s.npt ∧ t.cidx = s.cidx ∧ t.buf = s.buf ∧ t.cs = s.cs ∧ t.lastTx = s.lastTx ∧
      (t.st = s.st ∨ (s.st = stIdle ∧ t.st = stStarting)) ∧ (t.sum = s.sum ∨ t.sum = 0#64) ∧
      (t.sumsq = s.sumsq ∨ t.sumsq = 0#64) ∧
      (s.st ≠ stIdle → t.chan = s.chan ∧ t.len = s.len ∧ t.sum = s.sum ∧ t.sumsq = s.sumsq))

/-- Every step leaves `ST` as it is, or takes one of the three transitions of a run, or is a reset (R20, R120, R137). -/
def Obligations.StateTransitions : Prop :=
  ∀ s t : State, step s = .next t →
    t.st = s.st ∨ (s.st = stIdle ∧ t.st = stStarting) ∨ (s.st = stStarting ∧ t.st = stRunning) ∨
    (s.st = stRunning ∧ t.st = stIdle) ∨
    (t.st = stIdle ∧ ∃ e rest, s.inputs = .event e :: rest ∧ e.ev = 0x40000000#32)

/-- R109: each tick that runs appends one `Exchange(code)` record at the end of the history, a reset appends its marker
and clears nothing, and no other operation, a faulting tick among them, touches the history. -/
def Obligations.BusHistoryRule : Prop :=
  ∀ (i : Instr) (s t : State), exec i s = .next t →
    t.busLog =
      match i with
      | .tickIdle _ => s.busLog ++ [.exchange (chanAt s.chan s.cidx)]
      | .tickStart _ => s.busLog ++ [.exchange (chanAt s.chan s.cidx)]
      | .tickRun _ =>
        if s.npt.toInt < s.cap.toNat then s.busLog ++ [.exchange (chanAt s.chan s.cidx)] else s.busLog
      | .reset => s.busLog ++ [.reset]
      | _ => s.busLog

/-- R31: `CAP` is a constant: the host reads it and no event writes it, nor does anything else a step does. -/
def Obligations.CapacityIsConstant : Prop :=
  (∀ s : State, ∃ v, exec .rdCap s = .next { s with result := some v } ∧ v.toNat = s.cap.toNat) ∧
  ∀ s t : State, step s = .next t → t.cap = s.cap

/-- The block's invariant holds at power-up. -/
def Obligations.BlockInvAtReset : Prop := BlockInv State.reset

/-- Every step from a state with the invariant, whatever the environment delivers, leads to a state with the invariant:
the buffer's canonical form and bounds, the legal states, the run's counter and index (R129), and that neither
`RESERVED_STATE` nor `BUFFER_OVERRUN` is ever recorded. -/
def Obligations.BlockInvKept : Prop :=
  ∀ s t : State, BlockInv s → step s = .next t → BlockInv t

/-! ### Runs (41_fsm.md R130 to R136, 42_host.md R178, R181) -/

/-- R110: however many Idle ticks, each sends the same code, and no register, buffer entry or parameter but the bus side
changes (V-IDLE-2). Of the model's own two ports it says nothing: `IdleTicksUsePorts` does. -/
def Obligations.IdleTicksRepeat : Prop :=
  ∀ (rxs : List Sample) (rest : List Input) (s : State),
    s.faultRec = none → s.st = stIdle → rxs ≠ [] → s.inputs = tickInputs rxs ++ rest →
    ∃ t, runSteps rxs.length s = .next t ∧ t = { s with
      inputs := t.inputs
      result := t.result
      cs := .asserted
      lastTx := some (chanAt s.chan s.cidx)
      busLog := s.busLog ++ List.replicate rxs.length (.exchange (chanAt s.chan s.cidx)) }

/-- After Idle ticks the ticks are off the input list and the result-out port is empty: the model's choice (log 1, log 5). -/
def Obligations.IdleTicksUsePorts : Prop :=
  ∀ (rxs : List Sample) (rest : List Input) (s : State),
    s.faultRec = none → s.st = stIdle → rxs ≠ [] → s.inputs = tickInputs rxs ++ rest →
    ∃ t, runSteps rxs.length s = .next t ∧ t.inputs = rest ∧ t.result = none

/-- R130: from any Starting state with the invariant, `ST` comes back to Idle by a tick after exactly `LEN + 3` ticks, 0
included, not before and with no fault; so a run that a start write began is complete then (R181). -/
def Obligations.RunTakesLengthPlusThreeTicks : Prop :=
  ∀ (rxs : List Sample) (rest : List Input) (s : State),
    BlockInv s → s.faultRec = none → s.st = stStarting → s.inputs = tickInputs rxs ++ rest →
    rxs.length = s.len.toNat + 3 →
    ∃ t, EndsAfter (s.len.toNat + 3) s t ∧ Safe t ∧ runSteps (s.len.toNat + 3) s = .next t ∧ t.inputs = rest ∧
      ((∃ p, StartsRun p s) → RunComplete (s.len.toNat + 3) s t)

/-- The end of a run is observed by the first `RD.STATE` after its last tick, which returns Idle, however many Idle ticks
come between (R181, R62). -/
def Obligations.EndIsObserved : Prop :=
  ∀ (rxs : List Sample) (rx : Sample) (d : DataWord) (rest : List Input) (p s : State),
    BlockInv s → StartsRun p s → s.faultRec = none → s.len.toNat + 3 ≤ rxs.length →
    s.inputs = tickInputs rxs ++ .event ⟨0x20000000#32, rx, d⟩ :: rest →
    ∃ u, EndObserved (rxs.length + 1) s u ∧ u.result = some 0#64 ∧ u.faultRec = none

/-- R131, R132: at a run's end the counter is `LEN`, entry `i` below it holds the word of the run's tick `i + 3` counted
from the Starting tick as 0, the entries from `LEN` on are as before the run, and the index is where `LEN + 2` advances
from 0 have brought it. -/
def Obligations.RunStoresItsCaptures : Prop :=
  ∀ (rxs : List Sample) (rest : List Input) (s t : State),
    BlockInv s → s.faultRec = none → s.st = stStarting → s.inputs = tickInputs rxs ++ rest →
    rxs.length = s.len.toNat + 3 → runSteps (s.len.toNat + 3) s = .next t →
    t.st = stIdle ∧ t.npt.toInt = s.len.toNat ∧ countOf t.npt = s.len.toNat ∧
    (∀ i < s.len.toNat, memRead t.buf i = rxs[i + 3]?) ∧
    (∀ i, s.len.toNat ≤ i → memRead t.buf i = memRead s.buf i) ∧
    t.cidx = indexAfter s.chan (s.len.toNat + 2)

/-- The codes of a run: the Starting tick sends with the index it finds, and Running tick `j`, from 1, sends slot
`(j - 1) mod n` of a list of `n` codes (R134). -/
def Obligations.RunSendsCodesInOrder : Prop :=
  ∀ (rxs : List Sample) (rest : List Input) (n : Nat) (s t : State),
    BlockInv s → s.faultRec = none → s.st = stStarting → s.inputs = tickInputs rxs ++ rest →
    rxs.length = s.len.toNat + 3 → ListHolds s.chan n → runSteps (s.len.toNat + 3) s = .next t →
    t.busLog = s.busLog ++ .exchange (chanAt s.chan s.cidx) ::
      (List.range (s.len.toNat + 2)).map fun j => .exchange (chanAt s.chan (BitVec.ofNat 3 (j % n)))

/-- Channel alignment under the ADC's contract at any lag `L`: entry `i` holds the conversion of slot
`(i + 2 - L) mod n`, for every `i` with `i + 3 - L >= 1` (R135; a claim about block and environment together, log 13). -/
def Obligations.SamplesAlignWithChannels : Prop :=
  ∀ (lag n : Nat) (conv : Nat → Code → Sample) (codes : List Code) (rxs : List Sample) (rest : List Input) (s t : State),
    BlockInv s → s.faultRec = none → s.st = stStarting → s.inputs = tickInputs rxs ++ rest →
    rxs.length = s.len.toNat + 3 → ListHolds s.chan n → runSteps (s.len.toNat + 3) s = .next t →
    t.busLog = s.busLog ++ codes.map .exchange → AdcContractAt lag conv codes rxs →
    ∀ i < s.len.toNat, lag + 1 ≤ i + 3 →
      memRead t.buf i = some (conv (i + 3 - lag) (chanAt s.chan (BitVec.ofNat 3 ((i + 2 - lag) % n))))

/-! ### The caller's protocol (42_host.md R178, R179; 60_exceptions.md R212) -/

/-- What the caller of `runAcquisition` does first (R178): it reads `CAP`, and with a length beyond the word read it rejects,
with nothing more to do, so nothing armed; with a length within it, it checks its timing margin against the
period it will arm (log 28), and rejects where that fails (log 25). The block has only answered the read. -/
def Obligations.CallerChecksFirst : Prop :=
  ∀ (len : BitVec 32) (fs : Rat) (timing : Timing) (y : Platform),
    y.block.faultRec = none → y.caller = callerOf (runAcquisition len fs timing) →
    ∃ z v, turnStep .caller y = .next z ∧ v.toNat = y.block.cap.toNat ∧ z.block = { y.block with result := some v } ∧
      z.caller.seen = [v] ∧
      (y.block.cap.toNat < len.toNat → z.caller.todo = [] ∧ z.caller.rejected = true) ∧
      (len.toNat ≤ y.block.cap.toNat → z.caller.rejected = false ∧
        ∃ z', turnStep .caller z = .next z' ∧ z'.block = z.block ∧
          (armPeriod fs ≤ timing.handler + timing.transfer → z'.caller.todo = [] ∧ z'.caller.rejected = true) ∧
          (timing.handler + timing.transfer < armPeriod fs →
            z'.caller.todo = (runAcquisition len fs timing).drop 2 ∧ z'.caller.rejected = false))

/-- `wait_idle` reads `STATE` and goes on exactly when the word is 0, that is when `ST` is Idle; else it is where it was; and
the block has only answered the read (R81, R178). -/
def Obligations.WaitIdleLeavesOnZero : Prop :=
  ∀ (y : Platform) (rest : List Command), y.block.faultRec = none → y.caller.todo = .waitIdle :: rest →
    ∃ z, turnStep .caller y = .next z ∧ z.block = { y.block with result := z.block.result } ∧
      z.caller.rejected = y.caller.rejected ∧ (z.block.result = some 0#64 ↔ y.block.st = stIdle) ∧
      (y.block.st = stIdle → z.caller.todo = rest) ∧ (y.block.st ≠ stIdle → z.caller.todo = .waitIdle :: rest)

/-- The caller's protocol does what it promises (R178, R133): whenever `runAcquisition`, started on an Idle block, has
returned without rejecting, however the ticks fell between the caller's accesses, the block is Idle, no fault is recorded,
the trigger is disarmed, `COUNT` is the length, the accumulators are exact, and entry `i` holds the word of the run's tick
`i + 3`; the run's ticks are the last ones of the turns, and all of them where no tick came before the trigger was armed. -/
def Obligations.RunAcquisitionDelivers : Prop :=
  ∀ (len : BitVec 32) (fs : Rat) (timing : Timing) (turns : List Turn) (y z : Platform),
    BlockInv y.block → y.block.faultRec = none → y.block.st = stIdle →
    y.caller = callerOf (runAcquisition len fs timing) → .reset ∉ turns → runTurns turns y = .next z →
    z.caller.todo = [] → z.caller.rejected = false →
    z.block.faultRec = none ∧ z.block.st = stIdle ∧ z.block.trigger = .disarmed ∧ countOf z.block.npt = len.toNat ∧
      AccumulatorsExact z.block ∧
      ∃ before words, tickWords turns = before ++ words ∧ len.toNat + 3 ≤ words.length ∧
        (∀ i < len.toNat, memRead z.block.buf i = words[i + 3]?) ∧
        (y.block.trigger = .disarmed → TicksOnlyArmed turns y → before = [])

/-- Progress (R244, R212): on every schedule that keeps the trigger's contract, weak fairness included, and on which the
caller goes on (log 26), with no reset, a `runAcquisition` whose checks pass returns, with its run ended and no fault. -/
def Obligations.RunAcquisitionReturns : Prop :=
  ∀ (len : BitVec 32) (fs : Rat) (timing : Timing) (turn : Nat → Turn) (y : Platform),
    BlockInv y.block → y.block.faultRec = none → y.block.st = stIdle →
    y.caller = callerOf (runAcquisition len fs timing) → len.toNat ≤ y.block.cap.toNat → timingMargin timing (armPeriod fs) = true →
    TriggerSchedule turn y → CallerGoesOn turn → (∀ n, turn n ≠ .reset) →
    ∃ n z, scheduleRun turn n y = .next z ∧ z.caller.todo = [] ∧ z.caller.rejected = false ∧ z.block.st = stIdle ∧
      z.block.faultRec = none ∧ countOf z.block.npt = len.toNat

/-- `readout` returns the results (R179): from a block whose first `len` entries are written, its reads return `COUNT`, `SUM`,
`SUMSQ` and the entries in order, and change nothing the next read could see. -/
def Obligations.ReadoutReturnsResults : Prop :=
  ∀ (len : Nat) (rest : List Command) (y : Platform),
    BlockInv y.block → y.block.faultRec = none → len ≤ y.block.cap.toNat →
    (∀ i < len, (memRead y.block.buf i).isSome) → y.caller.todo = (readout len).map Command.line ++ rest →
    ∃ z, runTurns (List.replicate (len + 3) .caller) y = .next z ∧ z.caller.todo = rest ∧
      z.block = { y.block with result := z.block.result } ∧
      z.caller.seen.map BitVec.toNat = y.caller.seen.map BitVec.toNat ++
        [(countOf y.block.npt).toNat, y.block.sum.toNat, y.block.sumsq.toNat] ++
        (List.range len).map (entryNat y.block.buf)

/-- The platform adds nothing to the block: whatever turns have led to, the block alone gets there by steps, from its state
with some inputs in front of those it still had (R59, R207). -/
def Obligations.TurnsAreBlockSteps : Prop :=
  ∀ (turns : List Turn) (y z : Platform), runTurns turns y = .next z →
    ∃ inputs, runSteps inputs.length { y.block with inputs := inputs ++ y.block.inputs } = .next z.block

/-- The timing check and the arming of one call are about one period (R178; log 28), and where `1e6 / fs` is a whole number
that period is it, so that the times are held against `1 / fs` (R178, R239; log 27 for the type of `fs`). -/
def Obligations.MarginCheckedAgainstArmedPeriod : Prop :=
  ∀ (len : BitVec 32) (fs : Rat) (timing : Timing),
    (∃ t p, Command.checkMargin t p ∈ runAcquisition len fs timing) ∧
    (∃ q, Command.line (.arm q) ∈ runAcquisition len fs timing) ∧
    (∀ t p q, Command.checkMargin t p ∈ runAcquisition len fs timing →
      Command.line (.arm q) ∈ runAcquisition len fs timing → t = timing ∧ p = q) ∧
    ∀ P : Nat, 0 < fs → (P : Rat) = 1000000 / fs →
      Command.line (.arm P) ∈ runAcquisition len fs timing ∧
      (timingMargin timing P = true ↔ timing.handler + timing.transfer < 1000000 / fs)
end

