-- ==== Sys2Proof/Laws/Memory.lean ====
section
/-! SUPPORT. The laws of the sample buffer (20_memory.md R51, R52): a read after a write, the canonical form every
operation keeps, and that the canonical form makes equal buffers equal data. -/

namespace Sys2Proof.Machine

@[simp] theorem memRead_nil (i : Nat) : memRead [] i = none := rfl

@[simp] theorem memRead_memWrite_same (m : Memory) (i : Nat) (v : Sample) : memRead (memWrite m i v) i = some v := by
  induction m with
  | nil => simp [memWrite, memRead]
  | cons c m ih =>
    simp only [memWrite]
    split
    · simp [memRead]
    · split <;> simp_all [memRead]

@[simp] theorem memRead_memWrite_other (m : Memory) {i j : Nat} (v : Sample) (h : j ≠ i) :
    memRead (memWrite m i v) j = memRead m j := by
  have h' : i ≠ j := fun e => h e.symm
  induction m with
  | nil => simp [memWrite, memRead, h']
  | cons c m ih =>
    simp only [memWrite]
    split
    · simp [memRead, h']
    · split
      · simp_all [memRead]
      · simp [memRead, ih]

/-- What a write leaves listed: the entry written and entries that were there. -/
theorem mem_memWrite {m : Memory} {i : Nat} {v : Sample} {c : Nat × Sample} (h : c ∈ memWrite m i v) :
    c = (i, v) ∨ c ∈ m := by
  induction m with
  | nil => simpa [memWrite] using h
  | cons d m ih =>
    simp only [memWrite] at h
    split at h
    · simpa using h
    · split at h
      · rcases List.mem_cons.1 h with h | h
        · exact .inl h
        · exact .inr (List.mem_cons_of_mem _ h)
      · rcases List.mem_cons.1 h with h | h
        · exact .inr (h ▸ List.mem_cons_self)
        · exact (ih h).imp id (List.mem_cons_of_mem _)

theorem wf_nil : Memory.wf [] := List.Pairwise.nil

/-- The one operation that changes the buffer besides the reset keeps the canonical form. -/
theorem memWrite_wf {m : Memory} (h : Memory.wf m) (i : Nat) (v : Sample) : Memory.wf (memWrite m i v) := by
  induction m with
  | nil => exact List.pairwise_singleton _ _
  | cons c m ih =>
    have hc := List.pairwise_cons.1 h
    simp only [memWrite]
    split
    · refine List.pairwise_cons.2 ⟨fun d hd => ?_, h⟩
      rcases List.mem_cons.1 hd with rfl | hd
      · assumption
      · have := hc.1 d hd; simp only; omega
    · split
      · rename_i _ e
        exact List.pairwise_cons.2 ⟨fun d hd => e ▸ hc.1 d hd, hc.2⟩
      · refine List.pairwise_cons.2 ⟨fun d hd => ?_, ih hc.2⟩
        rcases mem_memWrite hd with rfl | hd
        · simp only; omega
        · exact hc.1 d hd

/-- A listed index reads as its entry. -/
theorem memRead_of_mem {m : Memory} (h : Memory.wf m) {c : Nat × Sample} (hc : c ∈ m) : memRead m c.1 = some c.2 := by
  induction m with
  | nil => cases hc
  | cons d m ih =>
    have hd := List.pairwise_cons.1 h
    rcases List.mem_cons.1 hc with rfl | hm
    · simp [memRead]
    · have : d.1 ≠ c.1 := by have := hd.1 c hm; omega
      simp [memRead, this, ih hd.2 hm]

/-- An index reads as an entry only where that entry is listed. -/
theorem mem_of_memRead {m : Memory} {i : Nat} {v : Sample} (h : memRead m i = some v) : (i, v) ∈ m := by
  induction m with
  | nil => simp at h
  | cons d m ih =>
    simp only [memRead] at h
    split at h
    · rename_i e
      cases h; cases e; exact List.mem_cons_self
    · exact List.mem_cons_of_mem _ (ih h)

/-- Buffers in canonical form that read alike are the same data. -/
theorem wf_ext {m m' : Memory} (h : Memory.wf m) (h' : Memory.wf m') (e : ∀ i, memRead m i = memRead m' i) :
    m = m' := by
  have mem_iff (c : Nat × Sample) : c ∈ m ↔ c ∈ m' :=
    ⟨fun hc => mem_of_memRead (e c.1 ▸ memRead_of_mem h hc), fun hc => mem_of_memRead ((e c.1).symm ▸ memRead_of_mem h' hc)⟩
  have nodup {n : Memory} (hn : Memory.wf n) : n.Nodup := hn.imp fun hab he => by simp [he] at hab
  exact List.Perm.eq_of_pairwise (le := fun a b => a.1 < b.1) (fun a b _ _ hab hba => by omega) h h'
    ((List.perm_ext_iff_of_nodup (nodup h) (nodup h')).2 mem_iff)

theorem reset_wf : Memory.wf State.reset.buf := wf_nil

end Sys2Proof.Machine
end

