-- ==== Sys2Proof/Laws/State.lean ====
section
/-! SUPPORT. The small lemmas of the named updates of the state: what each field holds after each update, so that no
proof unfolds a record update. -/

namespace Sys2Proof.Machine

variable (s : State)

/-! ### `setChan` -/

@[simp] theorem setChan_st (k : Slot) (c : Code) : (setChan k c s).st = s.st := rfl
@[simp] theorem setChan_npt (k : Slot) (c : Code) : (setChan k c s).npt = s.npt := rfl
@[simp] theorem setChan_cidx (k : Slot) (c : Code) : (setChan k c s).cidx = s.cidx := rfl
@[simp] theorem setChan_chan (k : Slot) (c : Code) : (setChan k c s).chan = s.chan.set k.toNat c k.isLt := rfl
@[simp] theorem setChan_len (k : Slot) (c : Code) : (setChan k c s).len = s.len := rfl
@[simp] theorem setChan_sum (k : Slot) (c : Code) : (setChan k c s).sum = s.sum := rfl
@[simp] theorem setChan_sumsq (k : Slot) (c : Code) : (setChan k c s).sumsq = s.sumsq := rfl
@[simp] theorem setChan_cs (k : Slot) (c : Code) : (setChan k c s).cs = s.cs := rfl
@[simp] theorem setChan_lastTx (k : Slot) (c : Code) : (setChan k c s).lastTx = s.lastTx := rfl
@[simp] theorem setChan_buf (k : Slot) (c : Code) : (setChan k c s).buf = s.buf := rfl
@[simp] theorem setChan_cap (k : Slot) (c : Code) : (setChan k c s).cap = s.cap := rfl
@[simp] theorem setChan_faultRec (k : Slot) (c : Code) : (setChan k c s).faultRec = s.faultRec := rfl
@[simp] theorem setChan_busLog (k : Slot) (c : Code) : (setChan k c s).busLog = s.busLog := rfl
@[simp] theorem setChan_trigger (k : Slot) (c : Code) : (setChan k c s).trigger = s.trigger := rfl
@[simp] theorem setChan_result (k : Slot) (c : Code) : (setChan k c s).result = s.result := rfl
@[simp] theorem setChan_inputs (k : Slot) (c : Code) : (setChan k c s).inputs = s.inputs := rfl

/-! ### `csSet` -/

@[simp] theorem csSet_st (l : CsLevel) : (csSet l s).st = s.st := rfl
@[simp] theorem csSet_npt (l : CsLevel) : (csSet l s).npt = s.npt := rfl
@[simp] theorem csSet_cidx (l : CsLevel) : (csSet l s).cidx = s.cidx := rfl
@[simp] theorem csSet_chan (l : CsLevel) : (csSet l s).chan = s.chan := rfl
@[simp] theorem csSet_len (l : CsLevel) : (csSet l s).len = s.len := rfl
@[simp] theorem csSet_sum (l : CsLevel) : (csSet l s).sum = s.sum := rfl
@[simp] theorem csSet_sumsq (l : CsLevel) : (csSet l s).sumsq = s.sumsq := rfl
@[simp] theorem csSet_cs (l : CsLevel) : (csSet l s).cs = l := rfl
@[simp] theorem csSet_lastTx (l : CsLevel) : (csSet l s).lastTx = s.lastTx := rfl
@[simp] theorem csSet_buf (l : CsLevel) : (csSet l s).buf = s.buf := rfl
@[simp] theorem csSet_cap (l : CsLevel) : (csSet l s).cap = s.cap := rfl
@[simp] theorem csSet_faultRec (l : CsLevel) : (csSet l s).faultRec = s.faultRec := rfl
@[simp] theorem csSet_busLog (l : CsLevel) : (csSet l s).busLog = s.busLog := rfl
@[simp] theorem csSet_trigger (l : CsLevel) : (csSet l s).trigger = s.trigger := rfl
@[simp] theorem csSet_result (l : CsLevel) : (csSet l s).result = s.result := rfl
@[simp] theorem csSet_inputs (l : CsLevel) : (csSet l s).inputs = s.inputs := rfl

/-! ### `busSend` -/

@[simp] theorem busSend_st (c : Code) : (busSend c s).st = s.st := rfl
@[simp] theorem busSend_npt (c : Code) : (busSend c s).npt = s.npt := rfl
@[simp] theorem busSend_cidx (c : Code) : (busSend c s).cidx = s.cidx := rfl
@[simp] theorem busSend_chan (c : Code) : (busSend c s).chan = s.chan := rfl
@[simp] theorem busSend_len (c : Code) : (busSend c s).len = s.len := rfl
@[simp] theorem busSend_sum (c : Code) : (busSend c s).sum = s.sum := rfl
@[simp] theorem busSend_sumsq (c : Code) : (busSend c s).sumsq = s.sumsq := rfl
@[simp] theorem busSend_cs (c : Code) : (busSend c s).cs = s.cs := rfl
@[simp] theorem busSend_lastTx (c : Code) : (busSend c s).lastTx = s.lastTx := rfl
@[simp] theorem busSend_buf (c : Code) : (busSend c s).buf = s.buf := rfl
@[simp] theorem busSend_cap (c : Code) : (busSend c s).cap = s.cap := rfl
@[simp] theorem busSend_faultRec (c : Code) : (busSend c s).faultRec = s.faultRec := rfl
@[simp] theorem busSend_busLog (c : Code) : (busSend c s).busLog = s.busLog ++ [.exchange c] := rfl
@[simp] theorem busSend_trigger (c : Code) : (busSend c s).trigger = s.trigger := rfl
@[simp] theorem busSend_result (c : Code) : (busSend c s).result = s.result := rfl
@[simp] theorem busSend_inputs (c : Code) : (busSend c s).inputs = s.inputs := rfl

/-! ### `setLastTx` -/

@[simp] theorem setLastTx_st (c : Code) : (setLastTx c s).st = s.st := rfl
@[simp] theorem setLastTx_npt (c : Code) : (setLastTx c s).npt = s.npt := rfl
@[simp] theorem setLastTx_cidx (c : Code) : (setLastTx c s).cidx = s.cidx := rfl
@[simp] theorem setLastTx_chan (c : Code) : (setLastTx c s).chan = s.chan := rfl
@[simp] theorem setLastTx_len (c : Code) : (setLastTx c s).len = s.len := rfl
@[simp] theorem setLastTx_sum (c : Code) : (setLastTx c s).sum = s.sum := rfl
@[simp] theorem setLastTx_sumsq (c : Code) : (setLastTx c s).sumsq = s.sumsq := rfl
@[simp] theorem setLastTx_cs (c : Code) : (setLastTx c s).cs = s.cs := rfl
@[simp] theorem setLastTx_lastTx (c : Code) : (setLastTx c s).lastTx = some c := rfl
@[simp] theorem setLastTx_buf (c : Code) : (setLastTx c s).buf = s.buf := rfl
@[simp] theorem setLastTx_cap (c : Code) : (setLastTx c s).cap = s.cap := rfl
@[simp] theorem setLastTx_faultRec (c : Code) : (setLastTx c s).faultRec = s.faultRec := rfl
@[simp] theorem setLastTx_busLog (c : Code) : (setLastTx c s).busLog = s.busLog := rfl
@[simp] theorem setLastTx_trigger (c : Code) : (setLastTx c s).trigger = s.trigger := rfl
@[simp] theorem setLastTx_result (c : Code) : (setLastTx c s).result = s.result := rfl
@[simp] theorem setLastTx_inputs (c : Code) : (setLastTx c s).inputs = s.inputs := rfl

/-! ### `withResult` -/

@[simp] theorem withResult_st (v : DataWord) : (withResult v s).st = s.st := rfl
@[simp] theorem withResult_npt (v : DataWord) : (withResult v s).npt = s.npt := rfl
@[simp] theorem withResult_cidx (v : DataWord) : (withResult v s).cidx = s.cidx := rfl
@[simp] theorem withResult_chan (v : DataWord) : (withResult v s).chan = s.chan := rfl
@[simp] theorem withResult_len (v : DataWord) : (withResult v s).len = s.len := rfl
@[simp] theorem withResult_sum (v : DataWord) : (withResult v s).sum = s.sum := rfl
@[simp] theorem withResult_sumsq (v : DataWord) : (withResult v s).sumsq = s.sumsq := rfl
@[simp] theorem withResult_cs (v : DataWord) : (withResult v s).cs = s.cs := rfl
@[simp] theorem withResult_lastTx (v : DataWord) : (withResult v s).lastTx = s.lastTx := rfl
@[simp] theorem withResult_buf (v : DataWord) : (withResult v s).buf = s.buf := rfl
@[simp] theorem withResult_cap (v : DataWord) : (withResult v s).cap = s.cap := rfl
@[simp] theorem withResult_faultRec (v : DataWord) : (withResult v s).faultRec = s.faultRec := rfl
@[simp] theorem withResult_busLog (v : DataWord) : (withResult v s).busLog = s.busLog := rfl
@[simp] theorem withResult_trigger (v : DataWord) : (withResult v s).trigger = s.trigger := rfl
@[simp] theorem withResult_result (v : DataWord) : (withResult v s).result = some v := rfl
@[simp] theorem withResult_inputs (v : DataWord) : (withResult v s).inputs = s.inputs := rfl

/-! ### `setTrigger` -/

@[simp] theorem setTrigger_st (t : Trigger) : (setTrigger t s).st = s.st := rfl
@[simp] theorem setTrigger_npt (t : Trigger) : (setTrigger t s).npt = s.npt := rfl
@[simp] theorem setTrigger_cidx (t : Trigger) : (setTrigger t s).cidx = s.cidx := rfl
@[simp] theorem setTrigger_chan (t : Trigger) : (setTrigger t s).chan = s.chan := rfl
@[simp] theorem setTrigger_len (t : Trigger) : (setTrigger t s).len = s.len := rfl
@[simp] theorem setTrigger_sum (t : Trigger) : (setTrigger t s).sum = s.sum := rfl
@[simp] theorem setTrigger_sumsq (t : Trigger) : (setTrigger t s).sumsq = s.sumsq := rfl
@[simp] theorem setTrigger_cs (t : Trigger) : (setTrigger t s).cs = s.cs := rfl
@[simp] theorem setTrigger_lastTx (t : Trigger) : (setTrigger t s).lastTx = s.lastTx := rfl
@[simp] theorem setTrigger_buf (t : Trigger) : (setTrigger t s).buf = s.buf := rfl
@[simp] theorem setTrigger_cap (t : Trigger) : (setTrigger t s).cap = s.cap := rfl
@[simp] theorem setTrigger_faultRec (t : Trigger) : (setTrigger t s).faultRec = s.faultRec := rfl
@[simp] theorem setTrigger_busLog (t : Trigger) : (setTrigger t s).busLog = s.busLog := rfl
@[simp] theorem setTrigger_trigger (t : Trigger) : (setTrigger t s).trigger = t := rfl
@[simp] theorem setTrigger_result (t : Trigger) : (setTrigger t s).result = s.result := rfl
@[simp] theorem setTrigger_inputs (t : Trigger) : (setTrigger t s).inputs = s.inputs := rfl

/-! ### `withFault` -/

@[simp] theorem withFault_st (f : FaultRecord) : (withFault f s).st = s.st := rfl
@[simp] theorem withFault_npt (f : FaultRecord) : (withFault f s).npt = s.npt := rfl
@[simp] theorem withFault_cidx (f : FaultRecord) : (withFault f s).cidx = s.cidx := rfl
@[simp] theorem withFault_chan (f : FaultRecord) : (withFault f s).chan = s.chan := rfl
@[simp] theorem withFault_len (f : FaultRecord) : (withFault f s).len = s.len := rfl
@[simp] theorem withFault_sum (f : FaultRecord) : (withFault f s).sum = s.sum := rfl
@[simp] theorem withFault_sumsq (f : FaultRecord) : (withFault f s).sumsq = s.sumsq := rfl
@[simp] theorem withFault_cs (f : FaultRecord) : (withFault f s).cs = s.cs := rfl
@[simp] theorem withFault_lastTx (f : FaultRecord) : (withFault f s).lastTx = s.lastTx := rfl
@[simp] theorem withFault_buf (f : FaultRecord) : (withFault f s).buf = s.buf := rfl
@[simp] theorem withFault_cap (f : FaultRecord) : (withFault f s).cap = s.cap := rfl
@[simp] theorem withFault_faultRec (f : FaultRecord) : (withFault f s).faultRec = some f := rfl
@[simp] theorem withFault_busLog (f : FaultRecord) : (withFault f s).busLog = s.busLog := rfl
@[simp] theorem withFault_trigger (f : FaultRecord) : (withFault f s).trigger = s.trigger := rfl
@[simp] theorem withFault_result (f : FaultRecord) : (withFault f s).result = s.result := rfl
@[simp] theorem withFault_inputs (f : FaultRecord) : (withFault f s).inputs = s.inputs := rfl

/-! ### `takeEvent` -/

@[simp] theorem takeEvent_st (rest : List Input) : (takeEvent rest s).st = s.st := rfl
@[simp] theorem takeEvent_npt (rest : List Input) : (takeEvent rest s).npt = s.npt := rfl
@[simp] theorem takeEvent_cidx (rest : List Input) : (takeEvent rest s).cidx = s.cidx := rfl
@[simp] theorem takeEvent_chan (rest : List Input) : (takeEvent rest s).chan = s.chan := rfl
@[simp] theorem takeEvent_len (rest : List Input) : (takeEvent rest s).len = s.len := rfl
@[simp] theorem takeEvent_sum (rest : List Input) : (takeEvent rest s).sum = s.sum := rfl
@[simp] theorem takeEvent_sumsq (rest : List Input) : (takeEvent rest s).sumsq = s.sumsq := rfl
@[simp] theorem takeEvent_cs (rest : List Input) : (takeEvent rest s).cs = s.cs := rfl
@[simp] theorem takeEvent_lastTx (rest : List Input) : (takeEvent rest s).lastTx = s.lastTx := rfl
@[simp] theorem takeEvent_buf (rest : List Input) : (takeEvent rest s).buf = s.buf := rfl
@[simp] theorem takeEvent_cap (rest : List Input) : (takeEvent rest s).cap = s.cap := rfl
@[simp] theorem takeEvent_faultRec (rest : List Input) : (takeEvent rest s).faultRec = s.faultRec := rfl
@[simp] theorem takeEvent_busLog (rest : List Input) : (takeEvent rest s).busLog = s.busLog := rfl
@[simp] theorem takeEvent_trigger (rest : List Input) : (takeEvent rest s).trigger = s.trigger := rfl
@[simp] theorem takeEvent_result (rest : List Input) : (takeEvent rest s).result = none := rfl
@[simp] theorem takeEvent_inputs (rest : List Input) : (takeEvent rest s).inputs = rest := rfl

/-! ### `dropInput` -/

@[simp] theorem dropInput_st (rest : List Input) : (dropInput rest s).st = s.st := rfl
@[simp] theorem dropInput_npt (rest : List Input) : (dropInput rest s).npt = s.npt := rfl
@[simp] theorem dropInput_cidx (rest : List Input) : (dropInput rest s).cidx = s.cidx := rfl
@[simp] theorem dropInput_chan (rest : List Input) : (dropInput rest s).chan = s.chan := rfl
@[simp] theorem dropInput_len (rest : List Input) : (dropInput rest s).len = s.len := rfl
@[simp] theorem dropInput_sum (rest : List Input) : (dropInput rest s).sum = s.sum := rfl
@[simp] theorem dropInput_sumsq (rest : List Input) : (dropInput rest s).sumsq = s.sumsq := rfl
@[simp] theorem dropInput_cs (rest : List Input) : (dropInput rest s).cs = s.cs := rfl
@[simp] theorem dropInput_lastTx (rest : List Input) : (dropInput rest s).lastTx = s.lastTx := rfl
@[simp] theorem dropInput_buf (rest : List Input) : (dropInput rest s).buf = s.buf := rfl
@[simp] theorem dropInput_cap (rest : List Input) : (dropInput rest s).cap = s.cap := rfl
@[simp] theorem dropInput_faultRec (rest : List Input) : (dropInput rest s).faultRec = s.faultRec := rfl
@[simp] theorem dropInput_busLog (rest : List Input) : (dropInput rest s).busLog = s.busLog := rfl
@[simp] theorem dropInput_trigger (rest : List Input) : (dropInput rest s).trigger = s.trigger := rfl
@[simp] theorem dropInput_result (rest : List Input) : (dropInput rest s).result = s.result := rfl
@[simp] theorem dropInput_inputs (rest : List Input) : (dropInput rest s).inputs = rest := rfl

/-! ### `place` -/

@[simp] theorem place_st (i : Input) : (place i s).st = s.st := rfl
@[simp] theorem place_npt (i : Input) : (place i s).npt = s.npt := rfl
@[simp] theorem place_cidx (i : Input) : (place i s).cidx = s.cidx := rfl
@[simp] theorem place_chan (i : Input) : (place i s).chan = s.chan := rfl
@[simp] theorem place_len (i : Input) : (place i s).len = s.len := rfl
@[simp] theorem place_sum (i : Input) : (place i s).sum = s.sum := rfl
@[simp] theorem place_sumsq (i : Input) : (place i s).sumsq = s.sumsq := rfl
@[simp] theorem place_cs (i : Input) : (place i s).cs = s.cs := rfl
@[simp] theorem place_lastTx (i : Input) : (place i s).lastTx = s.lastTx := rfl
@[simp] theorem place_buf (i : Input) : (place i s).buf = s.buf := rfl
@[simp] theorem place_cap (i : Input) : (place i s).cap = s.cap := rfl
@[simp] theorem place_faultRec (i : Input) : (place i s).faultRec = s.faultRec := rfl
@[simp] theorem place_busLog (i : Input) : (place i s).busLog = s.busLog := rfl
@[simp] theorem place_trigger (i : Input) : (place i s).trigger = s.trigger := rfl
@[simp] theorem place_result (i : Input) : (place i s).result = s.result := rfl
@[simp] theorem place_inputs (i : Input) : (place i s).inputs = i :: s.inputs := rfl

/-! ### `deliver` -/

@[simp] theorem deliver_st (e : RawEvent) : (deliver e s).st = s.st := rfl
@[simp] theorem deliver_npt (e : RawEvent) : (deliver e s).npt = s.npt := rfl
@[simp] theorem deliver_cidx (e : RawEvent) : (deliver e s).cidx = s.cidx := rfl
@[simp] theorem deliver_chan (e : RawEvent) : (deliver e s).chan = s.chan := rfl
@[simp] theorem deliver_len (e : RawEvent) : (deliver e s).len = s.len := rfl
@[simp] theorem deliver_sum (e : RawEvent) : (deliver e s).sum = s.sum := rfl
@[simp] theorem deliver_sumsq (e : RawEvent) : (deliver e s).sumsq = s.sumsq := rfl
@[simp] theorem deliver_cs (e : RawEvent) : (deliver e s).cs = s.cs := rfl
@[simp] theorem deliver_lastTx (e : RawEvent) : (deliver e s).lastTx = s.lastTx := rfl
@[simp] theorem deliver_buf (e : RawEvent) : (deliver e s).buf = s.buf := rfl
@[simp] theorem deliver_cap (e : RawEvent) : (deliver e s).cap = s.cap := rfl
@[simp] theorem deliver_faultRec (e : RawEvent) : (deliver e s).faultRec = s.faultRec := rfl
@[simp] theorem deliver_busLog (e : RawEvent) : (deliver e s).busLog = s.busLog := rfl
@[simp] theorem deliver_trigger (e : RawEvent) : (deliver e s).trigger = s.trigger := rfl
@[simp] theorem deliver_result (e : RawEvent) : (deliver e s).result = s.result := rfl
@[simp] theorem deliver_inputs (e : RawEvent) : (deliver e s).inputs = .event e :: s.inputs := rfl

/-! ### `storeSample` -/

@[simp] theorem storeSample_st (n : Nat) (v : Sample) : (storeSample n v s).st = s.st := rfl
@[simp] theorem storeSample_npt (n : Nat) (v : Sample) : (storeSample n v s).npt = s.npt := rfl
@[simp] theorem storeSample_cidx (n : Nat) (v : Sample) : (storeSample n v s).cidx = s.cidx := rfl
@[simp] theorem storeSample_chan (n : Nat) (v : Sample) : (storeSample n v s).chan = s.chan := rfl
@[simp] theorem storeSample_len (n : Nat) (v : Sample) : (storeSample n v s).len = s.len := rfl
@[simp] theorem storeSample_sum (n : Nat) (v : Sample) : (storeSample n v s).sum = addSample s.sum v := rfl
@[simp] theorem storeSample_sumsq (n : Nat) (v : Sample) : (storeSample n v s).sumsq = addSquare s.sumsq v := rfl
@[simp] theorem storeSample_cs (n : Nat) (v : Sample) : (storeSample n v s).cs = s.cs := rfl
@[simp] theorem storeSample_lastTx (n : Nat) (v : Sample) : (storeSample n v s).lastTx = s.lastTx := rfl
@[simp] theorem storeSample_buf (n : Nat) (v : Sample) : (storeSample n v s).buf = memWrite s.buf n v := rfl
@[simp] theorem storeSample_cap (n : Nat) (v : Sample) : (storeSample n v s).cap = s.cap := rfl
@[simp] theorem storeSample_faultRec (n : Nat) (v : Sample) : (storeSample n v s).faultRec = s.faultRec := rfl
@[simp] theorem storeSample_busLog (n : Nat) (v : Sample) : (storeSample n v s).busLog = s.busLog := rfl
@[simp] theorem storeSample_trigger (n : Nat) (v : Sample) : (storeSample n v s).trigger = s.trigger := rfl
@[simp] theorem storeSample_result (n : Nat) (v : Sample) : (storeSample n v s).result = s.result := rfl
@[simp] theorem storeSample_inputs (n : Nat) (v : Sample) : (storeSample n v s).inputs = s.inputs := rfl

/-! ### `advance` -/

@[simp] theorem advance_st (n : Int) : (advance n s).st = s.st := rfl
@[simp] theorem advance_npt (n : Int) : (advance n s).npt = trunc 32 (n + 1) := rfl
@[simp] theorem advance_cidx (n : Int) : (advance n s).cidx = nextIdx s.chan s.cidx := rfl
@[simp] theorem advance_chan (n : Int) : (advance n s).chan = s.chan := rfl
@[simp] theorem advance_len (n : Int) : (advance n s).len = s.len := rfl
@[simp] theorem advance_sum (n : Int) : (advance n s).sum = s.sum := rfl
@[simp] theorem advance_sumsq (n : Int) : (advance n s).sumsq = s.sumsq := rfl
@[simp] theorem advance_cs (n : Int) : (advance n s).cs = s.cs := rfl
@[simp] theorem advance_lastTx (n : Int) : (advance n s).lastTx = s.lastTx := rfl
@[simp] theorem advance_buf (n : Int) : (advance n s).buf = s.buf := rfl
@[simp] theorem advance_cap (n : Int) : (advance n s).cap = s.cap := rfl
@[simp] theorem advance_faultRec (n : Int) : (advance n s).faultRec = s.faultRec := rfl
@[simp] theorem advance_busLog (n : Int) : (advance n s).busLog = s.busLog := rfl
@[simp] theorem advance_trigger (n : Int) : (advance n s).trigger = s.trigger := rfl
@[simp] theorem advance_result (n : Int) : (advance n s).result = s.result := rfl
@[simp] theorem advance_inputs (n : Int) : (advance n s).inputs = s.inputs := rfl

/-! ### `resetState` -/

@[simp] theorem resetState_st : (resetState s).st = stIdle := rfl
@[simp] theorem resetState_npt : (resetState s).npt = 0#32 := rfl
@[simp] theorem resetState_cidx : (resetState s).cidx = 0#3 := rfl
@[simp] theorem resetState_chan : (resetState s).chan = Vector.replicate 8 0x0000#16 := rfl
@[simp] theorem resetState_len : (resetState s).len = 0#32 := rfl
@[simp] theorem resetState_sum : (resetState s).sum = 0#64 := rfl
@[simp] theorem resetState_sumsq : (resetState s).sumsq = 0#64 := rfl
@[simp] theorem resetState_cs : (resetState s).cs = .deasserted := rfl
@[simp] theorem resetState_lastTx : (resetState s).lastTx = none := rfl
@[simp] theorem resetState_buf : (resetState s).buf = [] := rfl
@[simp] theorem resetState_cap : (resetState s).cap = s.cap := rfl
@[simp] theorem resetState_faultRec : (resetState s).faultRec = s.faultRec := rfl
@[simp] theorem resetState_busLog : (resetState s).busLog = s.busLog ++ [.reset] := rfl
@[simp] theorem resetState_trigger : (resetState s).trigger = .disarmed := rfl
@[simp] theorem resetState_result : (resetState s).result = s.result := rfl
@[simp] theorem resetState_inputs : (resetState s).inputs = s.inputs := rfl

/-! ### The state after phase 1 -/

@[simp] theorem pipeline_captured (rx : Sample) : (pipeline rx s).1 = rx := rfl
@[simp] theorem pipeline_st (rx : Sample) : (pipeline rx s).2.st = s.st := rfl
@[simp] theorem pipeline_npt (rx : Sample) : (pipeline rx s).2.npt = s.npt := rfl
@[simp] theorem pipeline_cidx (rx : Sample) : (pipeline rx s).2.cidx = s.cidx := rfl
@[simp] theorem pipeline_chan (rx : Sample) : (pipeline rx s).2.chan = s.chan := rfl
@[simp] theorem pipeline_len (rx : Sample) : (pipeline rx s).2.len = s.len := rfl
@[simp] theorem pipeline_sum (rx : Sample) : (pipeline rx s).2.sum = s.sum := rfl
@[simp] theorem pipeline_sumsq (rx : Sample) : (pipeline rx s).2.sumsq = s.sumsq := rfl
@[simp] theorem pipeline_cs (rx : Sample) : (pipeline rx s).2.cs = .asserted := rfl
@[simp] theorem pipeline_lastTx (rx : Sample) : (pipeline rx s).2.lastTx = some (codeToSend s) := rfl
@[simp] theorem pipeline_buf (rx : Sample) : (pipeline rx s).2.buf = s.buf := rfl
@[simp] theorem pipeline_cap (rx : Sample) : (pipeline rx s).2.cap = s.cap := rfl
@[simp] theorem pipeline_faultRec (rx : Sample) : (pipeline rx s).2.faultRec = s.faultRec := rfl
@[simp] theorem pipeline_busLog (rx : Sample) : (pipeline rx s).2.busLog = s.busLog ++ [.exchange (codeToSend s)] := rfl
@[simp] theorem pipeline_trigger (rx : Sample) : (pipeline rx s).2.trigger = s.trigger := rfl
@[simp] theorem pipeline_result (rx : Sample) : (pipeline rx s).2.result = s.result := rfl
@[simp] theorem pipeline_inputs (rx : Sample) : (pipeline rx s).2.inputs = s.inputs := rfl

/-! ### The end test -/

theorem finishIfDone_st (n : Int) :
    (finishIfDone n s).st = if endOfRun (n + 1) s.len then stIdle else s.st := by
  unfold finishIfDone; split <;> rfl
@[simp] theorem finishIfDone_npt (n : Int) : (finishIfDone n s).npt = s.npt := by
  unfold finishIfDone; split <;> rfl
@[simp] theorem finishIfDone_cidx (n : Int) : (finishIfDone n s).cidx = s.cidx := by
  unfold finishIfDone; split <;> rfl
@[simp] theorem finishIfDone_chan (n : Int) : (finishIfDone n s).chan = s.chan := by
  unfold finishIfDone; split <;> rfl
@[simp] theorem finishIfDone_len (n : Int) : (finishIfDone n s).len = s.len := by
  unfold finishIfDone; split <;> rfl
@[simp] theorem finishIfDone_sum (n : Int) : (finishIfDone n s).sum = s.sum := by
  unfold finishIfDone; split <;> rfl
@[simp] theorem finishIfDone_sumsq (n : Int) : (finishIfDone n s).sumsq = s.sumsq := by
  unfold finishIfDone; split <;> rfl
@[simp] theorem finishIfDone_cs (n : Int) : (finishIfDone n s).cs = s.cs := by
  unfold finishIfDone; split <;> rfl
@[simp] theorem finishIfDone_lastTx (n : Int) : (finishIfDone n s).lastTx = s.lastTx := by
  unfold finishIfDone; split <;> rfl
@[simp] theorem finishIfDone_buf (n : Int) : (finishIfDone n s).buf = s.buf := by
  unfold finishIfDone; split <;> rfl
@[simp] theorem finishIfDone_cap (n : Int) : (finishIfDone n s).cap = s.cap := by
  unfold finishIfDone; split <;> rfl
@[simp] theorem finishIfDone_faultRec (n : Int) : (finishIfDone n s).faultRec = s.faultRec := by
  unfold finishIfDone; split <;> rfl
@[simp] theorem finishIfDone_busLog (n : Int) : (finishIfDone n s).busLog = s.busLog := by
  unfold finishIfDone; split <;> rfl
@[simp] theorem finishIfDone_trigger (n : Int) : (finishIfDone n s).trigger = s.trigger := by
  unfold finishIfDone; split <;> rfl
@[simp] theorem finishIfDone_result (n : Int) : (finishIfDone n s).result = s.result := by
  unfold finishIfDone; split <;> rfl
@[simp] theorem finishIfDone_inputs (n : Int) : (finishIfDone n s).inputs = s.inputs := by
  unfold finishIfDone; split <;> rfl

end Sys2Proof.Machine
end

