-- ==== Sys2Proof/Laws/Ops.lean ====
section
/-! SUPPORT. One lemma for each shared operation, saying all it can do: ending an event, a host read, a host write, taking
the next input, and a step. -/

namespace Sys2Proof.Machine

/-! ### Ending an event (R9) -/

@[simp] theorem commit_ok (s t : State) : commit s (.ok t) = .next t := rfl

@[simp] theorem commit_error (s : State) (f : FaultRecord) : commit s (.error f) = .next (withFault f s) := rfl

/-- An event ends in its rule's state, or in the state before it with the fault recorded. -/
theorem commit_next {s t : State} {r : Except FaultRecord State} (h : commit s r = .next t) :
    r = .ok t ∨ ∃ f, r = .error f ∧ t = withFault f s := by
  cases r with
  | ok u => exact .inl (by simpa using h)
  | error f => exact .inr ⟨f, rfl, by simpa using h.symm⟩

/-! ### Host accesses (R57, R176) -/

@[simp] theorem hostRead_eq (v : DataWord) (s : State) : hostRead v s = .next (withResult v s) := rfl

theorem hostWrite_busy {ev : EventWord} {d : DataWord} {ok : Bool} {r : Except FaultRecord State} {s : State}
    (h : s.st ≠ stIdle) : hostWrite ev d ok r s = .next (withFault (.writeDuringRun ev s.st) s) := by
  simp [hostWrite, h]

theorem hostWrite_illegal {ev : EventWord} {d : DataWord} {r : Except FaultRecord State} {s : State}
    (h : s.st = stIdle) : hostWrite ev d false r s = .next (withFault (.illegalWriteValue ev d) s) := by
  simp [hostWrite, h]

theorem hostWrite_legal {ev : EventWord} {d : DataWord} {r : Except FaultRecord State} {s : State}
    (h : s.st = stIdle) : hostWrite ev d true r s = commit s r := by
  simp [hostWrite, h]

/-- A host write records a fault, or finds the block Idle with legal data and ends as its effect does. -/
theorem hostWrite_next {ev : EventWord} {d : DataWord} {ok : Bool} {r : Except FaultRecord State} {s t : State}
    (h : hostWrite ev d ok r s = .next t) :
    (∃ f, t = withFault f s) ∨ (s.st = stIdle ∧ ok = true ∧ r = .ok t) := by
  by_cases hs : s.st = stIdle
  · cases ok with
    | false => rw [hostWrite_illegal hs] at h; exact .inl ⟨_, by simpa using h.symm⟩
    | true =>
      rw [hostWrite_legal hs] at h
      rcases commit_next h with h | ⟨f, -, h⟩
      · exact .inr ⟨hs, rfl, h⟩
      · exact .inl ⟨f, h⟩
  · rw [hostWrite_busy hs] at h; exact .inl ⟨_, by simpa using h.symm⟩

/-! ### Taking the next input (R59, R202) -/

theorem fetch_halted {s : State} {r : FaultRecord} (h : s.faultRec = some r) : fetch s = .halted r := by
  simp [fetch, h]

theorem fetch_quiet {s : State} (h : s.faultRec = none) (hi : s.inputs = []) : fetch s = .quiet := by
  simp [fetch, h, hi]

theorem fetch_event {s : State} {e : RawEvent} {rest : List Input} (h : s.faultRec = none)
    (hi : s.inputs = .event e :: rest) : fetch s = .event e (takeEvent rest s) := by
  simp [fetch, h, hi]

theorem fetch_arm {s : State} {p : Nat} {rest : List Input} (h : s.faultRec = none) (hi : s.inputs = .arm p :: rest) :
    fetch s = .platform (setTrigger (.armed p) (dropInput rest s)) := by
  simp [fetch, h, hi]

theorem fetch_disarm {s : State} {rest : List Input} (h : s.faultRec = none) (hi : s.inputs = .disarm :: rest) :
    fetch s = .platform (setTrigger .disarmed (dropInput rest s)) := by
  simp [fetch, h, hi]

/-- What a step that answers a next state has done: nothing, a platform action, an operation, or a reserved word. -/
theorem step_cases {s t : State} (h : step s = .next t) :
    s.faultRec = none ∧
      ((s.inputs = [] ∧ t = s) ∨
        (∃ p rest, s.inputs = .arm p :: rest ∧ t = setTrigger (.armed p) (dropInput rest s)) ∨
        (∃ rest, s.inputs = .disarm :: rest ∧ t = setTrigger .disarmed (dropInput rest s)) ∨
        (∃ e rest i, s.inputs = .event e :: rest ∧ decode s.st s.cap e = .ok i ∧ exec i (takeEvent rest s) = .next t) ∨
        (∃ e rest r, s.inputs = .event e :: rest ∧ decode s.st s.cap e = .error r ∧
          t = withFault (.reservedEvent e.ev) (takeEvent rest s))) := by
  cases hf : s.faultRec with
  | some r => simp [step, fetch_halted hf] at h
  | none =>
    refine ⟨rfl, ?_⟩
    match hi : s.inputs with
    | [] => exact .inl ⟨rfl, by simpa [step, fetch_quiet hf hi] using h.symm⟩
    | .arm p :: rest => exact .inr (.inl ⟨p, rest, rfl, by simpa [step, fetch_arm hf hi] using h.symm⟩)
    | .disarm :: rest => exact .inr (.inr (.inl ⟨rest, rfl, by simpa [step, fetch_disarm hf hi] using h.symm⟩))
    | .event e :: rest =>
      refine .inr (.inr (.inr ?_))
      simp only [step, fetch_event hf hi, takeEvent_st, takeEvent_cap] at h
      cases hd : decode s.st s.cap e with
      | ok i => exact .inl ⟨e, rest, i, rfl, hd, by simpa [hd] using h⟩
      | error r => exact .inr ⟨e, rest, r, rfl, hd, by simpa [hd, takeReserved] using h.symm⟩

end Sys2Proof.Machine
end

