-- ==== Sys2Proof/Laws/Caller.lean ====
section
/-! SUPPORT. The caller and the platform: all one turn can do, turns in order, and what a caller does with an answer. -/

namespace Sys2Proof.Machine

/-! ### One turn (R59, R160) -/

theorem turnStep_silent {u : Turn} {y : Platform} (h : turnLine u y.caller = none) :
    turnStep u y = .next { y with caller := turnCaller u none y.caller } := by
  simp [turnStep, h]

theorem turnStep_line {u : Turn} {y : Platform} {l : Line} {t : State} (h : turnLine u y.caller = some l)
    (ht : step (place (lineInput l) y.block) = .next t) :
    turnStep u y = .next { caller := turnCaller u (answerTo l t) y.caller, block := t } := by
  simp [turnStep, h, ht]

/-- All a turn that answers a platform has done: nothing to the block, or one step of it on the input of one line. -/
theorem turnStep_next {u : Turn} {y z : Platform} (h : turnStep u y = .next z) :
    (turnLine u y.caller = none ∧ z = { y with caller := turnCaller u none y.caller }) ∨
      ∃ l t, turnLine u y.caller = some l ∧ step (place (lineInput l) y.block) = .next t ∧
        z = { caller := turnCaller u (answerTo l t) y.caller, block := t } := by
  cases hl : turnLine u y.caller with
  | none => exact .inl ⟨rfl, by simpa [turnStep_silent hl] using h.symm⟩
  | some l =>
    refine .inr ⟨l, ?_⟩
    cases ht : step (place (lineInput l) y.block) with
    | next t => exact ⟨t, rfl, rfl, by simpa [turnStep_line hl ht] using h.symm⟩
    | fault f => simp [turnStep, hl, ht] at h
    | refused r => simp [turnStep, hl, ht] at h

/-! ### Turns in order -/

@[simp] theorem runTurns_nil (y : Platform) : runTurns [] y = .next y := rfl

theorem runTurns_cons {u : Turn} {us : List Turn} {y z : Platform} (h : turnStep u y = .next z) :
    runTurns (u :: us) y = runTurns us z := by
  simp [runTurns, h]

/-- The turns lead to `z` exactly when the first leads somewhere from where the others lead to `z`. -/
theorem runTurns_cons_next {u : Turn} {us : List Turn} {y z : Platform} :
    runTurns (u :: us) y = .next z ↔ ∃ w, turnStep u y = .next w ∧ runTurns us w = .next z := by
  cases h : turnStep u y <;> simp [runTurns, h]

theorem runTurns_append {us vs : List Turn} {y w : Platform} (h : runTurns us y = .next w) :
    runTurns (us ++ vs) y = runTurns vs w := by
  induction us generalizing y with
  | nil => cases h; rfl
  | cons u us ih =>
    obtain ⟨x, hx, hw⟩ := runTurns_cons_next.mp h
    rw [List.cons_append, runTurns_cons hx, ih hw]

/-! ### The caller (R178) -/

theorem capacityHolds_iff {len : BitVec 32} {v : DataWord} : capacityHolds len (some v) = true ↔ len.toNat ≤ v.toNat := by
  simp [capacityHolds]

theorem timingMargin_iff {t : Timing} {p : Nat} : timingMargin t p = true ↔ t.handler + t.transfer < p := by
  simp [timingMargin]

/-- Where `1e6 / fs` is a whole number, it is the period (R178, R212). -/
theorem armPeriod_whole {fs : Rat} {p : Nat} (hfs : 0 < fs) (hp : (p : Rat) = 1000000 / fs) : armPeriod fs = p := by
  simp [armPeriod, ← hp, hfs]

/-- Each command but the wait either is done after one turn of the caller or ends its program. -/
theorem callerAfter_todo (answer : Option DataWord) (c : Caller) (k : Command) (rest : List Command)
    (h : c.todo = k :: rest) (hk : k ≠ .waitIdle) :
    (callerAfter answer c).todo = rest ∨ ((callerAfter answer c).todo = [] ∧ (callerAfter answer c).rejected = true) := by
  cases k with
  | line l => exact .inl (by simp [callerAfter, h])
  | checkCap len => by_cases hc : capacityHolds len answer = true <;> simp [callerAfter, h, hc, reject]
  | checkMargin t p => by_cases ht : timingMargin t p = true <;> simp [callerAfter, h, ht, reject]
  | waitIdle => exact absurd rfl hk

/-- The wait goes on exactly after the answer 0 (R81). -/
theorem callerAfter_wait (answer : Option DataWord) (c : Caller) (rest : List Command) (h : c.todo = .waitIdle :: rest) :
    (callerAfter answer c).todo = if answer = some 0#64 then rest else c.todo := by
  simp only [callerAfter, h]
  by_cases ha : answer = some 0#64
  · rw [if_pos ha, if_pos ha]
  · rw [if_neg ha, if_neg ha]

end Sys2Proof.Machine
end

