-- ==== Sys2Proof/Laws/Decode.lean ====
section
/-! SUPPORT. The fields of the event word, and the masks of the opcode map, as arithmetic on the word's number
(30_encoding.md R71, R75). -/

namespace Sys2Proof

theorem kindField_toNat (w : EventWord) : (kindField w).toNat = w.toNat / 2 ^ 28 := by
  simp only [kindField, BitVec.extractLsb'_toNat, Nat.shiftRight_eq_div_pow]; omega

theorem zField_toNat (w : EventWord) : (zField w).toNat = w.toNat / 2 ^ 22 % 2 ^ 6 := by
  simp only [zField, BitVec.extractLsb'_toNat, Nat.shiftRight_eq_div_pow]

theorem addrField_toNat (w : EventWord) : (addrField w).toNat = w.toNat % 2 ^ 22 := by
  simp [addrField, BitVec.extractLsb'_toNat]

theorem isBufAddr_iff (a : HostAddr) : isBufAddr a = true ↔ 2 ^ 21 ≤ a.toNat := by
  have := a.isLt
  simp only [isBufAddr, beq_iff_eq, ← BitVec.toNat_inj, BitVec.extractLsb'_toNat, Nat.shiftRight_eq_div_pow,
    BitVec.toNat_ofNat]
  omega

theorem bufIndex_toNat (a : HostAddr) : (bufIndex a).toNat = a.toNat % 2 ^ 21 := by
  simp [bufIndex, BitVec.extractLsb'_toNat]

theorem isChanAddr_iff (a : HostAddr) : isChanAddr a = true ↔ a.toNat / 8 = 1 := by
  have := a.isLt
  simp only [isChanAddr, beq_iff_eq, ← BitVec.toNat_inj, BitVec.extractLsb'_toNat, Nat.shiftRight_eq_div_pow,
    BitVec.toNat_ofNat]
  omega

theorem chanSlot_toNat (a : HostAddr) : (chanSlot a).toNat = a.toNat % 8 := by
  simp [chanSlot, BitVec.extractLsb'_toNat]

/-- A mask that keeps the bits from `k` up rounds the word down to a multiple of `2^k`. -/
theorem and_high_toNat (w : EventWord) (k : Nat) :
    (w &&& BitVec.allOnes 32 <<< k).toNat = w.toNat / 2 ^ k * 2 ^ k := by
  have e : w &&& BitVec.allOnes 32 <<< k = (w >>> k) <<< k := by
    ext i hi
    by_cases h : i < k
    · simp [h]
    · have e : k + (i - k) = i := by omega
      have : i - k < 32 := by omega
      have ones : (4294967295#32)[i - k] = true := BitVec.getElem_allOnes (v := 32) (i - k) this
      simp [h, e, ones, BitVec.getLsbD_eq_getElem hi]
  rw [e, BitVec.toNat_shiftLeft, BitVec.toNat_ushiftRight, Nat.shiftLeft_eq, Nat.shiftRight_eq_div_pow]
  exact Nat.mod_eq_of_lt (lt_of_le_of_lt (Nat.div_mul_le_self _ _) w.isLt)

/-- The mask of a `CHAN` row (R75). -/
theorem and_chanMask_toNat (w : EventWord) : (w &&& 0xFFFFFFF8#32).toNat = w.toNat / 8 * 8 :=
  and_high_toNat w 3

/-- The mask of the `RD.BUF` row (R75). -/
theorem and_bufMask_toNat (w : EventWord) : (w &&& 0xFFE00000#32).toNat = w.toNat / 2 ^ 21 * 2 ^ 21 :=
  and_high_toNat w 21

/-- The mask of every other row (R75). -/
theorem and_wordMask (w : EventWord) : w &&& 0xFFFFFFFF#32 = w := BitVec.and_allOnes

theorem chanWord_toNat (base : Nat) (h : base < 2 ^ 31) (k : Slot) :
    (BitVec.ofNat 32 base + k.setWidth 32).toNat = base + k.toNat := by
  have := k.isLt
  simp [BitVec.toNat_add, BitVec.toNat_setWidth]; omega

theorem bufWord_toNat (i : BufIndex) : (0x20200000#32 + i.setWidth 32).toNat = 0x20200000 + i.toNat := by
  have := i.isLt
  simp [BitVec.toNat_add, BitVec.toNat_setWidth]; omega

end Sys2Proof
end

