-- ==== Sys2Proof/Laws/Operands.lean ====
section
/-! SUPPORT. What the operand forms and the counters' arithmetic compute, as facts about numbers (30_encoding.md R76,
R77; 41_fsm.md R125 to R127). -/

namespace Sys2Proof.Machine

/-! ### Width conversions (R7) -/

theorem zext64_toNat {w : Nat} (hw : w ≤ 64) (v : BitVec w) : (zext64 v).toNat = v.toNat := by
  rw [zext64, BitVec.toNat_setWidth]
  exact Nat.mod_eq_of_lt (lt_of_lt_of_le v.isLt (Nat.pow_le_pow_right (by decide) hw))

theorem sext64_toInt {w : Nat} (hw : w ≤ 64) (v : BitVec w) : (sext64 v).toInt = v.toInt :=
  BitVec.toInt_signExtend_of_le hw

/-! ### Write data (R76) -/

theorem stateDataOk_iff {d : DataWord} : stateDataOk d = true ↔ d.toNat = 1 := by
  simp [stateDataOk, ← BitVec.toNat_inj]

theorem accDataOk_iff {d : DataWord} : accDataOk d = true ↔ d.toNat = 0 := by
  simp [accDataOk, ← BitVec.toNat_inj]

theorem lenDataOk_iff {d : DataWord} : lenDataOk d = true ↔ d.toNat < 2 ^ 32 := by
  have := d.isLt
  simp [lenDataOk, ← BitVec.toNat_inj, BitVec.extractLsb'_toNat, Nat.shiftRight_eq_div_pow]; omega

theorem chanDataOk_iff {d : DataWord} : chanDataOk d = true ↔ d.toNat < 2 ^ 16 := by
  have := d.isLt
  simp [chanDataOk, ← BitVec.toNat_inj, BitVec.extractLsb'_toNat, Nat.shiftRight_eq_div_pow]; omega

theorem lenOfData_toNat (d : DataWord) : (lenOfData d).toNat = d.toNat % 2 ^ 32 := by
  simp [lenOfData, BitVec.extractLsb'_toNat]

theorem codeOfData_toNat (d : DataWord) : (codeOfData d).toNat = d.toNat % 2 ^ 16 := by
  simp [codeOfData, BitVec.extractLsb'_toNat]

/-! ### The channel list -/

@[simp] theorem chanAt_set_same (chan : Vector Code 8) (k : Slot) (c : Code) :
    chanAt (chan.set k.toNat c k.isLt) k = c := by
  simp [chanAt]

@[simp] theorem chanAt_set_other (chan : Vector Code 8) {j k : Slot} (c : Code) (h : j ≠ k) :
    chanAt (chan.set k.toNat c k.isLt) j = chanAt chan j := by
  have : k.toNat ≠ j.toNat := fun e => h (BitVec.eq_of_toNat_eq e.symm)
  simp [chanAt, this]

@[simp] theorem chanAt_replicate (c : Code) (k : Slot) : chanAt (Vector.replicate 8 c) k = c := by
  simp [chanAt]

/-! ### Counters and accumulators -/

@[simp] theorem endOfRun_iff (m : Int) (len : BitVec 32) : endOfRun m len = true ↔ (len.toNat : Int) ≤ m := by
  simp [endOfRun]

@[simp] theorem lenFits_iff (s : State) : lenFits s = true ↔ s.len.toNat ≤ s.cap.toNat := by
  simp [lenFits]

theorem addSample_toNat (sum : DataWord) (v : Sample) : (addSample sum v).toNat = (sum.toNat + v.toNat) % 2 ^ 64 := by
  simp [addSample, trunc]; norm_cast

theorem addSquare_toNat (sumsq : DataWord) (v : Sample) :
    (addSquare sumsq v).toNat = (sumsq.toNat + v.toNat * v.toNat) % 2 ^ 64 := by
  simp [addSquare, trunc]; norm_cast

/-- The counter after a count, where it stays within 32 bits. -/
theorem trunc32_toInt {n : Int} (h : -2 ^ 31 ≤ n) (h' : n < 2 ^ 31) : (trunc 32 n).toInt = n := by
  simp only [trunc, BitVec.toInt_ofInt, Int.bmod_def]; omega

/-! ### The Running tick -/

/-- A Running tick whose counter is below the capacity runs to its end (R123, R128). -/
theorem execTickRun_below {s : State} (h : s.npt.toInt < s.cap.toNat) (rx : Sample) :
    execTickRun rx s = .next (finishIfDone s.npt.toInt (advance s.npt.toInt
      (if 0 ≤ s.npt.toInt then storeSample s.npt.toInt.toNat rx (pipeline rx s).2 else (pipeline rx s).2))) := by
  have : ¬ (0 ≤ s.npt.toInt ∧ (s.cap.toNat : Int) ≤ s.npt.toInt) := by omega
  simp [execTickRun, this, commit]

end Sys2Proof.Machine
end

