-- ==== Sys2Proof/Laws/PerInstr.lean ====
section
/-! SUPPORT. Per operation: its event word lies in its row of the opcode map, and the row's mode column is the
operation's own mode condition (30_encoding.md R74, R75). -/

namespace Sys2Proof.Laws.EventWordRow

/-- The operation's word, masked, is its row's match, and its row's mode is its own. -/
def Statement (i : Instr) : Prop :=
  eventWord i &&& (opcodeRow i).mask = (opcodeRow i).pattern ∧ (opcodeRow i).mode = i.tickMode

theorem tickIdle (rx : Sample) : Statement (.tickIdle rx) := ⟨and_wordMask _, rfl⟩
theorem tickStart (rx : Sample) : Statement (.tickStart rx) := ⟨and_wordMask _, rfl⟩
theorem tickRun (rx : Sample) : Statement (.tickRun rx) := ⟨and_wordMask _, rfl⟩
theorem tickRsvd (rx : Sample) : Statement (.tickRsvd rx) := ⟨and_wordMask _, rfl⟩
theorem rdState : Statement .rdState := ⟨and_wordMask _, rfl⟩
theorem wrState (d : DataWord) : Statement (.wrState d) := ⟨and_wordMask _, rfl⟩
theorem rdLen : Statement .rdLen := ⟨and_wordMask _, rfl⟩
theorem wrLen (d : DataWord) : Statement (.wrLen d) := ⟨and_wordMask _, rfl⟩
theorem rdCount : Statement .rdCount := ⟨and_wordMask _, rfl⟩
theorem rdNpt : Statement .rdNpt := ⟨and_wordMask _, rfl⟩
theorem rdCidx : Statement .rdCidx := ⟨and_wordMask _, rfl⟩
theorem rdCap : Statement .rdCap := ⟨and_wordMask _, rfl⟩

theorem rdChan (k : Slot) : Statement (.rdChan k) := by
  refine ⟨BitVec.eq_of_toNat_eq ?_, rfl⟩
  have := k.isLt
  rw [show (opcodeRow (.rdChan k)).mask = 0xFFFFFFF8#32 from rfl, and_chanMask_toNat, eventWord,
    chanWord_toNat _ (by decide)]
  simp only [opcodeRow, chanRow, BitVec.toNat_ofNat]; omega

theorem wrChan (k : Slot) (d : DataWord) : Statement (.wrChan k d) := by
  refine ⟨BitVec.eq_of_toNat_eq ?_, rfl⟩
  have := k.isLt
  rw [show (opcodeRow (.wrChan k d)).mask = 0xFFFFFFF8#32 from rfl, and_chanMask_toNat, eventWord,
    chanWord_toNat _ (by decide)]
  simp only [opcodeRow, chanRow, BitVec.toNat_ofNat]; omega

theorem rdSum : Statement .rdSum := ⟨and_wordMask _, rfl⟩
theorem wrSum (d : DataWord) : Statement (.wrSum d) := ⟨and_wordMask _, rfl⟩
theorem rdSumsq : Statement .rdSumsq := ⟨and_wordMask _, rfl⟩
theorem wrSumsq (d : DataWord) : Statement (.wrSumsq d) := ⟨and_wordMask _, rfl⟩

theorem rdBuf (i : BufIndex) : Statement (.rdBuf i) := by
  refine ⟨BitVec.eq_of_toNat_eq ?_, rfl⟩
  have := i.isLt
  rw [show (opcodeRow (.rdBuf i)).mask = 0xFFE00000#32 from rfl, and_bufMask_toNat, eventWord, bufWord_toNat]
  simp only [opcodeRow, BitVec.toNat_ofNat]; omega

theorem reset : Statement .reset := ⟨and_wordMask _, rfl⟩

end Sys2Proof.Laws.EventWordRow
end

