-- ==== Sys2Proof/Tests/Slice0.lean ====
section
/-! SUPPORT. Tests: ill-formed operations refused, words decoded that are written out from R71 and R75, the vectors of
95_test_vectors.md (their names stand in the theorems' comments; the expected values are the file's), and for every
statement with hypotheses a named witness that meets them. -/

namespace Sys2Proof.Tests

open Sys2Proof Sys2Proof.Machine

/-! ### Helpers -/

/-- The state an outcome leads to, if it is a next state. -/
def stateAfter : Host.Outcome State Fault Refusal → Option State
  | .next t => some t
  | .fault _ => none
  | .refused _ => none

/-- The state after one step that takes the event `e`, alone on the input list. -/
def afterEvent (s : State) (e : RawEvent) : Option State := stateAfter (step { s with inputs := [.event e] })

/-- The state after one step that takes the line `l`. -/
def afterLine (s : State) (l : Line) : Option State := stateAfter (step { s with inputs := [lineInput l] })

/-- A host access by its bare word: no payload. -/
def word (w : EventWord) : RawEvent := { ev := w, rx := 0#16, d := 0#64 }

/-- A write of `d` by its event word. -/
def writeOf (w : EventWord) (d : DataWord) : RawEvent := { ev := w, rx := 0#16, d := d }

/-- A channel list of two codes, `[X, Y]` of the vectors. -/
def listXY : Vector Code 8 := #v[0xC000#16, 0xC400#16, 0#16, 0#16, 0#16, 0#16, 0#16, 0#16]

/-- A channel list of eight codes. -/
def listFull : Vector Code 8 := #v[1#16, 2#16, 3#16, 4#16, 5#16, 6#16, 7#16, 8#16]

/-- Idle with the list `[X, Y]` and a length. -/
def idleXY (len : BitVec 32) : State := { State.reset with chan := listXY, len := len }

/-- Seeded: Starting with the list `[X, Y]` and a length. -/
def startXY (len : BitVec 32) : State := { idleXY len with st := stStarting }

/-- Running with the list `[X, Y]`, a length, a counter and an index, one tick on the bus. -/
def runXY (len npt : BitVec 32) (cidx : Slot) : State :=
  { idleXY len with
    st := stRunning, npt := npt, cidx := cidx, cs := .asserted, lastTx := some 0xC000#16
    busLog := [.exchange 0xC000#16] }

/-- A run of one sample over `[X, Y]`: Starting, and what is still to come. -/
def seeded (inputs : List Input) : State := { startXY 1#32 with inputs := inputs }

/-- The times of a platform that samples once a millisecond: half a microsecond and three. -/
def quickTiming : Timing := ⟨1 / 2, 3⟩

/-- The platform of a call for `len` samples over `[X, Y]`. -/
def acquiring (len : BitVec 32) : Platform :=
  { caller := callerOf (runAcquisition len 1000 quickTiming), block := idleXY 0#32 }

/-- The turns of such a call: seven of the caller, the run's ticks, with the words 1, 2, ..., a poll, the disarming. -/
def acquiringTurns (len : BitVec 32) : List Turn :=
  List.replicate 7 .caller ++ (List.range (len.toNat + 3)).map (fun j => .tick (BitVec.ofNat 16 (j + 1))) ++
    List.replicate 2 .caller

/-- The same turns, and after them the caller's alone. -/
def acquiringSchedule (len : BitVec 32) (n : Nat) : Turn := (acquiringTurns len).getD n .caller

/-- Where a call for no samples leads: the caller has read `CAP` and, once, Idle. -/
def acquiredNone : Platform where
  caller := { todo := [], rejected := false, seen := [32768#64, 0#64] }
  block :=
    { idleXY 0#32 with
      cs := .asserted, lastTx := some 0xC400#16, result := some 0#64
      busLog := [.exchange 0xC000#16, .exchange 0xC000#16, .exchange 0xC400#16] }

/-- Where a call for one sample leads: besides, one entry is stored and counted, and the index is on its way (R131). -/
def acquiredOne : Platform where
  caller := { todo := [], rejected := false, seen := [32768#64, 0#64] }
  block :=
    { idleXY 1#32 with
      npt := 1#32, cidx := 1#3, sum := 4#64, sumsq := 16#64, buf := [(0, 4#16)]
      cs := .asserted, lastTx := some 0xC000#16, result := some 0#64
      busLog := [.exchange 0xC000#16, .exchange 0xC000#16, .exchange 0xC400#16, .exchange 0xC000#16] }

/-- The turns lead to `z`, as a Bool. -/
def leadsTo (us : List Turn) (y z : Platform) : Bool :=
  match runTurns us y with
  | .next w => decide (w = z)
  | .fault _ => false
  | .refused _ => false

theorem leadsTo_run {us : List Turn} {y z : Platform} (h : leadsTo us y z = true) : runTurns us y = .next z := by
  unfold leadsTo at h
  split at h <;> simp_all

/-! ### Well-formedness: each check refuses a term -/

/-- R74: a `TICK` row stands for the tick in its own mode alone. -/
theorem test_wellFormed_mode :
    (Instr.tickRun 0#16).wellFormed stIdle 32768#32 = false ∧ (Instr.tickRun 0#16).wellFormed stRunning 32768#32 = true ∧
    (Instr.tickIdle 0#16).wellFormed stReserved 32768#32 = false ∧ (Instr.tickRsvd 0#16).wellFormed 0b11#2 32768#32 = true ∧
    (Instr.tickStart 0#16).wellFormed stRunning 32768#32 = false := by decide

/-- R75: the index of `RD.BUF` lies below `CAP`. -/
theorem test_wellFormed_index :
    (Instr.rdBuf 32768#21).wellFormed stIdle 32768#32 = false ∧ (Instr.rdBuf 32767#21).wellFormed stIdle 32768#32 = true ∧
    (Instr.rdBuf 0x1FFFFF#21).wellFormed stIdle 0x200000#32 = true := by decide

/-! ### Decoding: one word a row, its fields K, Z and A written out (R71, R75) -/

/-- The four rows of the one `TICK` word. V-DEC-1 and V-DEC-2 are the first and the third. -/
theorem test_decode_ticks :
    decode 0b00#2 32768#32 ⟨0b0001#4 ++ 0b000000#6 ++ 0b0000000000000000000000#22, 0x1234#16, 9#64⟩ = .ok (.tickIdle 0x1234#16) ∧
    decode 0b01#2 32768#32 ⟨0b0001#4 ++ 0b000000#6 ++ 0b0000000000000000000000#22, 0x1234#16, 9#64⟩ = .ok (.tickStart 0x1234#16) ∧
    decode 0b10#2 32768#32 ⟨0b0001#4 ++ 0b000000#6 ++ 0b0000000000000000000000#22, 0x1234#16, 9#64⟩ = .ok (.tickRun 0x1234#16) ∧
    decode 0b11#2 32768#32 ⟨0b0001#4 ++ 0b000000#6 ++ 0b0000000000000000000000#22, 0x1234#16, 9#64⟩ = .ok (.tickRsvd 0x1234#16) := by
  decide

/-- The reads of the plain registers. -/
theorem test_decode_register_reads :
    decode stIdle 32768#32 (word (0b0010#4 ++ 0b000000#6 ++ 0b0000000000000000000000#22)) = .ok .rdState ∧
    decode stIdle 32768#32 (word (0b0010#4 ++ 0b000000#6 ++ 0b0000000000000000000001#22)) = .ok .rdLen ∧
    decode stIdle 32768#32 (word (0b0010#4 ++ 0b000000#6 ++ 0b0000000000000000000010#22)) = .ok .rdCount ∧
    decode stIdle 32768#32 (word (0b0010#4 ++ 0b000000#6 ++ 0b0000000000000000000011#22)) = .ok .rdNpt ∧
    decode stIdle 32768#32 (word (0b0010#4 ++ 0b000000#6 ++ 0b0000000000000000000100#22)) = .ok .rdCidx ∧
    decode stIdle 32768#32 (word (0b0010#4 ++ 0b000000#6 ++ 0b0000000000000000000101#22)) = .ok .rdCap ∧
    decode stIdle 32768#32 (word (0b0010#4 ++ 0b000000#6 ++ 0b0000000000000000010000#22)) = .ok .rdSum ∧
    decode stIdle 32768#32 (word (0b0010#4 ++ 0b000000#6 ++ 0b0000000000000000010001#22)) = .ok .rdSumsq := by decide

/-- The rows with a slot or an index. V-DEC-3, V-DEC-4 and V-DEC-5 are among them. -/
theorem test_decode_indexed_rows :
    decode stIdle 32768#32 (word (0b0010#4 ++ 0b000000#6 ++ 0b0000000000000000001111#22)) = .ok (.rdChan 7#3) ∧
    decode stIdle 32768#32 (writeOf (0b0011#4 ++ 0b000000#6 ++ 0b0000000000000000001000#22) 5#64) = .ok (.wrChan 0#3 5#64) ∧
    decode stIdle 32768#32 (writeOf (0b0011#4 ++ 0b000000#6 ++ 0b0000000000000000001011#22) 5#64) = .ok (.wrChan 3#3 5#64) ∧
    decode stIdle 32768#32 (word (0b0010#4 ++ 0b000000#6 ++ 0b1000000111111111111111#22)) = .ok (.rdBuf 32767#21) := by
  decide

/-- The writes of the plain registers, and the reset. -/
theorem test_decode_writes_and_reset :
    decode stRunning 32768#32 (writeOf (0b0011#4 ++ 0b000000#6 ++ 0b0000000000000000000000#22) 1#64) = .ok (.wrState 1#64) ∧
    decode stIdle 32768#32 (writeOf (0b0011#4 ++ 0b000000#6 ++ 0b0000000000000000000001#22) 4#64) = .ok (.wrLen 4#64) ∧
    decode stIdle 32768#32 (writeOf (0b0011#4 ++ 0b000000#6 ++ 0b0000000000000000010000#22) 0#64) = .ok (.wrSum 0#64) ∧
    decode stIdle 32768#32 (writeOf (0b0011#4 ++ 0b000000#6 ++ 0b0000000000000000010001#22) 0#64) = .ok (.wrSumsq 0#64) ∧
    decode stIdle 32768#32 (word (0b0100#4 ++ 0b000000#6 ++ 0b0000000000000000000000#22)) = .ok .reset := by decide

/-- V-DEC-6 to V-DEC-17, each rejected by the name of its case in R78. -/
theorem test_decode_rejects :
    decode stIdle 32768#32 (word 0x20208000#32) = .error .indexBeyondCap ∧
    decode stIdle 32768#32 (word 0x00000000#32) = .error .reservedKind ∧
    decode stIdle 32768#32 (word 0x50000000#32) = .error .reservedKind ∧
    decode stIdle 32768#32 (word 0x10000001#32) = .error .addressNotZero ∧
    decode stIdle 32768#32 (word 0x40000010#32) = .error .addressNotZero ∧
    decode stIdle 32768#32 (word 0x10400000#32) = .error .zFieldNotZero ∧
    decode stIdle 32768#32 (word 0x20000006#32) = .error .reservedAddress ∧
    decode stIdle 32768#32 (word 0x20000012#32) = .error .reservedAddress ∧
    decode stIdle 32768#32 (word 0x30000002#32) = .error .readOnlyAddress ∧
    decode stRunning 32768#32 (word 0x30000003#32) = .error .readOnlyAddress ∧
    decode stIdle 32768#32 (word 0x30200000#32) = .error .readOnlyAddress ∧
    decode stIdle 32768#32 (word 0x20000100#32) = .error .reservedAddress := by decide

/-- R201's numbering of the faults. -/
theorem test_fault_codes :
    (FaultRecord.reservedEvent 0#32).code = 1 ∧ (FaultRecord.reservedState 3#2).code = 2 ∧
    (FaultRecord.writeDuringRun 0#32 2#2).code = 3 ∧ (FaultRecord.illegalWriteValue 0#32 0#64).code = 4 ∧
    (FaultRecord.lenExceedsCap 0#32).code = 5 ∧ (FaultRecord.bufferOverrun 0#32).code = 6 ∧
    (FaultRecord.unwrittenRead 0#21).code = 7 := by decide

/-- The host's two questions: the table's word is decoded, and is what the next step runs. -/
theorem test_table_word :
    decodeTableWord 32 0x2000000F = some (.rdChan 7#3) ∧ decodeTableWord 32 0x20000006 = none ∧
    (stateAfter (step (State.reset.withFetchWord 32 0x20000005))).bind State.result = some 32768#64 := by decide

/-! ### Ticks (sections 2.2 to 2.6) -/

/-- V-PIPE-2: an Idle tick sends the code at the index and leaves the index. -/
theorem test_pipe_2 :
    (afterLine { idleXY 0#32 with cidx := 1#3 } (.tick 0x1234#16)).map (fun t => (t.lastTx, t.cidx, t.busLog, t.cs)) =
      some (some 0xC400#16, 1#3, [.exchange 0xC400#16], .asserted) := by decide

/-- V-PIPE-3: an empty list sends the terminator as a code. -/
theorem test_pipe_3 : (afterLine State.reset (.tick 0#16)).map (fun t => (t.lastTx, t.st)) = some (some 0#16, stIdle) := by
  decide

/-- V-START-1. -/
theorem test_start_1 :
    (afterLine (startXY 4#32) (.tick 0xAAAA#16)).map (fun t => (t.st, t.npt.toInt, t.cidx)) = some (stRunning, -2, 0#3) ∧
    (afterLine (startXY 4#32) (.tick 0xAAAA#16)).map (fun t => (t.lastTx, t.buf)) = some (some 0xC000#16, []) := by decide

/-- V-START-4: the Starting tick does not clear the accumulators. -/
theorem test_start_4 :
    (afterLine { startXY 4#32 with sum := 7#64, sumsq := 49#64 } (.tick 1#16)).map (fun t => (t.sum, t.sumsq)) =
      some (7#64, 49#64) := by decide

/-- V-RUN-3: the last store, and the end of the run on the same tick. -/
theorem test_run_3 :
    (afterLine (runXY 4#32 3#32 1#3) (.tick 400#16)).map (fun t => (t.st, t.npt.toInt, t.cidx)) = some (stIdle, 4, 0#3) ∧
    (afterLine (runXY 4#32 3#32 1#3) (.tick 400#16)).map (fun t => (t.lastTx, t.buf)) =
      some (some 0xC400#16, [(3, 400#16)]) := by decide

/-- V-RUN-4 and V-RUN-13: the largest square, and the sum's wrap. -/
theorem test_run_4_and_13 :
    (afterLine (runXY 3#32 0#32 0#3) (.tick 0xFFFF#16)).map (fun t => (t.sum, t.sumsq)) = some (65535#64, 0xFFFE0001#64) ∧
    (afterLine { runXY 2#32 0#32 0#3 with sum := 0xFFFFFFFFFFFFFFFF#64 } (.tick 1#16)).map State.sum = some 0#64 := by
  decide

/-- V-RUN-6 and V-RUN-7: a run of length 0 ends without a store; the index wraps past the eighth slot. -/
theorem test_run_6_and_7 :
    (afterLine (runXY 0#32 (-1#32) 1#3) (.tick 5#16)).map (fun t => (t.st, t.npt, t.buf)) = some (stIdle, 0#32, []) ∧
    (afterLine { runXY 4#32 1#32 7#3 with chan := listFull } (.tick 5#16)).map (fun t => (t.lastTx, t.cidx)) =
      some (some 8#16, 0#3) := by decide

/-- V-RUN-12: the overrun check comes before any effect. -/
theorem test_run_12 :
    (afterLine (runXY 40000#32 32768#32 0#3) (.tick 5#16)).map (fun t => (t.faultRec, t.busLog)) =
      some (some (.bufferOverrun 32768#32), [.exchange 0xC000#16]) := by decide

/-- V-RSVD-1. -/
theorem test_rsvd_1 :
    (afterLine { State.reset with st := 0b11#2 } (.tick 5#16)).map (fun t => (t.faultRec, t.busLog, t.lastTx)) =
      some (some (.reservedState 0b11#2), [], none) := by decide

/-! ### Host accesses and reset (sections 2.7 to 2.9) -/

/-- V-RD-2, V-RD-4, V-RD-8 and V-RD-9. -/
theorem test_rd_registers :
    (afterLine (startXY 4#32) (.rd .state)).bind State.result = some 1#64 ∧
    (afterLine (startXY 4#32) (.rd .len)).bind State.result = some 4#64 ∧
    (afterLine State.reset (.rd .cidx)).bind State.result = some 0#64 ∧
    (afterLine State.reset (.rd .cap)).bind State.result = some 0x8000#64 := by decide

/-- V-RD-5 and V-RD-6: `COUNT` clamps at 0, `NPT` sign-extends. -/
theorem test_rd_5_and_6 :
    (afterLine (runXY 4#32 (-1#32) 0#3) (.rd .count)).bind State.result = some 0#64 ∧
    (afterLine (runXY 4#32 (-2#32) 0#3) (.rd .npt)).bind State.result = some 0xFFFFFFFFFFFFFFFE#64 := by decide

/-- V-RD-11, V-RD-12. -/
theorem test_rd_11_and_12 :
    (afterLine (idleXY 4#32) (.rd (.chan 1#3))).bind State.result = some 0xC400#64 ∧
    (afterLine { State.reset with sum := 10#64 } (.rd .sum)).bind State.result = some 10#64 ∧
    (afterLine { State.reset with sumsq := 30#64 } (.rd .sumsq)).bind State.result = some 30#64 := by decide

/-- V-RD-13 and V-RD-14. -/
theorem test_rd_13_and_14 :
    (afterLine State.reset (.rd (.buf 0#21))).map State.faultRec = some (some (.unwrittenRead 0#21)) ∧
    (afterLine { State.reset with buf := [(0, 100#16), (3, 400#16)] } (.rd (.buf 3#21))).bind State.result = some 0x190#64 := by
  decide

/-- V-WR-2, V-WR-3, V-WR-6 and V-WR-8: the start and the order of its checks. -/
theorem test_wr_state :
    (afterLine (idleXY 32768#32) (.wr .state 1#64)).map (fun t => (t.st, t.faultRec)) = some (stStarting, none) ∧
    (afterLine (idleXY 32769#32) (.wr .state 1#64)).map (fun t => (t.st, t.faultRec)) =
      some (stIdle, some (.lenExceedsCap 32769#32)) ∧
    (afterLine (idleXY 32769#32) (.wr .state 2#64)).map State.faultRec = some (some (.illegalWriteValue 0x30000000#32 2#64)) ∧
    (afterLine (runXY 32769#32 0#32 0#3) (.wr .state 1#64)).map State.faultRec =
      some (some (.writeDuringRun 0x30000000#32 stRunning)) := by decide

/-- V-WR-9, V-WR-10 and V-WR-11. -/
theorem test_wr_len :
    (afterLine State.reset (.wr .len 0xFFFFFFFF#64)).map State.len = some 0xFFFFFFFF#32 ∧
    (afterLine State.reset (.wr .len 0x100000000#64)).map State.faultRec =
      some (some (.illegalWriteValue 0x30000001#32 0x100000000#64)) ∧
    (afterLine (runXY 1#32 0#32 0#3) (.wr .len 0x100000000#64)).map State.faultRec =
      some (some (.writeDuringRun 0x30000001#32 stRunning)) := by decide

/-- V-WR-12 and V-WR-13. -/
theorem test_wr_chan :
    (afterLine State.reset (.wr (.chan 3#3) 0xFFFF#64)).map (fun t => (chanAt t.chan 3#3, chanAt t.chan 2#3)) =
      some (0xFFFF#16, 0#16) ∧
    (afterLine State.reset (.wr (.chan 3#3) 0x10000#64)).map State.faultRec =
      some (some (.illegalWriteValue 0x3000000B#32 0x10000#64)) := by decide

/-- V-WR-15 to V-WR-18. -/
theorem test_wr_accumulators :
    (afterLine { State.reset with sum := 1000#64 } (.wr .sum 0#64)).map State.sum = some 0#64 ∧
    (afterLine State.reset (.wr .sum 1#64)).map State.faultRec = some (some (.illegalWriteValue 0x30000010#32 1#64)) ∧
    (afterLine { State.reset with sumsq := 300000#64 } (.wr .sumsq 0#64)).map State.sumsq = some 0#64 ∧
    (afterLine State.reset (.wr .sumsq 0x8000000000000000#64)).map State.faultRec =
      some (some (.illegalWriteValue 0x30000011#32 0x8000000000000000#64)) := by decide

/-- V-RST-1: a reset in a run installs the power-up values and keeps the history. -/
theorem test_rst_1 :
    afterLine { runXY 5#32 2#32 0#3 with buf := [(0, 10#16), (1, 11#16)], sum := 21#64, sumsq := 221#64, trigger := .armed 100 }
        .reset = some { State.reset with busLog := [.exchange 0xC000#16, .reset] } := by decide

/-- V-RST-3: a fault is final. -/
theorem test_rst_3 :
    step { State.reset with faultRec := some (.writeDuringRun 0x30000001#32 stRunning), inputs := [lineInput .reset] } =
      .fault (.halted (.writeDuringRun 0x30000001#32 stRunning)) := rfl

/-! ### The text form (R80; the lines and words of section 3) -/

theorem test_read_tick : readLine "tick rx=0xAAAA         ; EV 0x10000000".toList = some (some (.tick 0xAAAA#16)) := by decide

theorem test_read_write :
    readLine "wr CHAN[1], 0xC400     ; EV 0x30000009".toList = some (some (.wr (.chan 1#3) 0xC400#64)) ∧
    lineInput (.wr (.chan 1#3) 0xC400#64) = .event (writeOf 0x30000009#32 0xC400#64) := by decide

theorem test_read_read :
    readLine "rd BUF[3]".toList = some (some (.rd (.buf 3#21))) ∧
    lineInput (.rd (.buf 3#21)) = .event (word 0x20200003#32) := by decide

theorem test_read_others :
    readLine "reset".toList = some (some .reset) ∧ readLine "arm 1000".toList = some (some (.arm 1000)) ∧
    readLine "disarm".toList = some (some .disarm) ∧ readLine "; configure".toList = some none ∧
    readLine "rd ST".toList = none ∧ readLine "wr CHAN[8], 0".toList = none := by decide

/-- `configure` of two codes writes the terminator, of eight none (R177, P1, P4). -/
theorem test_configure :
    configure [0xC000#16, 0xC400#16] = [.wr (.chan 0#3) 0xC000#64, .wr (.chan 1#3) 0xC400#64, .wr (.chan 2#3) 0#64] ∧
    (configure listFull.toList).length = 8 := by decide

/-- P5a: the caller reads `CAP` and then rejects: nothing is armed, nothing else happens. -/
theorem test_caller_rejects :
    runTurns [.caller, .caller] (acquiring 32769#32) =
      .next { caller := { todo := [], rejected := true, seen := [32768#64] }
              block := { idleXY 0#32 with result := some 32768#64 } } := rfl

/-- R178, R212: the period is `1e6 / fs` microseconds, for a rate below one a second and for one that is not whole too. -/
theorem test_armPeriod : armPeriod 1000 = 1000 ∧ armPeriod (1 / 2) = 2000000 ∧ armPeriod (2500 / 3) = 1200 := by
  decide +kernel

/-- R178: the wait goes on while `STATE` reads 1 or 2, and is left at 0. -/
theorem test_wait_idle :
    (callerAfter (some 1#64) (callerOf (waitIdle ++ [.line .disarm]))).todo = [.waitIdle, .line .disarm] ∧
    (callerAfter (some 2#64) (callerOf (waitIdle ++ [.line .disarm]))).todo = [.waitIdle, .line .disarm] ∧
    (callerAfter (some 0#64) (callerOf (waitIdle ++ [.line .disarm]))).todo = [.line .disarm] := by decide

/-! ### Witnesses: every statement's hypotheses are met -/

/-- StepRunsDecodedEvent, EventsUsePorts, FirstApplicableFaultRecorded: an event that decodes. -/
theorem test_witness_step :
    ∃ (s : State) (e : RawEvent) (rest : List Input) (i : Instr),
      s.faultRec = none ∧ s.inputs = .event e :: rest ∧ decode s.st s.cap e = .ok i ∧ firstFault s e = none :=
  ⟨{ State.reset with inputs := [.event (word 0x20000001#32)] }, word 0x20000001#32, [], .rdLen, by decide⟩

/-- ReservedWordsFault: each clause of the listed words at its boundary. -/
theorem test_witness_reserved :
    ReservedWord 32768#32 0x0FFFFFFF#32 ∧ ReservedWord 32768#32 0x50000000#32 ∧ ReservedWord 32768#32 0x10400000#32 ∧
    ReservedWord 32768#32 0x10000001#32 ∧ ReservedWord 32768#32 0x40000001#32 ∧ ReservedWord 32768#32 0x20000006#32 ∧
    ReservedWord 32768#32 0x20000007#32 ∧ ReservedWord 32768#32 0x20000012#32 ∧ ReservedWord 32768#32 0x201FFFFF#32 ∧
    ReservedWord 32768#32 0x20208000#32 ∧ ReservedWord 32768#32 0x30000002#32 ∧ ReservedWord 32768#32 0x30000007#32 ∧
    ReservedWord 32768#32 0x30000012#32 ∧ ReservedWord 32768#32 0x303FFFFF#32 := by
  refine ⟨?_, ?_, ?_, ?_, ?_, ?_, ?_, ?_, ?_, ?_, ?_, ?_, ?_, ?_⟩ <;> decide

/-- ReservedWordsFault: words next to those boundaries that are not reserved. -/
theorem test_witness_not_reserved :
    ¬ ReservedWord 32768#32 0x10000000#32 ∧ ¬ ReservedWord 32768#32 0x20000005#32 ∧ ¬ ReservedWord 32768#32 0x20000008#32 ∧
    ¬ ReservedWord 32768#32 0x20000011#32 ∧ ¬ ReservedWord 32768#32 0x20207FFF#32 ∧ ¬ ReservedWord 32768#32 0x30000001#32 ∧
    ¬ ReservedWord 32768#32 0x30000008#32 ∧ ¬ ReservedWord 32768#32 0x30000011#32 ∧ ¬ ReservedWord 32768#32 0x40000000#32 := by
  refine ⟨?_, ?_, ?_, ?_, ?_, ?_, ?_, ?_, ?_⟩ <;> decide

/-- FirstApplicableFaultRecorded: each of the seven faults is the first that applies somewhere. -/
theorem test_witness_firstFault :
    firstFault State.reset (word 0#32) = some (.reservedEvent 0#32) ∧
    firstFault { State.reset with st := 3#2 } (word 0x10000000#32) = some (.reservedState 3#2) ∧
    firstFault (runXY 1#32 32768#32 0#3) (word 0x10000000#32) = some (.bufferOverrun 32768#32) ∧
    firstFault State.reset (word 0x20200000#32) = some (.unwrittenRead 0#21) ∧
    firstFault (startXY 1#32) (word 0x30000000#32) = some (.writeDuringRun 0x30000000#32 stStarting) ∧
    firstFault (idleXY 32769#32) (word 0x30000000#32) = some (.illegalWriteValue 0x30000000#32 0#64) ∧
    firstFault (idleXY 32769#32) (writeOf 0x30000000#32 1#64) = some (.lenExceedsCap 32769#32) := by decide

/-- FaultIsFinal. -/
theorem test_witness_halted : ∃ (s : State) (r : FaultRecord), s.faultRec = some r :=
  ⟨{ State.reset with faultRec := some (.lenExceedsCap 32769#32) }, _, rfl⟩

/-- FaultChangesOnlyFault: an operation that records a fault. -/
theorem test_witness_fault :
    ∃ (i : Instr) (s t : State), exec i s = .next t ∧ t.faultRec ≠ s.faultRec :=
  ⟨.wrState 2#64, State.reset, withFault (.illegalWriteValue 0x30000000#32 2#64) State.reset, rfl, by decide⟩

/-- QuietBlockHoldsState, PlatformActionsSetTrigger. -/
theorem test_witness_platform :
    State.reset.faultRec = none ∧ State.reset.inputs = [] ∧
    (∃ (s : State) (rest : List Input) (p : Nat), s.faultRec = none ∧ s.inputs = .arm p :: rest) ∧
    ∃ (s : State) (rest : List Input), s.faultRec = none ∧ s.inputs = .disarm :: rest :=
  ⟨rfl, rfl, ⟨{ State.reset with inputs := [.arm 100] }, [], 100, rfl, rfl⟩,
    { State.reset with inputs := [.disarm] }, [], rfl, rfl⟩

/-- TriggerContractKept: arm, tick, disarm; a tick while disarmed breaks the contract. -/
theorem test_witness_triggerContract :
    (∃ s t : State, triggerContract s.trigger s.inputs = true ∧ step s = .next t) ∧
    triggerContract .disarmed [.arm 100, tickInput 5#16, .disarm] = true ∧
    triggerContract .disarmed [.arm 100, .disarm, tickInput 5#16] = false ∧
    triggerContract .disarmed [.arm 100, lineInput .reset, tickInput 5#16] = false :=
  ⟨⟨{ State.reset with inputs := [.arm 100, tickInput 5#16] }, _, by decide, rfl⟩, by decide, by decide, by decide⟩

/-- DecodeEncodeRoundTrip: well-formed operations at the bounds of their operands. -/
theorem test_witness_wellFormed :
    (Instr.rdBuf 32767#21).wellFormed stIdle 32768#32 = true ∧ (Instr.wrChan 7#3 0xFFFFFFFFFFFFFFFF#64).wellFormed stRunning 1#32 = true ∧
    (Instr.tickStart 0xFFFF#16).wellFormed stStarting 1#32 = true := by decide

/-- DecodedEventIsItsEncoding, LegalWordSelectsOneRow, TickModeSelectsRow: an event that decodes although an unused lane
is set, one that selects no row, and a word that is not the tick's. -/
theorem test_witness_decoded :
    decode stIdle 32768#32 ⟨0x30000001#32, 0xFFFF#16, 4#64⟩ = .ok (.wrLen 4#64) ∧
    (∀ r ∈ opcodeTable, r.selects stIdle 32768#32 0x20208000#32 = false) ∧ (0x30000001#32 : EventWord) ≠ 0x10000000#32 := by
  decide

/-- RunTickEffect, DiscardedCapturesLeaveNoTrace: the counter at `CAP`, just below it, at 0 and at -1. -/
theorem test_witness_runTick :
    ((runXY 4#32 32768#32 0#3).cap.toNat : Int) ≤ (runXY 4#32 32768#32 0#3).npt.toInt ∧
    (runXY 4#32 32767#32 0#3).npt.toInt < (runXY 4#32 32767#32 0#3).cap.toNat ∧
    0 ≤ (runXY 4#32 0#32 0#3).npt.toInt ∧ (runXY 4#32 (-1#32) 0#3).npt.toInt < 0 := by decide

/-- NextIndexRule: the eighth slot; a next slot that holds the terminator, and one that does not. -/
theorem test_witness_nextIndex :
    (7#3 : Slot).toNat + 1 = 8 ∧ (2#3 : Slot).toNat = (1#3 : Slot).toNat + 1 ∧ chanAt listXY 2#3 = 0x0000#16 ∧
    (1#3 : Slot).toNat = (0#3 : Slot).toNat + 1 ∧ chanAt listXY 1#3 ≠ 0x0000#16 := by decide

/-- IndexCyclesThroughList and the run statements: lists of two and of eight codes. -/
theorem test_witness_list : ListHolds listXY 2 ∧ ListHolds listFull 8 := by
  unfold ListHolds; decide

/-- The invariant holds of a seeded block, whatever is still to come. -/
theorem test_witness_seeded (inputs : List Input) : BlockInv (seeded inputs) where
  bufCanonical := List.Pairwise.nil
  bufBelowCap := by intro c h; cases h
  capInRange := by show 1 ≤ (32768#32).toNat ∧ (32768#32).toNat ≤ Config.maxCap; decide
  stateLegal := by show stStarting ≠ stReserved; decide
  lenFitsInRun := fun _ => by show (1#32).toNat ≤ (32768#32).toNat; decide
  countInRun := fun h => absurd (show stStarting = stRunning from h) (by decide)
  countOutsideRun := fun _ => by show 0 ≤ (0#32).toInt ∧ (0#32).toInt ≤ ((32768#32).toNat : Int); decide
  indexInRun := fun h => absurd (show stStarting = stRunning from h) (by decide)
  countWritten := fun i h => absurd (show (i : Int) < 0 from h) (by omega)
  csAfterTick := by show CsLevel.deasserted = .asserted ↔ (none : Option Code).isSome; decide
  lastTxLogged := rfl
  noReservedState := fun _ h => by cases h
  noOverrun := fun _ h => by cases h

/-- The invariant holds of a Running block with a sample to store. -/
theorem test_witness_running : BlockInv (runXY 1#32 0#32 0#3) where
  bufCanonical := List.Pairwise.nil
  bufBelowCap := by intro c h; cases h
  capInRange := by decide
  stateLegal := by decide
  lenFitsInRun := by decide
  countInRun := by decide
  countOutsideRun := by decide
  indexInRun := fun _ => by decide
  countWritten := fun i h => absurd (show (i : Int) < 0 from h) (by omega)
  csAfterTick := by decide
  lastTxLogged := rfl
  noReservedState := fun _ h => by cases h
  noOverrun := fun _ h => by cases h

/-- AccumulatorsStayExact, RunningTickNeverOverruns: both clauses' hypotheses, with a tick that answers a next state. -/
theorem test_witness_accumulators :
    (∃ (s t : State), AccumulatorsClear s ∧ exec (.tickStart 9#16) s = .next t) ∧
    ∃ (s t : State), BlockInv s ∧ s.st = stRunning ∧ AccumulatorsExact s ∧ exec (.tickRun 9#16) s = .next t :=
  ⟨⟨startXY 1#32, _, ⟨rfl, rfl⟩, rfl⟩, runXY 1#32 0#32 0#3, _, test_witness_running, rfl, ⟨rfl, rfl⟩, rfl⟩

/-- BufferReadReturnsEntry, BufferReadChecksIndexAgain: a written entry, an unwritten one below `CAP`, and an index at `CAP`. -/
theorem test_witness_bufferRead :
    memRead [(0, 7#16)] 0 = some 7#16 ∧ (32767#21 : BufIndex).toNat < State.reset.cap.toNat ∧
    memRead State.reset.buf 32767 = none ∧ State.reset.cap.toNat ≤ (32768#21 : BufIndex).toNat := by decide

/-- WriteGuardFaults and the write statements: a state that is not Idle, and each bound of the data on both sides. -/
theorem test_witness_writes :
    (startXY 1#32).st ≠ stIdle ∧ State.reset.st = stIdle ∧ (1#64 : DataWord).toNat = 1 ∧ (0#64 : DataWord).toNat ≠ 1 ∧
    (idleXY 32768#32).len.toNat ≤ (idleXY 32768#32).cap.toNat ∧ (idleXY 32769#32).cap.toNat < (idleXY 32769#32).len.toNat ∧
    (0xFFFFFFFF#64 : DataWord).toNat < 2 ^ 32 ∧ 2 ^ 32 ≤ (0x100000000#64 : DataWord).toNat ∧
    (0xFFFF#64 : DataWord).toNat < 2 ^ 16 ∧ 2 ^ 16 ≤ (0x10000#64 : DataWord).toNat ∧ (0#64 : DataWord).toNat = 0 ∧
    (1#64 : DataWord).toNat ≠ 0 := by decide

/-- ConfigureWritesList: an empty list and a list of eight codes. -/
theorem test_witness_configure (codes : List Code) (_ : codes = [] ∨ codes = listFull.toList) :
    ∃ s : State, codes.length ≤ 8 ∧ s.faultRec = none ∧ s.st = stIdle ∧ s.inputs = programInputs (configure codes) ++ [] :=
  ⟨{ State.reset with inputs := programInputs (configure codes) ++ [] }, by
    rcases ‹_ ∨ _› with h | h <;> subst h <;> decide, rfl, rfl, rfl⟩

/-- SingleWriterDiscipline, BusHistoryRule: a tick in its mode, and a host operation. -/
theorem test_witness_writers :
    (∃ t, exec (.tickRun 5#16) (runXY 1#32 0#32 0#3) = .next t) ∧ (Instr.tickRun 5#16).modeOk stRunning = true ∧
    (Instr.tickRun 5#16).tickMode ≠ none ∧ (∃ t, exec (.wrLen 5#64) State.reset = .next t) ∧
    (Instr.wrLen 5#64).modeOk stIdle = true ∧ (Instr.wrLen 5#64).tickMode = none :=
  ⟨⟨_, rfl⟩, by decide, by decide, ⟨_, rfl⟩, by decide, by decide⟩

/-- StateTransitions, CapacityIsConstant, BlockInvKept: a step from a state with the invariant answers a next state. -/
theorem test_witness_invStep : ∃ s t : State, BlockInv s ∧ step s = .next t ∧ t.st = stRunning :=
  ⟨seeded (tickInputs [1#16]), { runXY 1#32 (-2#32) 0#3 with inputs := [] }, test_witness_seeded _, rfl, rfl⟩

/-- IdleTicksRepeat, IdleTicksUsePorts. -/
theorem test_witness_idleTicks :
    ∃ (s : State) (rxs : List Sample),
      s.faultRec = none ∧ s.st = stIdle ∧ rxs ≠ [] ∧ s.inputs = tickInputs rxs ++ [] :=
  ⟨{ idleXY 4#32 with inputs := tickInputs [1#16, 2#16] ++ [] }, [1#16, 2#16], rfl, rfl, by decide, rfl⟩

/-- The four ticks of a run of one sample, the words of an environment that answers at lag 1 with the code itself. -/
def lagOneWords : List Sample := [0x1111#16, 0xC000#16, 0xC000#16, 0xC400#16]

/-- The codes those ticks send (R134). -/
def lagOneCodes : List Code := [0xC000#16, 0xC000#16, 0xC400#16, 0xC000#16]

/-- RunTakesLengthPlusThreeTicks, RunStoresItsCaptures, RunSendsCodesInOrder, SamplesAlignWithChannels: one run meets the
hypotheses of all four. -/
theorem test_witness_run :
    ∃ s t : State, BlockInv s ∧ s.faultRec = none ∧ s.st = stStarting ∧ s.inputs = tickInputs lagOneWords ++ [] ∧
      lagOneWords.length = s.len.toNat + 3 ∧ ListHolds s.chan 2 ∧ runSteps (s.len.toNat + 3) s = .next t ∧
      t.busLog = s.busLog ++ lagOneCodes.map .exchange ∧ memRead t.buf 0 = some 0xC400#16 :=
  ⟨seeded (tickInputs lagOneWords ++ []), _, test_witness_seeded _, rfl, rfl, by decide, by decide, test_witness_list.1, rfl, by decide, by decide⟩

/-- SamplesAlignWithChannels: that environment keeps the ADC's contract at lag 1, and entry 0 has the lag it asks for. -/
theorem test_witness_adcContract : AdcContractAt 1 (fun _ c => c) lagOneCodes lagOneWords ∧ 1 + 1 ≤ 0 + 3 := by
  refine ⟨fun u hu c hc => ?_, by decide⟩
  have hu : u + 1 < 4 := hu
  match u, hu with
  | 0, _ => cases hc; rfl
  | 1, _ => cases hc; rfl
  | 2, _ => cases hc; rfl

/-- RunTakesLengthPlusThreeTicks, EndIsObserved: a start write begins the run, whatever is still to come. -/
theorem test_witness_startsRun (inputs : List Input) : ∃ p, StartsRun p (seeded inputs) :=
  ⟨{ idleXY 1#32 with inputs := lineInput (.wr .state 1#64) :: inputs }, rfl, ⟨_, _, rfl, rfl⟩, rfl, rfl⟩

/-- EndIsObserved: the run's ticks, an Idle tick, then the read. -/
theorem test_witness_endObserved :
    ∃ (p s : State) (rest : List Input), BlockInv s ∧ StartsRun p s ∧ s.faultRec = none ∧
      s.len.toNat + 3 ≤ (lagOneWords ++ [9#16]).length ∧
      s.inputs = tickInputs (lagOneWords ++ [9#16]) ++ .event (word 0x20000000#32) :: rest :=
  have ⟨p, hp⟩ := test_witness_startsRun (tickInputs (lagOneWords ++ [9#16]) ++ [.event (word 0x20000000#32)])
  ⟨p, _, [], test_witness_seeded _, hp, rfl, by decide, rfl⟩

/-- The invariant holds at power-up with one entry stored. -/
theorem test_witness_stored : BlockInv { State.reset with buf := [(0, 7#16)] } where
  bufCanonical := by decide
  bufBelowCap := by decide
  capInRange := by decide
  stateLegal := by decide
  lenFitsInRun := by decide
  countInRun := by decide
  countOutsideRun := by decide
  indexInRun := fun h => absurd h (by decide)
  countWritten := fun i h => absurd (show (i : Int) < 0 from h) (by omega)
  csAfterTick := by decide
  lastTxLogged := rfl
  noReservedState := fun _ h => by cases h
  noOverrun := fun _ h => by cases h

/-- The invariant holds of the block the caller starts on. -/
theorem test_witness_idle : BlockInv (idleXY 0#32) where
  bufCanonical := List.Pairwise.nil
  bufBelowCap := by intro c h; cases h
  capInRange := by decide
  stateLegal := by decide
  lenFitsInRun := by decide
  countInRun := by decide
  countOutsideRun := by decide
  indexInRun := fun h => absurd h (by decide)
  countWritten := fun i h => absurd (show (i : Int) < 0 from h) (by omega)
  csAfterTick := by decide
  lastTxLogged := rfl
  noReservedState := fun _ h => by cases h
  noOverrun := fun _ h => by cases h

/-- CallerChecksFirst: a length at the capacity and one beyond it, a margin that holds and one that just does not. -/
theorem test_witness_checks :
    (32768#32).toNat ≤ (acquiring 0#32).block.cap.toNat ∧ (acquiring 0#32).block.cap.toNat < (32769#32).toNat ∧
    quickTiming.handler + quickTiming.transfer < armPeriod 1000 ∧
    armPeriod 1000 ≤ (⟨997, 3⟩ : Timing).handler + 3 ∧ (acquiring 0#32).block.faultRec = none := by decide +kernel

/-- MarginCheckedAgainstArmedPeriod: a rate with a whole period, and a call that checks and arms it. -/
theorem test_witness_margin :
    (0 : Rat) < 1000 ∧ ((1000 : Nat) : Rat) = 1000000 / 1000 ∧
    Command.checkMargin quickTiming (armPeriod 1000) ∈ runAcquisition 0#32 1000 quickTiming ∧
    Command.line (.arm (armPeriod 1000)) ∈ runAcquisition 0#32 1000 quickTiming := by decide +kernel

/-- WaitIdleLeavesOnZero: a caller that waits, on an Idle block and on a Starting one. -/
theorem test_witness_waiting :
    ∃ y z : Platform, y.caller.todo = .waitIdle :: [] ∧ y.block.faultRec = none ∧ y.block.st = stIdle ∧
      z.caller.todo = .waitIdle :: [] ∧ z.block.faultRec = none ∧ z.block.st ≠ stIdle :=
  ⟨⟨callerOf waitIdle, State.reset⟩, ⟨callerOf waitIdle, startXY 1#32⟩, rfl, rfl, rfl, rfl, rfl, by decide⟩

/-- The calls' turns lead to their returns. -/
theorem test_acquire_none : runTurns (acquiringTurns 0#32) (acquiring 0#32) = .next acquiredNone :=
  leadsTo_run (by decide +kernel)

theorem test_acquire_one : runTurns (acquiringTurns 1#32) (acquiring 1#32) = .next acquiredOne :=
  leadsTo_run (by decide +kernel)

/-- RunAcquisitionDelivers, TurnsAreBlockSteps: what such a call starts from, and that it returned without rejecting. -/
theorem test_witness_delivers (len : BitVec 32) :
    BlockInv (acquiring len).block ∧ (acquiring len).block.faultRec = none ∧ (acquiring len).block.st = stIdle ∧
      (acquiring len).caller = callerOf (runAcquisition len 1000 quickTiming) ∧ .reset ∉ acquiringTurns len ∧
      (acquiring len).block.trigger = .disarmed ∧
      (∀ z ∈ [acquiredNone, acquiredOne], z.caller.todo = [] ∧ z.caller.rejected = false) :=
  ⟨test_witness_idle, rfl, rfl, rfl, by simp [acquiringTurns], rfl, by decide⟩

/-- No tick comes while the trigger is disarmed, as a Bool. -/
def ticksWhileArmed : List Turn → Platform → Bool
  | [], _ => true
  | u :: us, y =>
    (match u with
      | .tick _ => y.block.trigger != .disarmed
      | .caller => true
      | .reset => true) &&
      match turnStep u y with
      | .next z => ticksWhileArmed us z
      | .fault _ => true
      | .refused _ => true

theorem ticksWhileArmed_sound {us : List Turn} {y : Platform} (h : ticksWhileArmed us y = true) : TicksOnlyArmed us y := by
  induction us generalizing y with
  | nil => trivial
  | cons u us ih =>
    simp only [ticksWhileArmed, Bool.and_eq_true] at h
    refine ⟨?_, fun z hz => ih (by simpa [hz] using h.2)⟩
    rintro rx rfl
    simpa using h.1

/-- RunAcquisitionDelivers: in those turns no tick comes while the trigger is disarmed. -/
theorem test_witness_ticksOnlyArmed :
    TicksOnlyArmed (acquiringTurns 0#32) (acquiring 0#32) ∧ TicksOnlyArmed (acquiringTurns 1#32) (acquiring 1#32) :=
  ⟨ticksWhileArmed_sound (by decide +kernel), ticksWhileArmed_sound (by decide +kernel)⟩

/-- A turn that finds the trigger disarmed is no tick. -/
theorem ticksOnlyArmed_at {us vs : List Turn} {u : Turn} {y z : Platform} (h : TicksOnlyArmed (us ++ u :: vs) y)
    (hz : runTurns us y = .next z) (hd : z.block.trigger = .disarmed) (rx : Sample) : u ≠ .tick rx := by
  induction us generalizing y with
  | nil => cases hz; exact fun hu => h.1 rx hu hd
  | cons v us ih =>
    obtain ⟨x, hx, hw⟩ := runTurns_cons_next.mp hz
    exact ih (h.2 x hx) hw

/-- A schedule that runs through some turns and then leaves the caller alone begins with those turns. -/
theorem map_getD_le (us : List Turn) {n : Nat} (h : n ≤ us.length) :
    (List.range n).map (fun k => us.getD k .caller) = us.take n := by
  apply List.ext_getElem
  · simp [h]
  · intro i _ hi
    have hl : i < us.length := by rw [List.length_take] at hi; omega
    simp [List.getElem?_eq_getElem hl]

/-- From its return on, a call's schedule leaves the platform as it is. -/
theorem schedule_rests {us : List Turn} {y z : Platform} (hz : runTurns us y = .next z) (hrest : turnStep .caller z = .next z)
    (k : Nat) : scheduleRun (fun n => us.getD n .caller) (us.length + k) y = .next z := by
  induction k with
  | zero => rw [scheduleRun, Nat.add_zero, map_getD_le us le_rfl, List.take_length, hz]
  | succ k ih =>
    rw [scheduleRun] at ih ⊢
    rw [← Nat.add_assoc, List.range_succ, List.map_append, runTurns_append ih, List.map_singleton,
      List.getD_eq_default _ _ (by omega), runTurns_cons hrest, runTurns_nil]

/-- Turns that keep the trigger's contract and end disarmed, with the caller at rest, make a schedule that keeps it. -/
theorem schedule_keeps {us : List Turn} {y z : Platform} (ha : TicksOnlyArmed us y) (hz : runTurns us y = .next z)
    (hrest : turnStep .caller z = .next z) (hd : z.block.trigger = .disarmed) :
    TriggerSchedule (fun n => us.getD n .caller) y ∧ CallerGoesOn (fun n => us.getD n .caller) := by
  refine ⟨⟨fun n w hw hwd rx => ?_, fun n w p _ _ => ?_⟩, fun n => ?_⟩
  · by_cases hn : n < us.length
    · rw [scheduleRun, map_getD_le us hn.le] at hw
      rw [← List.take_append_drop n us, List.drop_eq_getElem_cons hn] at ha
      simpa [List.getElem?_eq_getElem hn] using ticksOnlyArmed_at ha hw hwd rx
    · simp [List.getElem?_eq_none (Nat.le_of_not_lt hn)]
  · exact ⟨us.length + n, by omega, .inr ⟨z, schedule_rests hz hrest n, hd⟩⟩
  · exact ⟨us.length + n, by omega, List.getD_eq_default _ _ (by omega)⟩

/-- RunAcquisitionReturns: on the schedules of a call for no sample and of one for one, the trigger's contract is kept,
weak fairness included, and the caller goes on. -/
theorem test_witness_schedule :
    (TriggerSchedule (acquiringSchedule 0#32) (acquiring 0#32) ∧ CallerGoesOn (acquiringSchedule 0#32)) ∧
      TriggerSchedule (acquiringSchedule 1#32) (acquiring 1#32) ∧ CallerGoesOn (acquiringSchedule 1#32) :=
  ⟨schedule_keeps test_witness_ticksOnlyArmed.1 test_acquire_none rfl rfl,
    schedule_keeps test_witness_ticksOnlyArmed.2 test_acquire_one rfl rfl⟩

/-- RunAcquisitionReturns: the rest of what it asks, for both calls. -/
theorem test_witness_returns :
    (∀ len ∈ [0#32, 1#32], ∀ n, acquiringSchedule len n ≠ .reset) ∧
      (1#32).toNat ≤ (acquiring 1#32).block.cap.toNat ∧ timingMargin quickTiming (armPeriod 1000) = true := by
  refine ⟨fun len _ n hn => ?_, by decide, by decide +kernel⟩
  have hr : .reset ∉ acquiringTurns len := by simp [acquiringTurns]
  by_cases h : n < (acquiringTurns len).length
  · rw [acquiringSchedule, List.getD_eq_getElem _ _ h] at hn
    exact hr (hn ▸ List.getElem_mem h)
  · rw [acquiringSchedule, List.getD_eq_default _ _ (Nat.le_of_not_lt h)] at hn
    cases hn

/-- ReadoutReturnsResults: one entry stored, and the lines of its readout. -/
theorem test_witness_readout :
    ∃ (y : Platform) (rest : List Command), BlockInv y.block ∧ y.block.faultRec = none ∧ 1 ≤ y.block.cap.toNat ∧
      (∀ i < 1, (memRead y.block.buf i).isSome) ∧ y.caller.todo = (readout 1).map Command.line ++ rest :=
  ⟨⟨callerOf ((readout 1).map Command.line), { State.reset with buf := [(0, 7#16)] }⟩, [], test_witness_stored, rfl, by decide,
    by decide, rfl⟩

end Sys2Proof.Tests
end

/-! PROOF. What an operation does to `FAULT` (00_scope.md R9, 60_exceptions.md R201): it either keeps the record or
changes nothing else. Only `commit` records a fault, so each operation owes one fact: the state its rule ends in, where
it raises none, has the `FAULT` it began with. -/

namespace Sys2Proof.Machine

/-! ### The shared endings -/

/-- An event whose rule never writes `FAULT` itself keeps the record or changes nothing else (R9). -/
theorem commit_faultRec_kept_or_withFault {s t : State} {r : Except FaultRecord State}
    (h : commit s r = .next t) (hr : ∀ u, r = .ok u → u.faultRec = s.faultRec) :
    t.faultRec = s.faultRec ∨ ∃ f, t = withFault f s := by
  rcases commit_next h with hok | ⟨f, -, hf⟩
  · exact .inl (hr t hok)
  · exact .inr ⟨f, hf⟩

theorem hostRead_keeps_faultRec {v : DataWord} {s t : State} (h : hostRead v s = .next t) :
    t.faultRec = s.faultRec := by
  obtain rfl : withResult v s = t := by simpa using h
  simp

/-- A host write whose effect never writes `FAULT` keeps the record or changes nothing else, whatever its checks find
(R176). -/
theorem hostWrite_faultRec_kept_or_withFault {ev : EventWord} {d : DataWord} {ok : Bool}
    {r : Except FaultRecord State} {s t : State} (h : hostWrite ev d ok r s = .next t)
    (hr : ∀ u, r = .ok u → u.faultRec = s.faultRec) : t.faultRec = s.faultRec ∨ ∃ f, t = withFault f s := by
  rcases hostWrite_next h with hf | ⟨-, -, hok⟩
  · exact .inr hf
  · exact .inl (hr t hok)

/-- An effect that has one outcome owes its fact about that outcome alone. -/
theorem ok_faultRec_kept {s u : State} (hu : u.faultRec = s.faultRec) :
    ∀ v, (.ok u : Except FaultRecord State) = .ok v → v.faultRec = s.faultRec := by
  rintro v ⟨⟩
  exact hu

/-! ### The operations with more than one ending -/

theorem execRdBuf_faultRec_kept_or_withFault {i : BufIndex} {s t : State} (h : execRdBuf i s = .next t) :
    t.faultRec = s.faultRec ∨ ∃ f, t = withFault f s := by
  unfold execRdBuf at h
  split at h
  · split at h
    · exact .inl (hostRead_keeps_faultRec h)
    · exact .inr ⟨_, by simpa using h.symm⟩
  · exact .inr ⟨_, by simpa using h.symm⟩

theorem execWrState_faultRec_kept_or_withFault {d : DataWord} {s t : State} (h : execWrState d s = .next t) :
    t.faultRec = s.faultRec ∨ ∃ f, t = withFault f s := by
  refine hostWrite_faultRec_kept_or_withFault h fun u hu => ?_
  split at hu
  · obtain rfl := Except.ok.inj hu
    rfl
  · cases hu

theorem execTickRun_faultRec_kept_or_withFault {rx : Sample} {s t : State} (h : execTickRun rx s = .next t) :
    t.faultRec = s.faultRec ∨ ∃ f, t = withFault f s := by
  refine commit_faultRec_kept_or_withFault h fun u hu => ?_
  split at hu
  · cases hu
  · obtain rfl := Except.ok.inj hu
    rw [finishIfDone_faultRec, advance_faultRec]
    split <;> simp

/-! ### Every operation -/

/-- All an operation can do to `FAULT`: keep it, or record a fault in the state it found and change nothing else. -/
theorem exec_faultRec_kept_or_withFault {i : Instr} {s t : State} (h : exec i s = .next t) :
    t.faultRec = s.faultRec ∨ ∃ f, t = withFault f s := by
  cases i with
  | tickIdle rx => exact .inl (Host.Outcome.next.inj h ▸ pipeline_faultRec s rx)
  | tickStart rx => exact .inl (Host.Outcome.next.inj h ▸ pipeline_faultRec s rx)
  | tickRun rx => exact execTickRun_faultRec_kept_or_withFault h
  | tickRsvd rx => exact .inr ⟨.reservedState s.st, (Host.Outcome.next.inj h).symm⟩
  | rdState => exact .inl (hostRead_keeps_faultRec h)
  | rdLen => exact .inl (hostRead_keeps_faultRec h)
  | rdCount => exact .inl (hostRead_keeps_faultRec h)
  | rdNpt => exact .inl (hostRead_keeps_faultRec h)
  | rdCidx => exact .inl (hostRead_keeps_faultRec h)
  | rdCap => exact .inl (hostRead_keeps_faultRec h)
  | rdChan k => exact .inl (hostRead_keeps_faultRec h)
  | rdSum => exact .inl (hostRead_keeps_faultRec h)
  | rdSumsq => exact .inl (hostRead_keeps_faultRec h)
  | rdBuf i => exact execRdBuf_faultRec_kept_or_withFault h
  | wrState d => exact execWrState_faultRec_kept_or_withFault h
  | wrLen d => exact hostWrite_faultRec_kept_or_withFault h (ok_faultRec_kept rfl)
  | wrChan k d => exact hostWrite_faultRec_kept_or_withFault h (ok_faultRec_kept (setChan_faultRec s k _))
  | wrSum d => exact hostWrite_faultRec_kept_or_withFault h (ok_faultRec_kept rfl)
  | wrSumsq d => exact hostWrite_faultRec_kept_or_withFault h (ok_faultRec_kept rfl)
  | reset => exact .inl (Host.Outcome.next.inj h ▸ resetState_faultRec s)

/-- Settles O8: an operation that changed the record did not keep it, so it recorded a fault and changed nothing else. -/
theorem faultChangesOnlyFault : Obligations.FaultChangesOnlyFault := by
  intro i s t h hne
  exact (exec_faultRec_kept_or_withFault h).resolve_left hne

end Sys2Proof.Machine

/-! PROOF. What one step of the block can do, said once (10_state.md R36; 30_encoding.md R74, R78; 41_fsm.md R120;
42_host.md R160, R176): the effects of a tick that runs in its own mode, the effects of a host access, and that a step is a
tick, an access, a reset, a reserved word, a platform action or nothing. -/

namespace Sys2Proof

/-! ### The decoder gives a tick in its mode, a host access, or a reset -/

/-- `ST` holds one of its four codes (R20). -/
theorem stCode_cases (st : StCode) : st = stIdle ∨ st = stStarting ∨ st = stRunning ∨ st = stReserved := by
  revert st; decide

theorem stRunning_ne_stIdle : stRunning ≠ stIdle := by decide
theorem stStarting_ne_stIdle : stStarting ≠ stIdle := by decide
theorem stStarting_ne_stRunning : stStarting ≠ stRunning := by decide
theorem stIdle_ne_stReserved : stIdle ≠ stReserved := by decide
theorem stStarting_ne_stReserved : stStarting ≠ stReserved := by decide
theorem stRunning_ne_stReserved : stRunning ≠ stReserved := by decide

theorem selectTick_tickMode (st : StCode) (rx : Sample) : (selectTick st rx).tickMode = some st := by
  rcases stCode_cases st with rfl | rfl | rfl | rfl <;> rfl

theorem selectRead_isAccess {cap : BitVec 32} {a : HostAddr} {i : Instr} (h : selectRead cap a = .ok i) :
    i.tickMode = none ∧ i ≠ .reset := by
  unfold selectRead at h
  split_ifs at h <;> cases h <;> exact ⟨rfl, nofun⟩

theorem selectWrite_isAccess {cap : BitVec 32} {a : HostAddr} {d : DataWord} {i : Instr}
    (h : selectWrite cap a d = .ok i) : i.tickMode = none ∧ i ≠ .reset := by
  unfold selectWrite at h
  split_ifs at h <;> cases h <;> exact ⟨rfl, nofun⟩

theorem ev_of_decodeKind_reset {e : RawEvent} (h : decodeKind e = .ok .reset) : e.ev = 0x40000000#32 := by
  unfold decodeKind at h
  split_ifs at h with hz _ _ _ _ hk ha
  · cases h
  · cases h
  · cases h
  have hz' := zField_toNat e.ev
  have hk' := kindField_toNat e.ev
  have ha' := addrField_toNat e.ev
  rw [not_not.mp hz, BitVec.toNat_ofNat] at hz'
  rw [hk, BitVec.toNat_ofNat] at hk'
  rw [ha, BitVec.toNat_ofNat] at ha'
  apply BitVec.eq_of_toNat_eq
  rw [BitVec.toNat_ofNat]
  omega

/-- What a word that decodes stands for, with the mode a tick's row asks for held (R74, R75). -/
theorem decode_ok_cases {st : StCode} {cap : BitVec 32} {e : RawEvent} {i : Instr} (h : decode st cap e = .ok i) :
    i.tickMode = some st ∨ (i.tickMode = none ∧ i ≠ .reset) ∨ (i = .reset ∧ e.ev = 0x40000000#32) := by
  unfold decode at h
  split at h
  next => cases h
  next => cases h; exact .inl (selectTick_tickMode st _)
  next => exact .inr (.inl (selectRead_isAccess h))
  next => exact .inr (.inl (selectWrite_isAccess h))
  next hk => cases h; exact .inr (.inr ⟨rfl, ev_of_decodeKind_reset hk⟩)

theorem tickMode_eq_some_of_modeOk {st : StCode} {i : Instr} (h : i.modeOk st = true) (hi : i.tickMode ≠ none) :
    i.tickMode = some st := by
  obtain ⟨m, hm⟩ := Option.ne_none_iff_exists'.mp hi
  have : m = st := by simpa [Instr.modeOk, hm] using h
  rw [hm, this]

namespace Machine

/-! ### A tick's effect -/

/-- The two faults a tick alone raises (R124, R128). -/
def FaultRecord.raisedByTick : FaultRecord → Bool
  | .reservedState _ => true
  | .bufferOverrun _ => true
  | _ => false

/-- All a tick that runs in its own mode can do (R121 to R124, R128). -/
inductive TickEffect (s : State) : State → Prop
  | idle (rx : Sample) (hst : s.st = stIdle) : TickEffect s (pipeline rx s).2
  | start (rx : Sample) (hst : s.st = stStarting) :
      TickEffect s { (pipeline rx s).2 with cidx := 0#3, npt := trunc 32 (-Config.primingBias), st := stRunning }
  | store (rx : Sample) (hst : s.st = stRunning) (h0 : 0 ≤ s.npt.toInt) (hcap : s.npt.toInt < s.cap.toNat) :
      TickEffect s (finishIfDone s.npt.toInt
        (advance s.npt.toInt (storeSample s.npt.toInt.toNat rx (pipeline rx s).2)))
  | prime (rx : Sample) (hst : s.st = stRunning) (h0 : s.npt.toInt < 0) :
      TickEffect s (finishIfDone s.npt.toInt (advance s.npt.toInt (pipeline rx s).2))
  | overrun (hst : s.st = stRunning) (hcap : (s.cap.toNat : Int) ≤ s.npt.toInt) :
      TickEffect s (withFault (.bufferOverrun s.npt) s)
  | reserved (hst : s.st = stReserved) : TickEffect s (withFault (.reservedState s.st) s)

theorem execTickRun_effect {rx : Sample} {s t : State} (hst : s.st = stRunning) (h : execTickRun rx s = .next t) :
    TickEffect s t := by
  by_cases hcap : s.npt.toInt < s.cap.toNat
  · rw [execTickRun_below hcap] at h
    obtain rfl := Host.Outcome.next.inj h
    split
    next h0 => exact .store rx hst h0 hcap
    next h0 => exact .prime rx hst (Int.not_le.mp h0)
  · have hover : 0 ≤ s.npt.toInt ∧ (s.cap.toNat : Int) ≤ s.npt.toInt := by omega
    simp only [execTickRun, if_pos hover, commit_error] at h
    obtain rfl := Host.Outcome.next.inj h
    exact .overrun hst hover.2

theorem exec_tick_effect {i : Instr} {s t : State} (hi : i.tickMode = some s.st) (h : exec i s = .next t) :
    TickEffect s t := by
  cases i with
  | tickIdle rx => exact Host.Outcome.next.inj h ▸ .idle rx (Option.some.inj hi).symm
  | tickStart rx => exact Host.Outcome.next.inj h ▸ .start rx (Option.some.inj hi).symm
  | tickRun rx => exact execTickRun_effect (Option.some.inj hi).symm h
  | tickRsvd rx => exact Host.Outcome.next.inj h ▸ .reserved (Option.some.inj hi).symm
  | _ => cases hi

/-! ### A host access's effect -/

/-- All a host access can do (R160, R162, R164, R170, R172, R174, R176). -/
inductive AccessEffect (s : State) : State → Prop
  | read (v : DataWord) : AccessEffect s (withResult v s)
  | fault (f : FaultRecord) (hf : f.raisedByTick = false) : AccessEffect s (withFault f s)
  | start (hst : s.st = stIdle) (hlen : s.len.toNat ≤ s.cap.toNat) : AccessEffect s { s with st := stStarting }
  | setLen (len : BitVec 32) (hst : s.st = stIdle) : AccessEffect s { s with len := len }
  | setChan (k : Slot) (c : Code) (hst : s.st = stIdle) : AccessEffect s (setChan k c s)
  | clearSum (hst : s.st = stIdle) : AccessEffect s { s with sum := 0#64 }
  | clearSumsq (hst : s.st = stIdle) : AccessEffect s { s with sumsq := 0#64 }

theorem hostRead_effect {v : DataWord} {s t : State} (h : hostRead v s = .next t) : AccessEffect s t :=
  Host.Outcome.next.inj h ▸ .read v

theorem execRdBuf_effect {i : BufIndex} {s t : State} (h : execRdBuf i s = .next t) : AccessEffect s t := by
  unfold execRdBuf at h
  split at h
  · split at h
    · exact hostRead_effect h
    · exact Host.Outcome.next.inj h ▸ .fault _ rfl
  · exact Host.Outcome.next.inj h ▸ .fault _ rfl

/-- A write's checks raise no fault of a tick, so what a write can do is what its own effect does in Idle (R176). -/
theorem hostWrite_effect {ev : EventWord} {d : DataWord} {ok : Bool} {r : Except FaultRecord State} {s t : State}
    (hr : s.st = stIdle → commit s r = .next t → AccessEffect s t) (h : hostWrite ev d ok r s = .next t) :
    AccessEffect s t := by
  by_cases hst : s.st = stIdle
  · cases ok with
    | true => exact hr hst (hostWrite_legal hst ▸ h)
    | false =>
      rw [hostWrite_illegal hst] at h
      exact Host.Outcome.next.inj h ▸ .fault _ rfl
  · rw [hostWrite_busy hst] at h
    exact Host.Outcome.next.inj h ▸ .fault _ rfl

theorem hostWrite_ok_effect {ev : EventWord} {d : DataWord} {ok : Bool} {s t u : State}
    (hu : s.st = stIdle → AccessEffect s u) (h : hostWrite ev d ok (.ok u) s = .next t) : AccessEffect s t :=
  hostWrite_effect (fun hst hc => Host.Outcome.next.inj (commit_ok s u ▸ hc) ▸ hu hst) h

theorem execWrState_effect {d : DataWord} {s t : State} (h : execWrState d s = .next t) : AccessEffect s t := by
  refine hostWrite_effect (fun hst hc => ?_) h
  split at hc
  next hlen => exact Host.Outcome.next.inj hc ▸ .start hst ((lenFits_iff s).mp hlen)
  next => exact Host.Outcome.next.inj hc ▸ .fault _ rfl

theorem exec_access_effect {i : Instr} {s t : State} (hi : i.tickMode = none) (hreset : i ≠ .reset)
    (h : exec i s = .next t) : AccessEffect s t := by
  cases i with
  | rdState => exact hostRead_effect h
  | rdLen => exact hostRead_effect h
  | rdCount => exact hostRead_effect h
  | rdNpt => exact hostRead_effect h
  | rdCidx => exact hostRead_effect h
  | rdCap => exact hostRead_effect h
  | rdChan k => exact hostRead_effect h
  | rdSum => exact hostRead_effect h
  | rdSumsq => exact hostRead_effect h
  | rdBuf k => exact execRdBuf_effect h
  | wrState d => exact execWrState_effect h
  | wrLen d => exact hostWrite_ok_effect (.setLen _) h
  | wrChan k d => exact hostWrite_ok_effect (.setChan k _) h
  | wrSum d => exact hostWrite_ok_effect .clearSum h
  | wrSumsq d => exact hostWrite_ok_effect .clearSumsq h
  | reset => exact absurd rfl hreset
  | _ => cases hi

/-! ### A step's effect -/

/-- All taking the event `e` can do to the state it is taken in: a tick, a host access, a reset, or a reserved word. -/
inductive EventEffect (e : RawEvent) (s : State) : State → Prop
  | tick {t : State} (h : TickEffect s t) : EventEffect e s t
  | access {t : State} (h : AccessEffect s t) : EventEffect e s t
  | reset (hev : e.ev = 0x40000000#32) : EventEffect e s (resetState s)
  | reservedWord : EventEffect e s (withFault (.reservedEvent e.ev) s)

/-- All a step that answers a next state can do: nothing, a platform action on the trigger, or taking an event. -/
theorem step_effect {s t : State} (h : step s = .next t) :
    s.faultRec = none ∧ (t = s ∨ (∃ g rest, t = setTrigger g (dropInput rest s)) ∨
      ∃ e rest, s.inputs = .event e :: rest ∧ EventEffect e (takeEvent rest s) t) := by
  obtain ⟨hf, hquiet | harm | hdisarm | hevent | hreserved⟩ := step_cases h
  · exact ⟨hf, .inl hquiet.2⟩
  · obtain ⟨p, rest, -, ht⟩ := harm
    exact ⟨hf, .inr (.inl ⟨_, rest, ht⟩)⟩
  · obtain ⟨rest, -, ht⟩ := hdisarm
    exact ⟨hf, .inr (.inl ⟨_, rest, ht⟩)⟩
  · obtain ⟨e, rest, i, hin, hd, hx⟩ := hevent
    refine ⟨hf, .inr (.inr ⟨e, rest, hin, ?_⟩)⟩
    rcases decode_ok_cases hd with htick | ⟨hi, hne⟩ | ⟨rfl, hev⟩
    · exact .tick (exec_tick_effect htick hx)
    · exact .access (exec_access_effect hi hne hx)
    · exact Host.Outcome.next.inj hx ▸ .reset hev
  · obtain ⟨e, rest, r, hin, -, rfl⟩ := hreserved
    exact ⟨hf, .inr (.inr ⟨e, rest, hin, .reservedWord⟩)⟩

end Machine

end Sys2Proof

/-! PROOF. The block's invariant (41_fsm.md R129, R131): it holds at power-up, and each effect a step can have keeps it.
Every lemma names the fields its effect touches; the rest of the invariant is carried over. -/

namespace Sys2Proof.Machine

variable {s t : State}

/-! ### The index of a run -/

@[simp] theorem indexAfter_zero (chan : Vector Code 8) : indexAfter chan 0 = 0#3 := rfl

theorem indexAfter_succ (chan : Vector Code 8) (j : Nat) :
    indexAfter chan (j + 1) = nextIdx chan (indexAfter chan j) :=
  Function.iterate_succ_apply' _ _ _

/-! ### The ports and the fault record -/

theorem BlockInv.takeEvent (h : BlockInv s) (rest : List Input) : BlockInv (takeEvent rest s) := { h with }

theorem BlockInv.platform (h : BlockInv s) (g : Trigger) (rest : List Input) :
    BlockInv (setTrigger g (dropInput rest s)) := { h with }

theorem BlockInv.withResult (h : BlockInv s) (v : DataWord) : BlockInv (withResult v s) := { h with }

theorem BlockInv.withFault (h : BlockInv s) {f : FaultRecord} (hf : f.raisedByTick = false) :
    BlockInv (withFault f s) :=
  { h with
    noReservedState := by rintro c ⟨⟩; cases hf
    noOverrun := by rintro n ⟨⟩; cases hf }

/-! ### Power-up and reset -/

/-- The invariant holds wherever a reset's values are installed, whatever the history, the ports and a legal capacity. -/
theorem blockInv_resetState (hcap : 1 ≤ s.cap.toNat ∧ s.cap.toNat ≤ Config.maxCap) (hf : s.faultRec = none) :
    BlockInv (resetState s) where
  bufCanonical := wf_nil
  bufBelowCap := nofun
  capInRange := hcap
  stateLegal := stIdle_ne_stReserved
  lenFitsInRun := fun hst => absurd rfl hst
  countInRun := fun hst => absurd hst stRunning_ne_stIdle.symm
  countOutsideRun := fun _ => by simp
  indexInRun := fun hst => absurd hst stRunning_ne_stIdle.symm
  countWritten := fun i hi => absurd hi (by simp)
  csAfterTick := by simp
  lastTxLogged := by simp [inFlight]
  noReservedState := by simp [hf]
  noOverrun := by simp [hf]

/-! ### Ticks -/

/-- Phase 1 logs the code it puts in flight (R101, R105, R109). -/
theorem BlockInv.pipeline (h : BlockInv s) (rx : Sample) : BlockInv (pipeline rx s).2 :=
  { h with
    csAfterTick := by simp
    lastTxLogged := by simp [inFlight] }

/-- A Starting tick begins a run at index 0 with the counter at `-PRIME` (R122). -/
theorem BlockInv.beginRun (h : BlockInv s) (hst : s.st = stStarting) :
    BlockInv { s with cidx := 0#3, npt := trunc 32 (-Config.primingBias), st := stRunning } := by
  have hnpt : (trunc 32 (-Config.primingBias)).toInt = -2 := by decide
  exact
    { h with
      stateLegal := stRunning_ne_stReserved
      lenFitsInRun := fun _ => h.lenFitsInRun (hst ▸ stStarting_ne_stIdle)
      countInRun := fun _ => ⟨hnpt.ge, hnpt.trans_lt (by omega)⟩
      countOutsideRun := fun hne => absurd rfl hne
      indexInRun := fun _ => by simp only [hnpt]; rfl
      countWritten := fun i hi => by simp only [hnpt] at hi; omega }

/-- A store below the capacity keeps the buffer's form and leaves written what was written (R51, R128). -/
theorem BlockInv.storeSample (h : BlockInv s) {n : Nat} (hn : n < s.cap.toNat) (v : Sample) :
    BlockInv (storeSample n v s) :=
  { h with
    bufCanonical := memWrite_wf h.bufCanonical n v
    bufBelowCap := fun c hc => by
      rcases mem_memWrite hc with rfl | hc
      · exact hn
      · exact h.bufBelowCap c hc
    countWritten := fun i hi => by
      rw [storeSample_buf]
      by_cases hin : i = n
      · simp [hin]
      · rw [memRead_memWrite_other _ v hin]
        exact h.countWritten i hi }

/-- The count after one more Running tick, exact: it stays far below `2^31` (R129). -/
theorem BlockInv.count_succ (h : BlockInv s) (hst : s.st = stRunning) :
    (trunc 32 (s.npt.toInt + 1)).toInt = s.npt.toInt + 1 := by
  obtain ⟨hlow, hhigh⟩ := h.countInRun hst
  have hlen := h.lenFitsInRun (hst ▸ stRunning_ne_stIdle)
  have hcap := h.capInRange.2
  simp only [Config.primingBias, Config.maxCap] at hlow hcap
  exact trunc32_toInt (by omega) (by omega)

/-- The end of a Running tick: it counts on within the run, or ends the run with the count at `LEN` (R123, R126). What
the tick owes before is the entry its count now covers. -/
theorem BlockInv.advance_finish (h : BlockInv s) (hst : s.st = stRunning)
    (hstored : 0 ≤ s.npt.toInt → (memRead s.buf s.npt.toInt.toNat).isSome) :
    BlockInv (finishIfDone s.npt.toInt (advance s.npt.toInt s)) := by
  obtain ⟨hlow, hhigh⟩ := h.countInRun hst
  have hlen := h.lenFitsInRun (hst ▸ stRunning_ne_stIdle)
  have hcount := h.count_succ hst
  have hwritten (i : Nat) (hi : (i : Int) < s.npt.toInt + 1) : (memRead s.buf i).isSome := by
    by_cases hlt : (i : Int) < s.npt.toInt
    · exact h.countWritten i hlt
    · obtain rfl : i = s.npt.toInt.toNat := by omega
      exact hstored (by omega)
  have hindex : nextIdx s.chan s.cidx = indexAfter s.chan (s.npt.toInt + 1 + Config.primingBias).toNat := by
    have hsucc : (s.npt.toInt + 1 + Config.primingBias).toNat = (s.npt.toInt + Config.primingBias).toNat + 1 := by omega
    rw [hsucc, indexAfter_succ, ← h.indexInRun hst]
  unfold finishIfDone
  split
  next hend =>
    have hend : (s.len.toNat : Int) ≤ s.npt.toInt + 1 := (endOfRun_iff _ _).mp hend
    exact
      { h with
        stateLegal := stIdle_ne_stReserved
        lenFitsInRun := fun hne => absurd rfl hne
        countInRun := fun hrun => absurd hrun stRunning_ne_stIdle.symm
        countOutsideRun := fun _ => by simp only [advance_npt, advance_cap, hcount]; omega
        indexInRun := fun hrun => absurd hrun stRunning_ne_stIdle.symm
        countWritten := fun i hi => hwritten i (by simpa only [advance_npt, hcount] using hi) }
  next hend =>
    have hend : ¬ (s.len.toNat : Int) ≤ s.npt.toInt + 1 := fun hle => hend ((endOfRun_iff _ _).mpr hle)
    exact
      { h with
        countInRun := fun _ => by simp only [advance_npt, advance_len, hcount]; omega
        countOutsideRun := fun hne => absurd hst hne
        indexInRun := fun _ => by simp only [advance_npt, advance_chan, advance_cidx, hcount]; exact hindex
        countWritten := fun i hi => hwritten i (by simpa only [advance_npt, hcount] using hi) }

/-- A tick keeps the invariant; the two effects that record a fault of a tick do not occur under it (R124, R129). -/
theorem BlockInv.of_tickEffect (h : BlockInv s) (he : TickEffect s t) : BlockInv t := by
  cases he with
  | idle rx hst => exact h.pipeline rx
  | start rx hst => exact (h.pipeline rx).beginRun hst
  | store rx hst h0 hcap =>
    have hn : s.npt.toInt.toNat < s.cap.toNat := by omega
    exact ((h.pipeline rx).storeSample hn rx).advance_finish hst fun _ => by simp
  | prime rx hst h0 => exact (h.pipeline rx).advance_finish hst fun hpos => absurd hpos (Int.not_le.mpr h0)
  | overrun hst hcap =>
    have hcount := (h.countInRun hst).2
    have hlen := h.lenFitsInRun (hst ▸ stRunning_ne_stIdle)
    omega
  | reserved hst => exact absurd hst h.stateLegal

/-! ### Host accesses -/

/-- The start write seeds a run whose length fits (R162). -/
theorem BlockInv.startRun (h : BlockInv s) (hst : s.st = stIdle) (hlen : s.len.toNat ≤ s.cap.toNat) :
    BlockInv { s with st := stStarting } :=
  { h with
    stateLegal := stStarting_ne_stReserved
    lenFitsInRun := fun _ => hlen
    countInRun := fun hrun => absurd hrun stStarting_ne_stRunning
    countOutsideRun := fun _ => h.countOutsideRun (hst ▸ stRunning_ne_stIdle.symm)
    indexInRun := fun hrun => absurd hrun stStarting_ne_stRunning }

/-- Outside a run the length is free (R164). -/
theorem BlockInv.setLen (h : BlockInv s) (hst : s.st = stIdle) (len : BitVec 32) : BlockInv { s with len := len } :=
  { h with
    lenFitsInRun := fun hne => absurd hst hne
    countInRun := fun hrun => absurd (hst.symm.trans hrun) stRunning_ne_stIdle.symm }

/-- Outside a run the channel list is free (R170). -/
theorem BlockInv.setChan (h : BlockInv s) (hst : s.st = stIdle) (k : Slot) (c : Code) : BlockInv (setChan k c s) :=
  { h with indexInRun := fun hrun => absurd (hst.symm.trans hrun) stRunning_ne_stIdle.symm }

theorem BlockInv.of_accessEffect (h : BlockInv s) (he : AccessEffect s t) : BlockInv t := by
  cases he with
  | read v => exact h.withResult v
  | fault f hf => exact h.withFault hf
  | start hst hlen => exact h.startRun hst hlen
  | setLen len hst => exact h.setLen hst len
  | setChan k c hst => exact h.setChan hst k c
  | clearSum hst => exact { h with }
  | clearSumsq hst => exact { h with }

/-! ### The invariant -/

/-- Settles O43: each effect a step can have keeps the invariant. -/
theorem blockInvKept : Obligations.BlockInvKept := by
  intro s t h hstep
  obtain ⟨hf, rfl | ⟨g, rest, rfl⟩ | ⟨e, rest, -, he⟩⟩ := step_effect hstep
  · exact h
  · exact h.platform g rest
  · have h' := h.takeEvent rest
    cases he with
    | tick he => exact h'.of_tickEffect he
    | access he => exact h'.of_accessEffect he
    | reset hev => exact blockInv_resetState h.capInRange hf
    | reservedWord => exact h'.withFault rfl

/-- Settles O42: power-up installs a reset's values, with an empty history (R231). -/
theorem blockInvAtReset : Obligations.BlockInvAtReset :=
  { blockInv_resetState (s := State.reset) (by decide) rfl with lastTxLogged := rfl }

end Sys2Proof.Machine

/-! PROOF. Who may write what (10_state.md R31, R36), read off the effects a step can have. -/

namespace Sys2Proof.Machine

variable {s t : State}

/-! ### `ST` -/

theorem finishIfDone_st_kept_or_idle (n : Int) (s : State) :
    (finishIfDone n s).st = s.st ∨ (finishIfDone n s).st = stIdle := by
  rw [finishIfDone_st]
  split
  · exact .inr rfl
  · exact .inl rfl

/-- A tick moves `ST` from Starting to Running or from Running to Idle, or leaves it (R36). -/
theorem TickEffect.st_moves (he : TickEffect s t) :
    t.st = s.st ∨ (s.st = stStarting ∧ t.st = stRunning) ∨ (s.st = stRunning ∧ t.st = stIdle) := by
  cases he with
  | idle rx hst => exact .inl rfl
  | start rx hst => exact .inr (.inl ⟨hst, rfl⟩)
  | store rx hst h0 hcap => exact (finishIfDone_st_kept_or_idle _ _).imp id fun hend => .inr ⟨hst, hend⟩
  | prime rx hst h0 => exact (finishIfDone_st_kept_or_idle _ _).imp id fun hend => .inr ⟨hst, hend⟩
  | overrun hst hcap => exact .inl rfl
  | reserved hst => exact .inl rfl

/-- A host access moves `ST` from Idle to Starting, or leaves it (R36). -/
theorem AccessEffect.st_moves (he : AccessEffect s t) : t.st = s.st ∨ (s.st = stIdle ∧ t.st = stStarting) := by
  cases he with
  | start hst hlen => exact .inr ⟨hst, rfl⟩
  | _ => exact .inl rfl

/-! ### The other registers and the buffer -/

theorem TickEffect.keeps_config (he : TickEffect s t) : t.chan = s.chan ∧ t.len = s.len ∧ t.cap = s.cap := by
  cases he <;> simp

/-- A tick writes accumulators and buffer in Running alone, with a counter not negative (R123). -/
theorem TickEffect.store_or_keeps (he : TickEffect s t) :
    (s.st = stRunning ∧ 0 ≤ s.npt.toInt) ∨ (t.sum = s.sum ∧ t.sumsq = s.sumsq ∧ t.buf = s.buf) := by
  cases he with
  | store rx hst h0 hcap => exact .inl ⟨hst, h0⟩
  | _ => exact .inr (by simp)

theorem AccessEffect.keeps_run (he : AccessEffect s t) :
    t.npt = s.npt ∧ t.cidx = s.cidx ∧ t.buf = s.buf ∧ t.cs = s.cs ∧ t.lastTx = s.lastTx ∧ t.cap = s.cap := by
  cases he <;> simp

/-- A host access changes an accumulator to 0 alone (R172, R174). -/
theorem AccessEffect.accumulators_kept_or_cleared (he : AccessEffect s t) :
    (t.sum = s.sum ∨ t.sum = 0#64) ∧ (t.sumsq = s.sumsq ∨ t.sumsq = 0#64) := by
  cases he with
  | clearSum hst => exact ⟨.inr rfl, .inl rfl⟩
  | clearSumsq hst => exact ⟨.inl rfl, .inr rfl⟩
  | _ => exact ⟨.inl rfl, .inl rfl⟩

/-- Outside Idle a host access writes neither configuration nor accumulator (R176). -/
theorem AccessEffect.keeps_outside_idle (he : AccessEffect s t) (hst : s.st ≠ stIdle) :
    t.chan = s.chan ∧ t.len = s.len ∧ t.sum = s.sum ∧ t.sumsq = s.sumsq := by
  cases he with
  | read v => simp
  | fault f hf => simp
  | _ => contradiction

theorem EventEffect.cap_eq {e : RawEvent} (he : EventEffect e s t) : t.cap = s.cap := by
  cases he with
  | tick he => exact he.keeps_config.2.2
  | access he => obtain ⟨-, -, -, -, -, hcap⟩ := he.keeps_run; exact hcap
  | reset hev => rfl
  | reservedWord => rfl

/-! ### The statements -/

/-- Settles O38: a tick in its mode has a tick's effect, any other operation but the reset a host access's. -/
theorem singleWriterDiscipline : Obligations.SingleWriterDiscipline := by
  intro i s t hreset hmode hx
  constructor
  · intro hi
    have he := exec_tick_effect (tickMode_eq_some_of_modeOk hmode hi) hx
    obtain ⟨hchan, hlen, -⟩ := he.keeps_config
    refine ⟨hchan, hlen, he.st_moves, fun hchanged => ?_⟩
    rcases he.store_or_keeps with hstore | ⟨hsum, hsumsq, hbuf⟩
    · exact hstore
    · exact absurd hchanged (by simp [hsum, hsumsq, hbuf])
  · intro hi
    have he := exec_access_effect hi hreset hx
    obtain ⟨hnpt, hcidx, hbuf, hcs, hlast, -⟩ := he.keeps_run
    obtain ⟨hsum, hsumsq⟩ := he.accumulators_kept_or_cleared
    exact ⟨hnpt, hcidx, hbuf, hcs, hlast, he.st_moves, hsum, hsumsq, he.keeps_outside_idle⟩

/-- Settles O39: of what a step can do, a tick and a host access move `ST` as R36 lets them, a reset brings it to Idle,
and nothing else writes it. -/
theorem stateTransitions : Obligations.StateTransitions := by
  intro s t hstep
  obtain ⟨-, rfl | ⟨g, rest, rfl⟩ | ⟨e, rest, hin, he⟩⟩ := step_effect hstep
  · exact .inl rfl
  · exact .inl rfl
  · cases he with
    | tick he =>
      rcases he.st_moves with hkeep | hstart | hend
      · exact .inl hkeep
      · exact .inr (.inr (.inl hstart))
      · exact .inr (.inr (.inr (.inl hend)))
    | access he =>
      rcases he.st_moves with hkeep | hseed
      · exact .inl hkeep
      · exact .inr (.inl hseed)
    | reset hev => exact .inr (.inr (.inr (.inr ⟨rfl, e, rest, hin, hev⟩)))
    | reservedWord => exact .inl rfl

/-- Settles O41: a read returns `CAP` with its value, and no effect of a step writes it. -/
theorem capacityIsConstant : Obligations.CapacityIsConstant := by
  refine ⟨fun s => ⟨zext64 s.cap, rfl, zext64_toNat (by decide) s.cap⟩, fun s t hstep => ?_⟩
  obtain ⟨-, rfl | ⟨g, rest, rfl⟩ | ⟨e, rest, -, he⟩⟩ := step_effect hstep
  · rfl
  · rfl
  · exact he.cap_eq

end Sys2Proof.Machine

/-! PROOF. Taking an input (20_memory.md R59): the step an input leads to, what an operation does to the model's two ports,
and that the inputs still to come have no part in what a step does (log 1, log 5, log 21). -/

namespace Sys2Proof

/-! ### The host reads among the operations, and the kind of their words (R70, R72, R75) -/

/-- The operation is a host read, a row `RD.*` of the opcode map (R75). -/
def Instr.isRead : Instr → Bool
  | .rdState | .rdLen | .rdCount | .rdNpt | .rdCidx | .rdCap | .rdChan _ | .rdSum | .rdSumsq | .rdBuf _ => true
  | _ => false

theorem isRead_selectTick (st : StCode) (rx : Sample) : (selectTick st rx).isRead = false := by
  rcases stCode_cases st with rfl | rfl | rfl | rfl <;> rfl

theorem isRead_of_selectRead {cap : BitVec 32} {a : HostAddr} {i : Instr} (h : selectRead cap a = .ok i) :
    i.isRead = true := by
  unfold selectRead at h
  simp only [ite_eq_iff, reduceCtorEq, and_false, or_false] at h
  casesm* _ ∧ _, _ ∨ _ <;> cases ‹Except.ok _ = _› <;> rfl

theorem not_isRead_of_selectWrite {cap : BitVec 32} {a : HostAddr} {d : DataWord} {i : Instr}
    (h : selectWrite cap a d = .ok i) : i.isRead = false := by
  unfold selectWrite at h
  simp only [ite_eq_iff, reduceCtorEq, and_false, or_false, false_or] at h
  casesm* _ ∧ _, _ ∨ _ <;> cases ‹Except.ok _ = _› <;> rfl

theorem kindNat_eq_iff {w : EventWord} {k : Nat} (hk : k < 2 ^ 4) :
    Machine.kindNat w = k ↔ kindField w = BitVec.ofNat 4 k := by
  rw [← BitVec.toNat_inj, kindField_toNat, BitVec.toNat_ofNat, Nat.mod_eq_of_lt hk, Machine.kindNat]

theorem kindNat_eq_two_iff_of_decodeKind {e : RawEvent} {k : Event} (h : decodeKind e = .ok k) :
    Machine.kindNat e.ev = 2 ↔ ∃ a, k = .hread a := by
  rw [kindNat_eq_iff (by decide)]
  unfold decodeKind at h
  split_ifs at h <;> cases h <;> simp [*]

/-- The operation decoded is a host read exactly when the word's kind is that of an `HREAD` (R72). -/
theorem isRead_iff_of_decode {st : StCode} {cap : BitVec 32} {e : RawEvent} {i : Instr} (h : decode st cap e = .ok i) :
    i.isRead = true ↔ Machine.kindNat e.ev = 2 := by
  unfold decode at h
  split at h
  next => cases h
  next hk => cases h; simp [kindNat_eq_two_iff_of_decodeKind hk, isRead_selectTick]
  next hk => simp [kindNat_eq_two_iff_of_decodeKind hk, isRead_of_selectRead h]
  next hk => simp [kindNat_eq_two_iff_of_decodeKind hk, not_isRead_of_selectWrite h]
  next hk => cases h; simp [kindNat_eq_two_iff_of_decodeKind hk, Instr.isRead]

end Sys2Proof

namespace Sys2Proof.Machine

variable {s t : State}

/-! ### The step an input leads to -/

theorem step_of_arm {p : Nat} {rest : List Input} (hf : s.faultRec = none) (hin : s.inputs = .arm p :: rest) :
    step s = .next (setTrigger (.armed p) (dropInput rest s)) := by
  simp [step, fetch_arm hf hin]

theorem step_of_disarm {rest : List Input} (hf : s.faultRec = none) (hin : s.inputs = .disarm :: rest) :
    step s = .next (setTrigger .disarmed (dropInput rest s)) := by
  simp [step, fetch_disarm hf hin]

theorem step_of_decode_ok {e : RawEvent} {rest : List Input} {i : Instr} (hf : s.faultRec = none)
    (hin : s.inputs = .event e :: rest) (hd : decode s.st s.cap e = .ok i) : step s = exec i (takeEvent rest s) := by
  simp [step, fetch_event hf hin, hd]

theorem step_of_decode_error {e : RawEvent} {rest : List Input} {r : Reject} (hf : s.faultRec = none)
    (hin : s.inputs = .event e :: rest) (hd : decode s.st s.cap e = .error r) :
    step s = .next (withFault (.reservedEvent e.ev) (takeEvent rest s)) := by
  simp [step, fetch_event hf hin, hd, takeReserved]

/-- Settles O4: with no fault recorded the event is fetched, and its decoding chooses the operation. -/
theorem stepRunsDecodedEvent : Obligations.StepRunsDecodedEvent :=
  fun _ _ _ _ hf hin hd => step_of_decode_ok hf hin hd

/-! ### The operations with more than one ending, an equation an ending (R123, R128, R175) -/

theorem execRdBuf_written {k : BufIndex} {v : Sample} (hk : k.toNat < s.cap.toNat)
    (hv : memRead s.buf k.toNat = some v) : execRdBuf k s = .next (withResult (zext64 v) s) := by
  simp [execRdBuf, hk, hv]

theorem execRdBuf_unwritten {k : BufIndex} (hk : k.toNat < s.cap.toNat) (hv : memRead s.buf k.toNat = none) :
    execRdBuf k s = .next (withFault (.unwrittenRead k) s) := by
  simp [execRdBuf, hk, hv]

theorem execRdBuf_beyond {k : BufIndex} (hk : ¬ k.toNat < s.cap.toNat) :
    execRdBuf k s = .next (withFault (.reservedEvent (eventWord (.rdBuf k))) s) := by
  simp [execRdBuf, hk]

/-- A buffer read records a fault or returns a word, and does nothing else (R57, R175). -/
theorem execRdBuf_cases (k : BufIndex) (s : State) :
    (∃ f, execRdBuf k s = .next (withFault f s)) ∨ ∃ v, execRdBuf k s = .next (withResult v s) := by
  by_cases hk : k.toNat < s.cap.toNat
  · cases hv : memRead s.buf k.toNat with
    | some v => exact .inr ⟨_, execRdBuf_written hk hv⟩
    | none => exact .inl ⟨_, execRdBuf_unwritten hk hv⟩
  · exact .inl ⟨_, execRdBuf_beyond hk⟩

theorem execTickRun_overrun {rx : Sample} (h : 0 ≤ s.npt.toInt ∧ (s.cap.toNat : Int) ≤ s.npt.toInt) :
    execTickRun rx s = .next (withFault (.bufferOverrun s.npt) s) := by
  simp [execTickRun, h]

/-! ### Every operation answers a next state (R9) -/

theorem commit_answers (s : State) (r : Except FaultRecord State) : ∃ t, commit s r = .next t := by
  cases r with
  | ok t => exact ⟨t, rfl⟩
  | error f => exact ⟨withFault f s, rfl⟩

theorem exec_answers (i : Instr) (s : State) : ∃ t, exec i s = .next t := by
  cases i with
  | tickRun rx | wrState d | wrLen d | wrChan k d | wrSum d | wrSumsq d => exact commit_answers s _
  | rdBuf k =>
    rcases execRdBuf_cases k s with ⟨f, hfault⟩ | ⟨v, hread⟩
    · exact ⟨_, hfault⟩
    · exact ⟨_, hread⟩
  | _ => exact ⟨_, rfl⟩

/-! ### The inputs still to come

`dropInput q s` is `s` with `q` still to come, whatever `s` had: an operation does the same in both. -/

theorem commit_dropInput {q : List Input} {r r' : Except FaultRecord State} (h : commit s r = .next t)
    (hr : r' = r.map (dropInput q)) : commit (dropInput q s) r' = .next (dropInput q t) := by
  subst hr
  cases r <;> exact Host.Outcome.next.inj h ▸ rfl

theorem hostWrite_dropInput {q : List Input} {ev : EventWord} {d : DataWord} {ok : Bool}
    {r r' : Except FaultRecord State} (h : hostWrite ev d ok r s = .next t) (hr : r' = r.map (dropInput q)) :
    hostWrite ev d ok r' (dropInput q s) = .next (dropInput q t) := by
  refine commit_dropInput h ?_
  subst hr
  simp only [dropInput_st, apply_ite (Except.map (dropInput q))]
  rfl

theorem execRdBuf_dropInput {q : List Input} {k : BufIndex} (h : execRdBuf k s = .next t) :
    execRdBuf k (dropInput q s) = .next (dropInput q t) := by
  by_cases hk : k.toNat < s.cap.toNat
  · cases hv : memRead s.buf k.toNat with
    | some v =>
      rw [execRdBuf_written hk hv] at h
      exact Host.Outcome.next.inj h ▸ execRdBuf_written (s := dropInput q s) hk hv
    | none =>
      rw [execRdBuf_unwritten hk hv] at h
      exact Host.Outcome.next.inj h ▸ execRdBuf_unwritten (s := dropInput q s) hk hv
  · rw [execRdBuf_beyond hk] at h
    exact Host.Outcome.next.inj h ▸ execRdBuf_beyond (s := dropInput q s) hk

theorem execWrState_dropInput {q : List Input} {d : DataWord} (h : execWrState d s = .next t) :
    execWrState d (dropInput q s) = .next (dropInput q t) := by
  refine hostWrite_dropInput h ?_
  rw [apply_ite (Except.map (dropInput q))]
  rfl

theorem finishIfDone_dropInput (n : Int) (q : List Input) (s : State) :
    finishIfDone n (dropInput q s) = dropInput q (finishIfDone n s) := by
  rw [finishIfDone, finishIfDone, apply_ite (dropInput q)]
  rfl

theorem execTickRun_dropInput {q : List Input} {rx : Sample} (h : execTickRun rx s = .next t) :
    execTickRun rx (dropInput q s) = .next (dropInput q t) := by
  by_cases hcap : s.npt.toInt < s.cap.toNat
  · rw [execTickRun_below hcap] at h
    obtain rfl := Host.Outcome.next.inj h
    rw [execTickRun_below (s := dropInput q s) hcap, ← finishIfDone_dropInput, dropInput_npt]
    split <;> rfl
  · have hover : 0 ≤ s.npt.toInt ∧ (s.cap.toNat : Int) ≤ s.npt.toInt := by omega
    rw [execTickRun_overrun hover] at h
    exact Host.Outcome.next.inj h ▸ execTickRun_overrun (s := dropInput q s) hover

/-- An operation neither looks at the inputs still to come nor changes them. -/
theorem exec_dropInput {i : Instr} (q : List Input) (h : exec i s = .next t) :
    exec i (dropInput q s) = .next (dropInput q t) := by
  cases i with
  | tickRun rx => exact execTickRun_dropInput h
  | rdBuf k => exact execRdBuf_dropInput h
  | wrState d => exact execWrState_dropInput h
  | wrLen d | wrChan k d | wrSum d | wrSumsq d => exact hostWrite_dropInput h rfl
  | _ => exact Host.Outcome.next.inj h ▸ rfl

theorem exec_inputs {i : Instr} (h : exec i s = .next t) : t.inputs = s.inputs := by
  have hkeep : exec i s = .next (dropInput s.inputs t) := exec_dropInput s.inputs h
  rw [Host.Outcome.next.inj (h.symm.trans hkeep), dropInput_inputs]

/-! ### The result-out port -/

theorem exec_read_cases {i : Instr} (hi : i.isRead = true) (h : exec i s = .next t) :
    (∃ f, t = withFault f s) ∨ ∃ v, t = withResult v s := by
  cases i with
  | rdBuf k =>
    rcases execRdBuf_cases k s with ⟨f, hfault⟩ | ⟨v, hread⟩
    · exact .inl ⟨f, Host.Outcome.next.inj (h.symm.trans hfault)⟩
    · exact .inr ⟨v, Host.Outcome.next.inj (h.symm.trans hread)⟩
  | rdState | rdLen | rdCount | rdNpt | rdCidx | rdCap | rdChan k | rdSum | rdSumsq =>
    exact .inr ⟨_, (Host.Outcome.next.inj h).symm⟩
  | _ => cases hi

/-- A host write whose effect leaves the result-out port leaves it, whatever its checks find (R176). -/
theorem hostWrite_keeps_result {ev : EventWord} {d : DataWord} {ok : Bool} {r : Except FaultRecord State}
    (h : hostWrite ev d ok r s = .next t) (hr : ∀ u, r = .ok u → u.result = s.result) : t.result = s.result := by
  rcases hostWrite_next h with ⟨f, rfl⟩ | ⟨-, -, hok⟩
  · rfl
  · exact hr t hok

theorem execWrState_keeps_result {d : DataWord} (h : execWrState d s = .next t) : t.result = s.result := by
  refine hostWrite_keeps_result h fun u hu => ?_
  split at hu
  · exact Except.ok.inj hu ▸ rfl
  · cases hu

theorem execTickRun_keeps_result {rx : Sample} (h : execTickRun rx s = .next t) : t.result = s.result := by
  by_cases hcap : s.npt.toInt < s.cap.toNat
  · rw [execTickRun_below hcap] at h
    obtain rfl := Host.Outcome.next.inj h
    rw [finishIfDone_result, advance_result]
    split <;> rfl
  · rw [execTickRun_overrun (by omega)] at h
    exact Host.Outcome.next.inj h ▸ rfl

theorem exec_keeps_result {i : Instr} (hi : i.isRead = false) (h : exec i s = .next t) : t.result = s.result := by
  cases i with
  | tickIdle rx | tickStart rx | tickRsvd rx | reset => exact Host.Outcome.next.inj h ▸ rfl
  | tickRun rx => exact execTickRun_keeps_result h
  | wrState d => exact execWrState_keeps_result h
  | wrLen d | wrChan k d | wrSum d | wrSumsq d =>
    exact hostWrite_keeps_result h fun u hu => Except.ok.inj hu ▸ rfl
  | _ => cases hi

/-- An operation that begins with the result-out port empty and no fault leaves a word there exactly when it is a read
and records no fault (R77). -/
theorem exec_result_isSome_iff {i : Instr} (hres : s.result = none) (hf : s.faultRec = none)
    (h : exec i s = .next t) : t.result.isSome ↔ i.isRead = true ∧ t.faultRec = none := by
  cases hi : i.isRead with
  | true =>
    rcases exec_read_cases hi h with ⟨f, rfl⟩ | ⟨v, rfl⟩
    · simp [hres]
    · simp [hf]
  | false => simp [exec_keeps_result hi h, hres]

/-- Settles O6: a word that decodes runs its operation, which is a read exactly when the word's kind is 2; a word that
does not decode records a fault. -/
theorem eventsUsePorts : Obligations.EventsUsePorts := by
  intro s e rest hf hin
  cases hd : decode s.st s.cap e with
  | ok i =>
    obtain ⟨t, hx⟩ := exec_answers i (takeEvent rest s)
    refine ⟨t, (step_of_decode_ok hf hin hd).trans hx, exec_inputs hx, ?_⟩
    rw [← isRead_iff_of_decode hd]
    exact exec_result_isSome_iff (s := takeEvent rest s) rfl hf hx
  | error r => exact ⟨_, step_of_decode_error hf hin hd, rfl, by simp⟩

/-! ### Turns of the platform (R59, R160) -/

/-- A step takes the input placed in front and leaves those behind it, which have no part in what it does. -/
theorem step_place {i : Input} (h : step (place i s) = .next t) :
    t.inputs = s.inputs ∧ ∀ q, step (place i (dropInput q s)) = .next (dropInput q t) := by
  obtain ⟨hf, ⟨hnil, -⟩ | harm | hdisarm | hevent | hreserved⟩ := step_cases h
  · cases hnil
  · obtain ⟨p, rest, hin, rfl⟩ := harm
    obtain ⟨rfl, rfl⟩ := List.cons.inj hin
    exact ⟨rfl, fun q => step_of_arm (s := place _ (dropInput q s)) hf rfl⟩
  · obtain ⟨rest, hin, rfl⟩ := hdisarm
    obtain ⟨rfl, rfl⟩ := List.cons.inj hin
    exact ⟨rfl, fun q => step_of_disarm (s := place _ (dropInput q s)) hf rfl⟩
  · obtain ⟨e, rest, op, hin, hd, hx⟩ := hevent
    obtain ⟨rfl, rfl⟩ := List.cons.inj hin
    have hkeep := exec_inputs hx
    exact ⟨hkeep, fun q => (step_of_decode_ok (s := place _ (dropInput q s)) hf rfl hd).trans (exec_dropInput q hx)⟩
  · obtain ⟨e, rest, r, hin, hd, rfl⟩ := hreserved
    obtain ⟨rfl, rfl⟩ := List.cons.inj hin
    exact ⟨rfl, fun q => step_of_decode_error (s := place _ (dropInput q s)) hf rfl hd⟩

theorem runSteps_succ {k : Nat} (h : step s = .next t) : runSteps (k + 1) s = runSteps k t := by
  simp [runSteps, h]

/-- Settles O56, by induction on the turns: a turn of the block takes its line's input, put in front of the inputs that
the later turns take; any other turn leaves the block. -/
theorem turnsAreBlockSteps : Obligations.TurnsAreBlockSteps := by
  intro turns
  induction turns with
  | nil => exact fun y z h => ⟨[], by obtain rfl := Host.Outcome.next.inj h; rfl⟩
  | cons u us ih =>
    intro y z h
    obtain ⟨w, hw, hz⟩ := runTurns_cons_next.mp h
    obtain ⟨ins, hins⟩ := ih w z hz
    obtain ⟨-, rfl⟩ | ⟨l, t, -, ht, rfl⟩ := turnStep_next hw
    · exact ⟨ins, hins⟩
    · obtain ⟨hkeep, hstep⟩ := step_place ht
      refine ⟨lineInput l :: ins, ?_⟩
      rw [← hins, hkeep]
      exact runSteps_succ (hstep (ins ++ y.block.inputs))

end Sys2Proof.Machine

/-! PROOF. The lines of the text form and the encoder (30_encoding.md R53, R80): a line's word is a kind's word plus an
address, the encoder's the row's word plus a slot or an index. -/

namespace Sys2Proof.Machine

/-! ### Addresses that carry an operand (R53) -/

theorem setWidth_regAddr_chan (k : Slot) : (regAddr (.chan k)).setWidth 32 = 0x8#32 + k.setWidth 32 := by
  have := k.isLt
  apply BitVec.eq_of_toNat_eq
  simp only [regAddr, BitVec.toNat_setWidth, BitVec.toNat_add, BitVec.toNat_ofNat]
  omega

theorem setWidth_regAddr_buf (i : BufIndex) : (regAddr (.buf i)).setWidth 32 = 0x200000#32 + i.setWidth 32 := by
  have := i.isLt
  apply BitVec.eq_of_toNat_eq
  simp only [regAddr, BitVec.toNat_setWidth, BitVec.toNat_add, BitVec.toNat_ofNat]
  omega

/-! ### Lines that carry an operand (R80) -/

theorem lineInput_rd_chan (k : Slot) : lineInput (.rd (.chan k)) = .event (encode (.rdChan k)) := by
  rw [lineInput, setWidth_regAddr_chan, ← BitVec.add_assoc]
  rfl

theorem lineInput_rd_buf (i : BufIndex) : lineInput (.rd (.buf i)) = .event (encode (.rdBuf i)) := by
  rw [lineInput, setWidth_regAddr_buf, ← BitVec.add_assoc]
  rfl

theorem lineInput_wr_chan (k : Slot) (d : DataWord) :
    lineInput (.wr (.chan k) d) = .event (encode (.wrChan k d)) := by
  rw [lineInput, setWidth_regAddr_chan, ← BitVec.add_assoc]
  rfl

/-- Settles O18: a line without slot or index has the encoder's word by evaluation, the others by moving the operand out
of the address. -/
theorem textLinesStandForEvents : Obligations.TextLinesStandForEvents :=
  ⟨fun _ => rfl, rfl, rfl, rfl, rfl, rfl, rfl, lineInput_rd_chan, rfl, rfl, lineInput_rd_buf, fun _ => rfl, fun _ => rfl,
    lineInput_wr_chan, fun _ => rfl, fun _ => rfl, rfl⟩

end Sys2Proof.Machine

/-! PROOF. Ticks bring the block to Idle (41_fsm.md R130, 42_host.md R181). Under the invariant the ticks still owed until
`ST` is Idle are a number of the state, and each tick takes one off it: so a run of ticks finds Idle when they are used
up, not before, and stays there. -/

namespace Sys2Proof.Machine

variable {s t : State}

/-! ### A tick and a read of `STATE` that are taken -/

theorem decode_tick (st : StCode) (cap : BitVec 32) (rx : Sample) (d : DataWord) :
    decode st cap ⟨0x10000000#32, rx, d⟩ = .ok (selectTick st rx) := by
  have hkind : decodeKind ⟨0x10000000#32, rx, d⟩ = .ok (.tick rx) := by
    simp [decodeKind, zField, kindField, addrField]
  rw [decode, hkind]

theorem decode_rdState (st : StCode) (cap : BitVec 32) (rx : Sample) (d : DataWord) :
    decode st cap ⟨0x20000000#32, rx, d⟩ = .ok .rdState := by
  have hkind : decodeKind ⟨0x20000000#32, rx, d⟩ = .ok (.hread 0#22) := by
    simp [decodeKind, zField, kindField, addrField]
  rw [decode, hkind]
  rfl

theorem step_tick {rx : Sample} {rest : List Input} (hf : s.faultRec = none) (hin : s.inputs = tickInput rx :: rest) :
    ∃ t, step s = .next t ∧ t.inputs = rest ∧ TickEffect (takeEvent rest s) t := by
  obtain ⟨t, hx⟩ := exec_answers (selectTick s.st rx) (takeEvent rest s)
  have hmode : (selectTick s.st rx).tickMode = some (takeEvent rest s).st := selectTick_tickMode s.st rx
  exact ⟨t, (step_of_decode_ok hf hin (decode_tick s.st s.cap rx _)).trans hx, exec_inputs hx, exec_tick_effect hmode hx⟩

theorem Takes.unique {w w' : EventWord} (h : Takes w s) (h' : Takes w' s) : w = w' := by
  obtain ⟨e, rest, hin, rfl⟩ := h
  obtain ⟨e', rest', hin', rfl⟩ := h'
  obtain ⟨⟨⟩, -⟩ := List.cons.inj (hin.symm.trans hin')
  rfl

theorem takes_tick {rx : Sample} {rest : List Input} (hin : s.inputs = tickInput rx :: rest) : Takes 0x10000000#32 s :=
  ⟨_, _, hin, rfl⟩

/-! ### The ticks owed until Idle -/

/-- The ticks after which `ST` is Idle: of a run's `LEN + 3`, those its state has not had (R123, R130). -/
def ticksToIdle (s : State) : Nat :=
  if s.st = stIdle then 0
  else if s.st = stStarting then s.len.toNat + 3
  else (s.len.toNat - s.npt.toInt).toNat

theorem ticksToIdle_idle (hst : s.st = stIdle) : ticksToIdle s = 0 := if_pos hst

theorem ticksToIdle_starting (hst : s.st = stStarting) : ticksToIdle s = s.len.toNat + 3 := by
  simp [ticksToIdle, hst, stStarting_ne_stIdle]

theorem ticksToIdle_running (hst : s.st = stRunning) : ticksToIdle s = (s.len.toNat - s.npt.toInt).toNat := by
  simp [ticksToIdle, hst, stRunning_ne_stIdle, stStarting_ne_stRunning.symm]

theorem ticksToIdle_congr (hst : t.st = s.st) (hlen : t.len = s.len) (hnpt : t.npt = s.npt) :
    ticksToIdle t = ticksToIdle s := by
  rw [ticksToIdle, ticksToIdle, hst, hlen, hnpt]

theorem BlockInv.ticksToIdle_eq_zero_iff (h : BlockInv s) : ticksToIdle s = 0 ↔ s.st = stIdle := by
  rcases stCode_cases s.st with hst | hst | hst | hst
  · simp [ticksToIdle_idle hst, hst]
  · simp [ticksToIdle_starting hst, hst, stStarting_ne_stIdle]
  · have hcount := (h.countInRun hst).2
    simp only [ticksToIdle_running hst, hst, stRunning_ne_stIdle, iff_false]
    omega
  · exact absurd hst h.stateLegal

/-- A Running tick finds the counter below the capacity, so it never overruns the buffer (R129). -/
theorem BlockInv.npt_lt_cap (h : BlockInv s) (hst : s.st = stRunning) : s.npt.toInt < s.cap.toNat := by
  obtain ⟨-, hcount⟩ := h.countInRun hst
  have hlen := h.lenFitsInRun (hst ▸ stRunning_ne_stIdle)
  omega

/-- The end of a Running tick takes one off the ticks owed: the count goes on, or reaches `LEN` (R123, R126). -/
theorem BlockInv.ticksToIdle_advance_finish (h : BlockInv s) (hst : s.st = stRunning) :
    ticksToIdle (finishIfDone s.npt.toInt (advance s.npt.toInt s)) = ticksToIdle s - 1 := by
  have hcount := h.count_succ hst
  have hst' := finishIfDone_st (advance s.npt.toInt s) s.npt.toInt
  rw [ticksToIdle_running hst]
  split at hst'
  next hend =>
    have hend : (s.len.toNat : Int) ≤ s.npt.toInt + 1 := (endOfRun_iff _ _).mp hend
    rw [ticksToIdle_idle hst']
    omega
  next hend =>
    rw [ticksToIdle_running (hst'.trans hst), finishIfDone_len, finishIfDone_npt, advance_len, advance_npt, hcount]
    omega

theorem ticksToIdle_beginRun (hst : s.st = stStarting) :
    ticksToIdle { s with cidx := 0#3, npt := trunc 32 (-Config.primingBias), st := stRunning } = ticksToIdle s - 1 := by
  have hnpt : (trunc 32 (-Config.primingBias)).toInt = -2 := by decide
  rw [ticksToIdle_starting hst, ticksToIdle_running rfl]
  simp only [hnpt]
  omega

theorem ticksToIdle_pipeline (rx : Sample) (s : State) : ticksToIdle (pipeline rx s).2 = ticksToIdle s :=
  ticksToIdle_congr (pipeline_st s rx) (pipeline_len s rx) (pipeline_npt s rx)

theorem ticksToIdle_storeSample (i : Nat) (v : Sample) (s : State) : ticksToIdle (storeSample i v s) = ticksToIdle s :=
  ticksToIdle_congr (storeSample_st s i v) (storeSample_len s i v) (storeSample_npt s i v)

/-- Under the invariant a tick takes one off the ticks owed and records no fault (R124, R129). -/
theorem BlockInv.tick_ticksToIdle (h : BlockInv s) (he : TickEffect s t) :
    ticksToIdle t = ticksToIdle s - 1 ∧ t.faultRec = s.faultRec := by
  cases he with
  | idle rx hst => exact ⟨by rw [ticksToIdle_pipeline, ticksToIdle_idle hst], rfl⟩
  | start rx hst =>
    have hrun := ticksToIdle_beginRun (s := (Machine.pipeline rx s).2) hst
    exact ⟨by rw [hrun, ticksToIdle_pipeline], rfl⟩
  | store rx hst h0 hcap =>
    have hn : s.npt.toInt.toNat < s.cap.toNat := by omega
    have hrun := ((h.pipeline rx).storeSample hn rx).ticksToIdle_advance_finish hst
    rw [ticksToIdle_storeSample, ticksToIdle_pipeline, storeSample_npt, pipeline_npt] at hrun
    exact ⟨hrun, by simp⟩
  | prime rx hst h0 =>
    have hrun := (h.pipeline rx).ticksToIdle_advance_finish hst
    rw [ticksToIdle_pipeline, pipeline_npt] at hrun
    exact ⟨hrun, by simp⟩
  | overrun hst hcap => exact absurd hcap (Int.not_le.mpr (h.npt_lt_cap hst))
  | reserved hst => exact absurd hst h.stateLegal

/-! ### Runs of ticks -/

/-- Between two ticks: the invariant holds, no fault is recorded, `rest` is still to come, and `n` ticks are owed until
Idle. -/
structure TicksOwed (rest : List Input) (n : Nat) (s : State) : Prop where
  inv : BlockInv s
  noFault : s.faultRec = none
  inputs : s.inputs = rest
  owed : ticksToIdle s = n

variable {rest : List Input} {n : Nat}

theorem TicksOwed.st_eq_idle_iff (h : TicksOwed rest n s) : s.st = stIdle ↔ n = 0 := by
  rw [← h.inv.ticksToIdle_eq_zero_iff, h.owed]

theorem TicksOwed.tick {rx : Sample} (h : TicksOwed (tickInput rx :: rest) n s) :
    ∃ t, step s = .next t ∧ TicksOwed rest (n - 1) t := by
  obtain ⟨t, hstep, hin, he⟩ := step_tick h.noFault h.inputs
  have htaken : BlockInv (takeEvent rest s) := h.inv.takeEvent rest
  obtain ⟨howed, hfault⟩ := htaken.tick_ticksToIdle he
  exact ⟨t, hstep, htaken.of_tickEffect he, hfault.trans h.noFault, hin, howed.trans (congrArg (· - 1) h.owed)⟩

theorem TicksOwed.ticks {rxs : List Sample} (h : TicksOwed (tickInputs rxs ++ rest) n s) :
    ∃ t, runSteps rxs.length s = .next t ∧ TicksOwed rest (n - rxs.length) t := by
  induction rxs generalizing s n with
  | nil => exact ⟨s, rfl, h⟩
  | cons rx rxs ih =>
    obtain ⟨w, hw, hwOwed⟩ := h.tick
    obtain ⟨t, ht, htOwed⟩ := ih hwOwed
    refine ⟨t, (runSteps_succ hw).trans ht, ?_⟩
    rwa [List.length_cons, Nat.add_comm, ← Nat.sub_sub]

/-- After the first `j` of the ticks to come, the others are still to come. -/
theorem TicksOwed.ticks_take {rxs : List Sample} (h : TicksOwed (tickInputs rxs ++ rest) n s) {j : Nat}
    (hj : j ≤ rxs.length) :
    ∃ t, runSteps j s = .next t ∧ TicksOwed (tickInputs (rxs.drop j) ++ rest) (n - j) t := by
  rw [← List.take_append_drop j rxs, tickInputs, List.map_append, List.append_assoc] at h
  obtain ⟨t, ht, htOwed⟩ := TicksOwed.ticks h
  rw [List.length_take_of_le hj] at ht htOwed
  exact ⟨t, ht, htOwed⟩

/-- While ticks are left, the next input after `j` of them is a tick. -/
theorem TicksOwed.ticks_take_lt {rxs : List Sample} (h : TicksOwed (tickInputs rxs ++ rest) n s) {j : Nat}
    (hj : j < rxs.length) :
    ∃ t, runSteps j s = .next t ∧ TicksOwed (tickInput rxs[j] :: (tickInputs (rxs.drop (j + 1)) ++ rest)) (n - j) t := by
  have := h.ticks_take hj.le
  rwa [List.drop_eq_getElem_cons hj] at this

/-- As many ticks as are owed end the run, and no fewer (R130). -/
theorem TicksOwed.endsAfter {rxs : List Sample} (h : TicksOwed (tickInputs rxs ++ rest) n s) (hn : n ≠ 0)
    (hlen : n ≤ rxs.length) : ∃ t, EndsAfter n s t := by
  obtain ⟨p, hp, hpOwed⟩ := h.ticks_take_lt (j := n - 1) (by omega)
  obtain ⟨t, ht, htOwed⟩ := hpOwed.tick
  refine ⟨t, p, hn, hp, takes_tick hpOwed.inputs, ht, htOwed.st_eq_idle_iff.mpr (by omega), fun j hj => ?_⟩
  obtain ⟨q, hq, hqOwed⟩ := h.ticks_take (j := j) (by omega)
  exact ⟨q, hq, fun hidle => by have := hqOwed.st_eq_idle_iff.mp hidle; omega⟩

theorem ticksOwed_of_starting {inputs : List Input} (h : BlockInv s) (hf : s.faultRec = none) (hst : s.st = stStarting)
    (hin : s.inputs = inputs) : TicksOwed inputs (s.len.toNat + 3) s :=
  ⟨h, hf, hin, ticksToIdle_starting hst⟩

/-! ### The observation of the end -/

theorem step_rdState_idle {rx : Sample} {d : DataWord} (hf : s.faultRec = none) (hst : s.st = stIdle)
    (hin : s.inputs = .event ⟨0x20000000#32, rx, d⟩ :: rest) :
    ∃ u, step s = .next u ∧ u.result = some 0#64 ∧ u.faultRec = none := by
  refine ⟨withResult (zext64 s.st) (takeEvent rest s), step_of_decode_ok hf hin (decode_rdState _ _ rx d), ?_, hf⟩
  rw [withResult_result, hst]
  rfl

/-- Settles O47: the run ends with its last owed tick, the ticks after it leave the block Idle, and every step up to the
read takes a tick, so the read is the first. -/
theorem endIsObserved : Obligations.EndIsObserved := by
  intro rxs rx d rest p s hinv hstart hf hlen hin
  have ⟨_, _, _, hst⟩ := hstart
  have howed := ticksOwed_of_starting hinv hf hst hin
  obtain ⟨t, hend⟩ := howed.endsAfter (by omega) hlen
  obtain ⟨q, hq, hqOwed⟩ := howed.ticks
  have hidle : q.st = stIdle := hqOwed.st_eq_idle_iff.mpr (by omega)
  obtain ⟨u, hu, hresult, hfault⟩ := step_rdState_idle hqOwed.noFault hidle hqOwed.inputs
  have hfirst (j : Nat) (hj : j < rxs.length) (q' : State) (hq' : runSteps j s = .next q') :
      ¬ Takes 0x20000000#32 q' := by
    obtain ⟨w, hw, hwOwed⟩ := howed.ticks_take_lt hj
    obtain rfl := Host.Outcome.next.inj (hw.symm.trans hq')
    exact fun htakes => absurd ((takes_tick hwOwed.inputs).unique htakes) (by decide)
  have hends : RunEnds (s.len.toNat + 3) s t := ⟨⟨p, hstart⟩, hend⟩
  exact ⟨u, ⟨_, t, q, hends, by omega, hq, ⟨_, _, hqOwed.inputs, rfl⟩, hu, fun j _ hj => hfirst j hj⟩, hresult, hfault⟩

end Sys2Proof.Machine

/-! PROOF. The decoder and the encoder are inverse (30_encoding.md R70 to R75, R79). Both go by way of the four kinds of
event: the word gives the kind with its address and payload, and the address with the mode gives the row. Each of the two
halves is inverted by itself. -/

namespace Sys2Proof

open Machine

/-! ### The two halves of the decoder and of the encoder -/

/-- The row an event of a known kind selects (R74, R75). -/
def selectRow (st : StCode) (cap : BitVec 32) : Event → Except Reject Instr
  | .tick rx => .ok (selectTick st rx)
  | .hread a => selectRead cap a
  | .hwrite a d => selectWrite cap a d
  | .reset => .ok .reset

/-- The event word of a read of address `a` (R72). -/
def readWord (a : HostAddr) : EventWord := 0x20000000#32 + a.setWidth 32

/-- The event word of a write of address `a` (R72). -/
def writeWord (a : HostAddr) : EventWord := 0x30000000#32 + a.setWidth 32

/-- The event of a kind, the payload lanes the kind has no use for zero (R71, R79). -/
def encodeKind : Event → RawEvent
  | .tick rx => ⟨0x10000000#32, rx, 0#64⟩
  | .hread a => ⟨readWord a, 0#16, 0#64⟩
  | .hwrite a d => ⟨writeWord a, 0#16, d⟩
  | .reset => ⟨0x40000000#32, 0#16, 0#64⟩

/-- The event an operation stands for, by kind and address (R53, R80). -/
def Instr.event : Instr → Event
  | .tickIdle rx | .tickStart rx | .tickRun rx | .tickRsvd rx => .tick rx
  | .rdState => .hread (regAddr .state)
  | .rdLen => .hread (regAddr .len)
  | .rdCount => .hread (regAddr .count)
  | .rdNpt => .hread (regAddr .npt)
  | .rdCidx => .hread (regAddr .cidx)
  | .rdCap => .hread (regAddr .cap)
  | .rdChan k => .hread (regAddr (.chan k))
  | .rdSum => .hread (regAddr .sum)
  | .rdSumsq => .hread (regAddr .sumsq)
  | .rdBuf i => .hread (regAddr (.buf i))
  | .wrState d => .hwrite (regAddr .state) d
  | .wrLen d => .hwrite (regAddr .len) d
  | .wrChan k d => .hwrite (regAddr (.chan k)) d
  | .wrSum d => .hwrite (regAddr .sum) d
  | .wrSumsq d => .hwrite (regAddr .sumsq) d
  | .reset => .reset

theorem decode_of_decodeKind_ok {st : StCode} {cap : BitVec 32} {e : RawEvent} {k : Event} (h : decodeKind e = .ok k) :
    decode st cap e = selectRow st cap k := by
  rw [decode, h]
  cases k <;> rfl

theorem decode_of_decodeKind_error {st : StCode} {cap : BitVec 32} {e : RawEvent} {r : Reject}
    (h : decodeKind e = .error r) : decode st cap e = .error r := by
  rw [decode, h]

theorem encodeKind_event (i : Instr) : encodeKind i.event = encode i := by
  cases i with
  | rdChan k => rw [Instr.event, encodeKind, readWord, setWidth_regAddr_chan, ← BitVec.add_assoc]; rfl
  | wrChan k d => rw [Instr.event, encodeKind, writeWord, setWidth_regAddr_chan, ← BitVec.add_assoc]; rfl
  | rdBuf j => rw [Instr.event, encodeKind, readWord, setWidth_regAddr_buf, ← BitVec.add_assoc]; rfl
  | _ => rfl

/-! ### Words and kinds of event (R71, R72) -/

theorem readWord_toNat (a : HostAddr) : (readWord a).toNat = 0x20000000 + a.toNat := by
  have := a.isLt
  simp only [readWord, BitVec.toNat_add, BitVec.toNat_setWidth, BitVec.toNat_ofNat]
  omega

theorem writeWord_toNat (a : HostAddr) : (writeWord a).toNat = 0x30000000 + a.toNat := by
  have := a.isLt
  simp only [writeWord, BitVec.toNat_add, BitVec.toNat_setWidth, BitVec.toNat_ofNat]
  omega

/-- A word with nothing in `Z` has kind `k` and address `a` exactly when it is their sum (R71). -/
theorem fields_iff_toNat_eq {w : EventWord} {k : Nat} {a : HostAddr} (hk : k < 2 ^ 4) :
    zField w = 0#6 ∧ kindField w = BitVec.ofNat 4 k ∧ addrField w = a ↔ w.toNat = k * 2 ^ 28 + a.toNat := by
  have := a.isLt
  have := w.isLt
  simp only [← BitVec.toNat_inj, zField_toNat, kindField_toNat, addrField_toNat, BitVec.toNat_ofNat, Nat.mod_eq_of_lt hk]
  omega

theorem readWord_fields (a : HostAddr) :
    zField (readWord a) = 0#6 ∧ kindField (readWord a) = 2#4 ∧ addrField (readWord a) = a :=
  (fields_iff_toNat_eq (by decide)).mpr (readWord_toNat a)

theorem writeWord_fields (a : HostAddr) :
    zField (writeWord a) = 0#6 ∧ kindField (writeWord a) = 3#4 ∧ addrField (writeWord a) = a :=
  (fields_iff_toNat_eq (by decide)).mpr (writeWord_toNat a)

theorem decodeKind_hread (a : HostAddr) (rx : Sample) (d : DataWord) : decodeKind ⟨readWord a, rx, d⟩ = .ok (.hread a) := by
  obtain ⟨hz, hk, ha⟩ := readWord_fields a
  simp [decodeKind, hz, hk, ha]

theorem decodeKind_hwrite (a : HostAddr) (rx : Sample) (d : DataWord) :
    decodeKind ⟨writeWord a, rx, d⟩ = .ok (.hwrite a d) := by
  obtain ⟨hz, hk, ha⟩ := writeWord_fields a
  simp [decodeKind, hz, hk, ha]

theorem decodeKind_encodeKind (k : Event) : decodeKind (encodeKind k) = .ok k := by
  cases k with
  | tick rx => simp [encodeKind, decodeKind, zField, kindField, addrField]
  | hread a => exact decodeKind_hread a _ _
  | hwrite a d => exact decodeKind_hwrite a _ d
  | reset => simp [encodeKind, decodeKind, zField, kindField, addrField]

/-- Such a word is determined by its kind and its address. -/
theorem eq_of_fields {v w : EventWord} {k : Nat} (hk : k < 2 ^ 4) (hz : ¬ zField w ≠ 0#6)
    (hkind : kindField w = BitVec.ofNat 4 k) (hv : v.toNat = k * 2 ^ 28 + (addrField w).toNat) : v = w :=
  BitVec.eq_of_toNat_eq (hv.trans ((fields_iff_toNat_eq hk).mp ⟨not_not.mp hz, hkind, rfl⟩).symm)

/-- An event whose kind decodes is the event of that kind but for the lanes the kind ignores (R79). -/
theorem encodeKind_of_decodeKind {e : RawEvent} {k : Event} (h : decodeKind e = .ok k) : encodeKind k = e.canonical := by
  unfold decodeKind at h
  split_ifs at h with hz hk ha hk hk hk ha <;> cases h
  case pos =>
    have hw : 0x10000000#32 = e.ev := eq_of_fields (by decide) hz hk (by rw [ha]; rfl)
    simp [encodeKind, RawEvent.canonical, hk, hw]
  case pos =>
    have hw : readWord (addrField e.ev) = e.ev := eq_of_fields (by decide) hz hk (readWord_toNat _)
    simp [encodeKind, RawEvent.canonical, hk, hw]
  case pos =>
    have hw : writeWord (addrField e.ev) = e.ev := eq_of_fields (by decide) hz hk (writeWord_toNat _)
    simp [encodeKind, RawEvent.canonical, hk, hw]
  case pos =>
    have hw : 0x40000000#32 = e.ev := eq_of_fields (by decide) hz hk (by rw [ha]; rfl)
    simp [encodeKind, RawEvent.canonical, hk, hw]

/-- A kind ignores the lanes it has no use for (R79). -/
theorem decodeKind_canonical (e : RawEvent) : decodeKind e.canonical = decodeKind e := by
  simp only [decodeKind, RawEvent.canonical]
  by_cases htick : kindField e.ev = 1#4
  · simp [htick]
  by_cases hwrite : kindField e.ev = 3#4
  · simp [hwrite]
  · simp only [if_neg htick, if_neg hwrite]
    rfl

/-! ### Addresses and rows (R53, R73, R74) -/

theorem wellFormed_iff {st : StCode} {cap : BitVec 32} {i : Instr} :
    i.wellFormed st cap = true ↔ i.modeOk st = true ∧ i.indexOk cap = true := by
  rw [Instr.wellFormed, Bool.and_eq_true]

theorem regAddr_chan_toNat (k : Slot) : (regAddr (.chan k)).toNat = 8 + k.toNat := by
  have := k.isLt
  simp only [regAddr, BitVec.toNat_add, BitVec.toNat_setWidth, BitVec.toNat_ofNat]
  omega

theorem regAddr_buf_toNat (i : BufIndex) : (regAddr (.buf i)).toNat = 2 ^ 21 + i.toNat := by
  have := i.isLt
  simp only [regAddr, BitVec.toNat_add, BitVec.toNat_setWidth, BitVec.toNat_ofNat]
  omega

theorem regAddr_chan_iff {a : HostAddr} {k : Slot} : regAddr (.chan k) = a ↔ isChanAddr a = true ∧ chanSlot a = k := by
  have := k.isLt
  rw [isChanAddr_iff, ← BitVec.toNat_inj, ← BitVec.toNat_inj, regAddr_chan_toNat, chanSlot_toNat]
  omega

theorem regAddr_buf_iff {a : HostAddr} {i : BufIndex} : regAddr (.buf i) = a ↔ isBufAddr a = true ∧ bufIndex a = i := by
  have := i.isLt
  have := a.isLt
  rw [isBufAddr_iff, ← BitVec.toNat_inj, ← BitVec.toNat_inj, regAddr_buf_toNat, bufIndex_toNat]
  omega

theorem isBufAddr_regAddr_chan (k : Slot) : isBufAddr (regAddr (.chan k)) = false := by
  have := k.isLt
  rw [Bool.eq_false_iff, ne_eq, isBufAddr_iff, regAddr_chan_toNat]
  omega

/-- The row a read selects is the one of the register or entry at its address. -/
theorem event_of_selectRead {cap : BitVec 32} {a : HostAddr} {i : Instr} (h : selectRead cap a = .ok i) :
    i.event = .hread a ∧ i.indexOk cap = true := by
  simp only [selectRead, ite_eq_iff, reduceCtorEq, and_false, or_false, Except.ok.injEq] at h
  casesm* _ ∧ _, _ ∨ _ <;> subst i
  case inl hbuf hi => exact ⟨congrArg Event.hread (regAddr_buf_iff.mpr ⟨hbuf, rfl⟩), decide_eq_true hi⟩
  case inr.inl hchan => exact ⟨congrArg Event.hread (regAddr_chan_iff.mpr ⟨hchan, rfl⟩), rfl⟩
  all_goals exact ⟨congrArg Event.hread ‹a = _›.symm, rfl⟩

/-- The row a write selects is the one of the register at its address. -/
theorem event_of_selectWrite {cap : BitVec 32} {a : HostAddr} {d : DataWord} {i : Instr}
    (h : selectWrite cap a d = .ok i) : i.event = .hwrite a d ∧ i.indexOk cap = true := by
  simp only [selectWrite, ite_eq_iff, reduceCtorEq, and_false, or_false, Except.ok.injEq, false_or] at h
  casesm* _ ∧ _, _ ∨ _ <;> subst i
  case inl hchan => exact ⟨congrArg (Event.hwrite · d) (regAddr_chan_iff.mpr ⟨hchan, rfl⟩), rfl⟩
  all_goals exact ⟨congrArg (Event.hwrite · d) ‹a = _›.symm, rfl⟩

theorem modeOk_of_tickMode_none {st : StCode} {i : Instr} (h : i.tickMode = none) : i.modeOk st = true := by
  rw [Instr.modeOk, h]

/-- The row an event of a known kind selects can stand for it, and stands for no other event. -/
theorem selectRow_ok {st : StCode} {cap : BitVec 32} {k : Event} {i : Instr} (h : selectRow st cap k = .ok i) :
    i.wellFormed st cap = true ∧ i.event = k := by
  rw [wellFormed_iff]
  cases k with
  | tick rx =>
    obtain rfl := Except.ok.inj h
    rcases stCode_cases st with rfl | rfl | rfl | rfl <;> exact ⟨⟨rfl, rfl⟩, rfl⟩
  | hread a =>
    obtain ⟨hev, hi⟩ := event_of_selectRead h
    exact ⟨⟨modeOk_of_tickMode_none (selectRead_isAccess h).1, hi⟩, hev⟩
  | hwrite a d =>
    obtain ⟨hev, hi⟩ := event_of_selectWrite h
    exact ⟨⟨modeOk_of_tickMode_none (selectWrite_isAccess h).1, hi⟩, hev⟩
  | reset =>
    obtain rfl := Except.ok.inj h
    exact ⟨⟨rfl, rfl⟩, rfl⟩

theorem selectRead_chan (cap : BitVec 32) (k : Slot) : selectRead cap (regAddr (.chan k)) = .ok (.rdChan k) := by
  obtain ⟨hchan, hk⟩ := regAddr_chan_iff.mp (rfl : regAddr (.chan k) = _)
  simp [selectRead, isBufAddr_regAddr_chan, hchan, hk]

theorem selectWrite_chan (cap : BitVec 32) (k : Slot) (d : DataWord) :
    selectWrite cap (regAddr (.chan k)) d = .ok (.wrChan k d) := by
  obtain ⟨hchan, hk⟩ := regAddr_chan_iff.mp (rfl : regAddr (.chan k) = _)
  simp [selectWrite, isBufAddr_regAddr_chan, hchan, hk]

theorem selectRead_buf (cap : BitVec 32) (i : BufIndex) :
    selectRead cap (regAddr (.buf i)) = if i.toNat < cap.toNat then .ok (.rdBuf i) else .error .indexBeyondCap := by
  obtain ⟨hbuf, hi⟩ := regAddr_buf_iff.mp (rfl : regAddr (.buf i) = _)
  simp [selectRead, hbuf, hi]

/-- A well-formed operation's event selects its row: a tick's by the mode, an access's by the address. -/
theorem selectRow_event {st : StCode} {cap : BitVec 32} {i : Instr} (h : i.wellFormed st cap = true) :
    selectRow st cap i.event = .ok i := by
  obtain ⟨hmode, hindex⟩ := wellFormed_iff.mp h
  cases i with
  | tickIdle rx | tickStart rx | tickRun rx | tickRsvd rx =>
    obtain rfl : _ = st := eq_of_beq hmode
    rfl
  | rdChan k => exact selectRead_chan cap k
  | wrChan k d => exact selectWrite_chan cap k d
  | rdBuf j => exact (selectRead_buf cap j).trans (if_pos (of_decide_eq_true hindex))
  | _ => rfl

/-! ### Round trips -/

/-- Settles O13: the kind of an operation's encoding is the kind of its event, which selects the operation's own row. -/
theorem decodeEncodeRoundTrip : Obligations.DecodeEncodeRoundTrip := by
  intro st cap i h
  have hkind : decodeKind (encode i) = .ok i.event := by rw [← encodeKind_event, decodeKind_encodeKind]
  rw [decode_of_decodeKind_ok hkind, selectRow_event h]

/-- What an event decodes to is the row its kind selects. -/
theorem decodeKind_of_decode {st : StCode} {cap : BitVec 32} {e : RawEvent} {i : Instr} (h : decode st cap e = .ok i) :
    ∃ k, decodeKind e = .ok k ∧ selectRow st cap k = .ok i := by
  cases hk : decodeKind e with
  | ok k => exact ⟨k, rfl, decode_of_decodeKind_ok hk ▸ h⟩
  | error r => exact nomatch (decode_of_decodeKind_error hk).symm.trans h

/-- Settles O14: the kind decoded encodes to the event without its ignored lanes, and the row's own event is that kind. -/
theorem decodedEventIsItsEncoding : Obligations.DecodedEventIsItsEncoding := by
  intro st cap e i h
  obtain ⟨k, hk, hi⟩ := decodeKind_of_decode h
  obtain ⟨hwf, rfl⟩ := selectRow_ok hi
  exact ⟨hwf, by rw [← encodeKind_event, encodeKind_of_decodeKind hk]⟩

theorem decode_canonical (st : StCode) (cap : BitVec 32) (e : RawEvent) : decode st cap e.canonical = decode st cap e := by
  rw [decode, decode, decodeKind_canonical]

end Sys2Proof

/-! PROOF. The opcode map and the decoder agree (30_encoding.md R75, R78): a row selects a word exactly when the word decodes
to an operation of the row; so one row at most selects a word, and the words no row selects
are those that do not decode, which are the listed ones. -/

namespace Sys2Proof

open Machine

/-! ### The row's operation with an event's operands (R73, R79) -/

/-- The operation of the same row whose operands are the event's. -/
def Instr.withOperands (e : RawEvent) : Instr → Instr
  | .tickIdle _ => .tickIdle e.rx
  | .tickStart _ => .tickStart e.rx
  | .tickRun _ => .tickRun e.rx
  | .tickRsvd _ => .tickRsvd e.rx
  | .wrState _ => .wrState e.d
  | .wrLen _ => .wrLen e.d
  | .rdChan _ => .rdChan (chanSlot (addrField e.ev))
  | .wrChan _ _ => .wrChan (chanSlot (addrField e.ev)) e.d
  | .wrSum _ => .wrSum e.d
  | .wrSumsq _ => .wrSumsq e.d
  | .rdBuf _ => .rdBuf (bufIndex (addrField e.ev))
  | i => i

theorem opcodeRow_withOperands (e : RawEvent) (i : Instr) : opcodeRow (i.withOperands e) = opcodeRow i := by
  cases i <;> rfl

/-- An operation's word lies in its row, and its row's mode is its own (R74, R75). -/
theorem eventWord_in_row (i : Instr) : Laws.EventWordRow.Statement i := by
  cases i with
  | rdChan k => exact Laws.EventWordRow.rdChan k
  | wrChan k d => exact Laws.EventWordRow.wrChan k d
  | rdBuf j => exact Laws.EventWordRow.rdBuf j
  | _ => exact ⟨and_wordMask _, rfl⟩

theorem bufIndex_of_eventWord (j : BufIndex) : (eventWord (.rdBuf j)).extractLsb' 0 21 = j := by
  have := j.isLt
  apply BitVec.eq_of_toNat_eq
  rw [BitVec.extractLsb'_toNat, Nat.shiftRight_zero, eventWord, bufWord_toNat]
  omega

/-- An operation's row selects its own word exactly when the operation is well-formed. -/
theorem selects_eventWord (st : StCode) (cap : BitVec 32) (i : Instr) :
    (opcodeRow i).selects st cap (eventWord i) = i.wellFormed st cap := by
  obtain ⟨hmask, hmode⟩ := eventWord_in_row i
  have hindex : (!(opcodeRow i).boundedIndex || decide (((eventWord i).extractLsb' 0 21).toNat < cap.toNat))
      = i.indexOk cap := by
    cases i with
    | rdBuf j => rw [bufIndex_of_eventWord]; rfl
    | _ => rfl
  rw [OpcodeRow.selects, hmask, hmode, hindex, beq_self_eq_true, Bool.true_and]
  rfl

/-- The bits a row's mask leaves free are its operation's operand. -/
theorem eventWord_withOperands {e : RawEvent} {i : Instr} (h : e.ev &&& (opcodeRow i).mask = (opcodeRow i).pattern) :
    eventWord (i.withOperands e) = e.ev := by
  cases i with
  | rdChan k | wrChan k d =>
    have h := congrArg BitVec.toNat h
    simp only [opcodeRow, chanRow, and_chanMask_toNat, BitVec.toNat_ofNat] at h
    apply BitVec.eq_of_toNat_eq
    rw [Instr.withOperands, eventWord, chanWord_toNat _ (by decide), chanSlot_toNat, addrField_toNat]
    omega
  | rdBuf j =>
    have h := congrArg BitVec.toNat h
    simp only [opcodeRow, and_bufMask_toNat, BitVec.toNat_ofNat] at h
    apply BitVec.eq_of_toNat_eq
    rw [Instr.withOperands, eventWord, bufWord_toNat, bufIndex_toNat, addrField_toNat]
    omega
  | _ => exact h.symm.trans (and_wordMask e.ev)

/-- What a row selects is the word of its operation with some operands, and that operation is well-formed. -/
theorem withOperands_of_selects {st : StCode} {cap : BitVec 32} {e : RawEvent} {i : Instr}
    (h : (opcodeRow i).selects st cap e.ev = true) :
    eventWord (i.withOperands e) = e.ev ∧ (i.withOperands e).wellFormed st cap = true := by
  have hmask : e.ev &&& (opcodeRow i).mask = (opcodeRow i).pattern := by
    rw [OpcodeRow.selects, Bool.and_eq_true, Bool.and_eq_true, beq_iff_eq] at h
    obtain ⟨⟨hmask, -⟩, -⟩ := h
    exact hmask
  have hword := eventWord_withOperands hmask
  exact ⟨hword, by rw [← selects_eventWord, opcodeRow_withOperands, hword, h]⟩

/-! ### Rows and decoding -/

/-- The field `K` of a kind (R72). -/
def Event.code : Event → BitVec 4
  | .tick _ => 1#4
  | .hread _ => 2#4
  | .hwrite _ _ => 3#4
  | .reset => 4#4

theorem kindField_encodeKind (k : Event) : kindField (encodeKind k).ev = k.code := by
  cases k with
  | hread a => exact (readWord_fields a).2.1
  | hwrite a d => exact (writeWord_fields a).2.1
  | tick rx => exact (by decide : kindField 0x10000000#32 = 1#4)
  | reset => exact (by decide : kindField 0x40000000#32 = 4#4)

theorem kindField_eventWord (i : Instr) : kindField (eventWord i) = i.event.code := by
  rw [← kindField_encodeKind, encodeKind_event, encode]

theorem encode_withOperands {e : RawEvent} {i : Instr} (h : eventWord (i.withOperands e) = e.ev) :
    encode (i.withOperands e) = e.canonical := by
  rw [encode, RawEvent.canonical, ← h, kindField_eventWord, h]
  cases i <;> rfl

theorem decode_of_selects {st : StCode} {cap : BitVec 32} {e : RawEvent} {i : Instr}
    (h : (opcodeRow i).selects st cap e.ev = true) : decode st cap e = .ok (i.withOperands e) := by
  obtain ⟨hword, hwf⟩ := withOperands_of_selects h
  rw [← decode_canonical, ← encode_withOperands hword, decodeEncodeRoundTrip st cap _ hwf]

theorem selects_of_decode {st : StCode} {cap : BitVec 32} {e : RawEvent} {i : Instr} (h : decode st cap e = .ok i) :
    (opcodeRow i).selects st cap e.ev = true := by
  obtain ⟨hwf, henc⟩ := decodedEventIsItsEncoding st cap e i h
  have hword : eventWord i = e.ev := congrArg RawEvent.ev henc
  rw [← hword, selects_eventWord, hwf]

theorem opcodeRow_mem_opcodeTable (i : Instr) : opcodeRow i ∈ opcodeTable := by
  cases i <;> simp [opcodeTable, opcodeRow]

theorem opcodeTable_nodup : opcodeTable.Nodup := List.Nodup.of_map (fun r => (r.pattern, r.mode)) (by decide)

/-- Of the opcode map, the row of the operation an event decodes to and no other selects its word. -/
theorem selects_iff_eq_opcodeRow {st : StCode} {cap : BitVec 32} {e : RawEvent} {i : Instr} (h : decode st cap e = .ok i)
    {r : OpcodeRow} (hr : r ∈ opcodeTable) : r.selects st cap e.ev = true ↔ r = opcodeRow i := by
  obtain ⟨j, -, rfl⟩ := List.mem_map.mp hr
  constructor
  · intro hsel
    obtain rfl := Except.ok.inj ((decode_of_selects hsel).symm.trans h)
    rw [opcodeRow_withOperands]
  · intro heq
    rw [heq]
    exact selects_of_decode h

/-- A word no row selects is one that does not decode, and conversely. -/
theorem no_row_selects_iff {st : StCode} {cap : BitVec 32} {e : RawEvent} :
    (∀ r ∈ opcodeTable, r.selects st cap e.ev = false) ↔ ∃ r, decode st cap e = .error r := by
  constructor
  · intro h
    cases hd : decode st cap e with
    | ok i => exact absurd (selects_of_decode hd) (by simp [h _ (opcodeRow_mem_opcodeTable i)])
    | error r => exact ⟨r, rfl⟩
  · rintro ⟨reason, hd⟩ r hr
    obtain ⟨j, -, rfl⟩ := List.mem_map.mp hr
    by_contra hsel
    cases hd.symm.trans (decode_of_selects (Bool.eq_true_of_not_eq_false hsel))

/-- Settles O15: the row of the operation is the one row that selects the word, and the rows are all different. -/
theorem legalWordSelectsOneRow : Obligations.LegalWordSelectsOneRow := by
  refine fun st cap e => ⟨fun i h => ⟨opcodeRow_mem_opcodeTable i, selects_of_decode h, ?_⟩, no_row_selects_iff.mp⟩
  have hmem := opcodeRow_mem_opcodeTable i
  calc opcodeTable.countP (fun r => r.selects st cap e.ev)
      = opcodeTable.count (opcodeRow i) := List.countP_congr fun r hr => by
        rw [selects_iff_eq_opcodeRow h hr, beq_iff_eq]
    _ = 1 := List.count_eq_one_of_mem opcodeTable_nodup hmem

/-! ### The reserved words (R78) -/

/-- A choice rejects where the alternative it takes does. -/
theorem exists_error_ite {c : Prop} [Decidable c] {α β : Type} {x y : Except α β} :
    (∃ r, (if c then x else y) = .error r) ↔ (c ∧ ∃ r, x = .error r) ∨ (¬ c ∧ ∃ r, y = .error r) := by
  split <;> simp [*]

/-- The addresses a read finds reserved (R53). -/
theorem selectRead_error_iff {cap : BitVec 32} {a : HostAddr} :
    (∃ r, selectRead cap a = .error r) ↔ a.toNat = 0x6 ∨ a.toNat = 0x7 ∨ (0x12 ≤ a.toNat ∧ a.toNat < 0x200000) ∨
      0x200000 + cap.toNat ≤ a.toNat := by
  have := a.isLt
  simp only [selectRead, exists_error_ite, reduceCtorEq, Except.error.injEq, exists_eq', exists_false, and_false, and_true,
    false_or, isBufAddr_iff, isChanAddr_iff, bufIndex_toNat, ← BitVec.toNat_inj, BitVec.toNat_ofNat]
  omega

/-- The addresses a write finds reserved or read-only (R53). -/
theorem selectWrite_error_iff {cap : BitVec 32} {a : HostAddr} {d : DataWord} :
    (∃ r, selectWrite cap a d = .error r) ↔ (0x2 ≤ a.toNat ∧ a.toNat ≤ 0x7) ∨ 0x12 ≤ a.toNat := by
  have := a.isLt
  simp only [selectWrite, exists_error_ite, reduceCtorEq, Except.error.injEq, exists_eq', exists_false, and_false, and_true,
    false_or, isBufAddr_iff, isChanAddr_iff, bufIndex_toNat, ← BitVec.toNat_inj, BitVec.toNat_ofNat]
  omega

/-- Words of no kind, with something in `Z`, or of a kind without address with something in `A`. -/
theorem reservedWord_of_decodeKind_error {cap : BitVec 32} {e : RawEvent} {r : Reject} (h : decodeKind e = .error r) :
    ReservedWord cap e.ev := by
  unfold decodeKind at h
  simp only [← BitVec.toNat_inj, ne_eq, zField_toNat, kindField_toNat, addrField_toNat, BitVec.toNat_ofNat] at h
  unfold ReservedWord kindNat addrNat
  split_ifs at h <;> omega

/-- Of the words of a kind, those of reads and writes are reserved by their address alone. -/
theorem reservedWord_encodeKind_iff {st : StCode} {cap : BitVec 32} {k : Event} :
    ReservedWord cap (encodeKind k).ev ↔ ∃ r, selectRow st cap k = .error r := by
  unfold ReservedWord kindNat addrNat
  cases k with
  | tick rx => simp [encodeKind, selectRow]
  | hread a =>
    have := a.isLt
    rw [selectRow, selectRead_error_iff, encodeKind, readWord_toNat]
    omega
  | hwrite a d =>
    have := a.isLt
    rw [selectRow, selectWrite_error_iff, encodeKind, writeWord_toNat]
    omega
  | reset => simp [encodeKind, selectRow]

theorem decode_error_iff {st : StCode} {cap : BitVec 32} {e : RawEvent} :
    (∃ r, decode st cap e = .error r) ↔ ReservedWord cap e.ev := by
  cases hk : decodeKind e with
  | ok k =>
    have hev : (encodeKind k).ev = e.ev := by rw [encodeKind_of_decodeKind hk, RawEvent.canonical]
    rw [decode_of_decodeKind_ok hk, ← hev, reservedWord_encodeKind_iff]
  | error r => exact iff_of_true ⟨r, decode_of_decodeKind_error hk⟩ (reservedWord_of_decodeKind_error hk)

/-- Settles O5: no row selects a word exactly when it does not decode, and a step that takes such an event records it. -/
theorem reservedWordsFault : Obligations.ReservedWordsFault := by
  constructor
  · exact fun st cap w => (no_row_selects_iff (e := ⟨w, 0#16, 0#64⟩)).trans decode_error_iff
  · intro s e rest hf hin hres
    obtain ⟨r, hd⟩ := decode_error_iff.mpr hres
    exact ⟨_, step_of_decode_error hf hin hd, rfl⟩

/-! ### Ticks and written words (R74) -/

/-- Settles O16: the `TICK` word alone has the kind whose row `ST` selects. -/
theorem tickModeSelectsRow : Obligations.TickModeSelectsRow := by
  refine ⟨fun cap rx d => ⟨decode_tick _ cap rx d, decode_tick _ cap rx d, decode_tick _ cap rx d, decode_tick _ cap rx d⟩,
    fun st st' cap e hne => ?_⟩
  cases hk : decodeKind e with
  | ok k =>
    rw [decode_of_decodeKind_ok hk, decode_of_decodeKind_ok hk]
    cases k with
    | tick rx => exact absurd (congrArg RawEvent.ev (encodeKind_of_decodeKind hk)).symm hne
    | _ => rfl
  | error r => rw [decode_of_decodeKind_error hk, decode_of_decodeKind_error hk]

/-- Settles O17: each word is the encoding of the operation beside it. -/
theorem writtenWordsDecode : Obligations.WrittenWordsDecode :=
  ⟨decodeEncodeRoundTrip _ _ (.tickIdle _) rfl, decodeEncodeRoundTrip _ _ (.rdChan 7#3) rfl,
    decodeEncodeRoundTrip _ _ (.wrChan 0#3 _) rfl, decodeEncodeRoundTrip _ _ (.rdBuf 32767#21) rfl,
    decodeEncodeRoundTrip _ _ .reset rfl⟩

end Sys2Proof

/-! PROOF. Inputs and accesses by themselves: the platform's actions (60_exceptions.md R212), a buffer read beyond the
capacity (log 18, log 19), and the wait for Idle (30_encoding.md R81). -/

namespace Sys2Proof.Machine

/-- Settles O11: a platform action comes off the input list and sets the trigger. -/
theorem platformActionsSetTrigger : Obligations.PlatformActionsSetTrigger :=
  fun _ _ hf => ⟨fun _ hin => step_of_arm hf hin, fun hin => step_of_disarm hf hin⟩

/-- Settles O31: the word is the read of the entry's address, which the decoder and the operation each compare with
`CAP`. -/
theorem bufferReadChecksIndexAgain : Obligations.BufferReadChecksIndexAgain := by
  intro i rx d s hcap
  have hbeyond : ¬ i.toNat < s.cap.toNat := Nat.not_lt.mpr hcap
  have hword : readWord (regAddr (.buf i)) = 0x20200000#32 + i.setWidth 32 :=
    congrArg RawEvent.ev (encodeKind_event (.rdBuf i))
  refine ⟨?_, execRdBuf_beyond hbeyond⟩
  rw [← hword, decode_of_decodeKind_ok (decodeKind_hread _ rx d), selectRow, selectRead_buf, if_neg hbeyond]

/-! ### The wait loop (R81) -/

/-- The word a read of `STATE` returns is 0 in Idle alone (R20, R161). -/
theorem zext64_st_eq_zero_iff (st : StCode) : zext64 st = 0#64 ↔ st = stIdle := by
  revert st; decide

theorem callerAfter_wait_rejected {answer : Option DataWord} {c : Caller} {rest : List Command}
    (h : c.todo = .waitIdle :: rest) : (callerAfter answer c).rejected = c.rejected := by
  simp only [callerAfter, h]
  split <;> rfl

/-- A turn of a caller in the wait reads `STATE` and hears the word. -/
theorem turnStep_wait {y : Platform} {rest : List Command} (hf : y.block.faultRec = none)
    (h : y.caller.todo = .waitIdle :: rest) :
    turnStep .caller y = .next
      ⟨callerAfter (some (zext64 y.block.st)) y.caller, withResult (zext64 y.block.st) y.block⟩ := by
  have hline : turnLine .caller y.caller = some (.rd .state) := by rw [turnLine, callerLine, h]
  have hstep : step (place (lineInput (.rd .state)) y.block) = .next (withResult (zext64 y.block.st) y.block) :=
    step_of_decode_ok (s := place (lineInput (.rd .state)) y.block) hf rfl (decode_rdState _ _ _ _)
  exact turnStep_line hline hstep

/-- Settles O52: the word read is 0 exactly in Idle, and the caller leaves the wait on 0. -/
theorem waitIdleLeavesOnZero : Obligations.WaitIdleLeavesOnZero := by
  intro y rest hf htodo
  have hzero : some (zext64 y.block.st) = some 0#64 ↔ y.block.st = stIdle := by
    rw [Option.some_inj, zext64_st_eq_zero_iff]
  have hwait := callerAfter_wait (some (zext64 y.block.st)) y.caller rest htodo
  refine ⟨_, turnStep_wait hf htodo, rfl, callerAfter_wait_rejected htodo, hzero, fun hst => ?_, fun hst => ?_⟩
  · rw [hwait, if_pos (hzero.mpr hst)]
  · rw [hwait, if_neg (mt hzero.mp hst), htodo]

end Sys2Proof.Machine

/-! PROOF. The pipeliner (40_pipeliner.md R100 to R110): the exchange of a tick's phase 1, what each operation does to
`BUSLOG`, and ticks in Idle. -/

namespace Sys2Proof.Machine

variable {s t : State}

/-! ### Phase 1 and the history (R101, R109) -/

/-- Settles O19: the two CS levels, the exchange and the remembered code are written over the state the tick finds. -/
theorem pipelineExchange : Obligations.PipelineExchange := fun _ _ => rfl

theorem AccessEffect.busLog_eq (he : AccessEffect s t) : t.busLog = s.busLog := by
  cases he with
  | setChan k c hst => exact setChan_busLog s k c
  | _ => rfl

theorem exec_access_busLog {i : Instr} (h : exec i s = .next t) (hi : i.tickMode = none) (hreset : i ≠ .reset) :
    t.busLog = s.busLog :=
  (exec_access_effect hi hreset h).busLog_eq

/-- The state a Running tick that captures `rx` leaves, where it does not overrun the buffer (R123). -/
def afterRunTick (rx : Sample) (s : State) : State :=
  finishIfDone s.npt.toInt (advance s.npt.toInt
    (if 0 ≤ s.npt.toInt then storeSample s.npt.toInt.toNat rx (pipeline rx s).2 else (pipeline rx s).2))

theorem execTickRun_eq_afterRunTick (h : s.npt.toInt < s.cap.toNat) (rx : Sample) :
    execTickRun rx s = .next (afterRunTick rx s) :=
  execTickRun_below h rx

theorem afterRunTick_busLog (rx : Sample) (s : State) :
    (afterRunTick rx s).busLog = s.busLog ++ [.exchange (codeToSend s)] := by
  rw [afterRunTick, finishIfDone_busLog, advance_busLog]
  split <;> rfl

theorem execTickRun_busLog {rx : Sample} (h : execTickRun rx s = .next t) :
    t.busLog =
      if s.npt.toInt < s.cap.toNat then s.busLog ++ [.exchange (chanAt s.chan s.cidx)] else s.busLog := by
  by_cases hcap : s.npt.toInt < s.cap.toNat
  · rw [execTickRun_eq_afterRunTick hcap] at h
    rw [if_pos hcap, ← Host.Outcome.next.inj h, afterRunTick_busLog, codeToSend]
  · rw [execTickRun_overrun (by omega)] at h
    rw [if_neg hcap, ← Host.Outcome.next.inj h, withFault_busLog]

/-- Settles O40: a tick's record comes from its phase 1, and a host access has no effect that touches the history. -/
theorem busHistoryRule : Obligations.BusHistoryRule := by
  intro i s t h
  cases i with
  | tickIdle rx | tickStart rx | tickRsvd rx | reset => exact Host.Outcome.next.inj h ▸ rfl
  | tickRun rx => exact execTickRun_busLog h
  | _ => exact exec_access_busLog h rfl nofun

/-! ### The step of a tick, by the mode it finds (R74) -/

theorem step_tick_eq_exec {rx : Sample} {rest : List Input} (hf : s.faultRec = none)
    (hin : s.inputs = tickInput rx :: rest) : step s = exec (selectTick s.st rx) (takeEvent rest s) :=
  step_of_decode_ok hf hin (decode_tick s.st s.cap rx _)

/-! ### Ticks in Idle (R110) -/

/-- The state after `n` Idle ticks, at least one, with `rest` behind them. -/
def afterIdleTicks (n : Nat) (rest : List Input) (s : State) : State :=
  { s with
    inputs := rest
    result := none
    cs := .asserted
    lastTx := some (codeToSend s)
    busLog := s.busLog ++ List.replicate n (.exchange (codeToSend s)) }

theorem step_tick_idle {rx : Sample} {rest : List Input} (hf : s.faultRec = none) (hst : s.st = stIdle)
    (hin : s.inputs = tickInput rx :: rest) : step s = .next (afterIdleTicks 1 rest s) := by
  rw [step_tick_eq_exec hf hin, hst]
  rfl

/-- After an Idle tick the next ones find the same code to send. -/
theorem codeToSend_afterIdleTicks (n : Nat) (rest : List Input) (s : State) :
    codeToSend (afterIdleTicks n rest s) = codeToSend s := rfl

theorem afterIdleTicks_succ (n : Nat) (rest rest' : List Input) (s : State) :
    afterIdleTicks n rest (afterIdleTicks 1 rest' s) = afterIdleTicks (n + 1) rest s := by
  rw [afterIdleTicks, codeToSend_afterIdleTicks]
  simp [afterIdleTicks, List.replicate_succ]

theorem runSteps_idleTicks {rxs : List Sample} {rest : List Input} (hf : s.faultRec = none) (hst : s.st = stIdle)
    (hne : rxs ≠ []) (hin : s.inputs = tickInputs rxs ++ rest) :
    runSteps rxs.length s = .next (afterIdleTicks rxs.length rest s) := by
  induction rxs generalizing s with
  | nil => exact absurd rfl hne
  | cons rx rxs ih =>
    have hstep := step_tick_idle (rest := tickInputs rxs ++ rest) hf hst hin
    rw [List.length_cons, runSteps_succ hstep]
    by_cases hlast : rxs = []
    · subst hlast
      rfl
    · rw [ih (s := afterIdleTicks 1 _ s) hf hst hlast rfl, afterIdleTicks_succ]

/-- Settles O44: Idle ticks write the bus side and the model's own two ports alone. -/
theorem idleTicksRepeat : Obligations.IdleTicksRepeat :=
  fun _ _ _ hf hst hne hin => ⟨_, runSteps_idleTicks hf hst hne hin, rfl⟩

/-- Settles O45: each tick comes off the input list and empties the result-out port. -/
theorem idleTicksUsePorts : Obligations.IdleTicksUsePorts :=
  fun _ _ _ hf hst hne hin => ⟨_, runSteps_idleTicks hf hst hne hin, rfl, rfl⟩

end Sys2Proof.Machine

/-! PROOF. A run tick by tick (41_fsm.md R122, R123, R131, R134, R135): what holds after the Starting tick and `j` Running
ticks, in the terms of the state the run began in. -/

namespace Sys2Proof.Machine

variable {s t : State}

/-! ### The index follows the list (R125, R134) -/

theorem ListHolds.nextIdx_ofNat {chan : Vector Code 8} {n k : Nat} (h : ListHolds chan n) (hk : k < n) :
    nextIdx chan (BitVec.ofNat 3 k) = BitVec.ofNat 3 ((k + 1) % n) := by
  obtain ⟨-, hn8, hcode, hterm⟩ := h
  have hknat : (BitVec.ofNat 3 k).toNat = k := by rw [BitVec.toNat_ofNat]; omega
  have hsucc : BitVec.ofNat 3 k + 1#3 = BitVec.ofNat 3 (k + 1) := (BitVec.ofNat_add k 1).symm
  unfold nextIdx
  rw [hknat, hsucc]
  by_cases hwrap : k + 1 = 8
  · have hn : k + 1 = n := by omega
    rw [if_pos hwrap, hn, Nat.mod_self]
  · have hsuccNat : (BitVec.ofNat 3 (k + 1)).toNat = k + 1 := by rw [BitVec.toNat_ofNat]; omega
    rw [if_neg hwrap]
    by_cases hn : k + 1 = n
    · rw [if_pos (hterm _ (hsuccNat.trans hn)), hn, Nat.mod_self]
    · have hlt : k + 1 < n := by omega
      rw [if_neg (hcode _ (hsuccNat.trans_lt hlt)), Nat.mod_eq_of_lt hlt]

theorem ListHolds.indexAfter_eq {chan : Vector Code 8} {n : Nat} (h : ListHolds chan n) (j : Nat) :
    indexAfter chan j = BitVec.ofNat 3 (j % n) := by
  induction j with
  | zero => rw [indexAfter_zero, Nat.zero_mod]
  | succ j ih =>
    have ⟨hn, _⟩ := h
    rw [indexAfter_succ, ih, h.nextIdx_ofNat (Nat.mod_lt j hn), Nat.mod_add_mod]

/-! ### The step of a run's tick, and the fields it leaves -/

theorem step_tick_starting {rx : Sample} {rest : List Input} (hf : s.faultRec = none) (hst : s.st = stStarting)
    (hin : s.inputs = tickInput rx :: rest) :
    step s = .next { (pipeline rx (takeEvent rest s)).2 with
      cidx := 0#3, npt := trunc 32 (-Config.primingBias), st := stRunning } := by
  rw [step_tick_eq_exec hf hin, hst]
  rfl

theorem BlockInv.step_tick_running {rx : Sample} {rest : List Input} (h : BlockInv s) (hf : s.faultRec = none)
    (hst : s.st = stRunning) (hin : s.inputs = tickInput rx :: rest) :
    step s = .next (afterRunTick rx (Machine.takeEvent rest s)) := by
  rw [step_tick_eq_exec hf hin, hst]
  exact execTickRun_eq_afterRunTick (s := Machine.takeEvent rest s) (h.npt_lt_cap hst) rx

theorem afterRunTick_npt (rx : Sample) (s : State) : (afterRunTick rx s).npt = trunc 32 (s.npt.toInt + 1) := by
  rw [afterRunTick, finishIfDone_npt, advance_npt]

theorem afterRunTick_cidx (rx : Sample) (s : State) : (afterRunTick rx s).cidx = nextIdx s.chan s.cidx := by
  rw [afterRunTick, finishIfDone_cidx, advance_cidx]
  split <;> simp

theorem afterRunTick_chan (rx : Sample) (s : State) : (afterRunTick rx s).chan = s.chan := by
  rw [afterRunTick, finishIfDone_chan, advance_chan]
  split <;> simp

theorem afterRunTick_len (rx : Sample) (s : State) : (afterRunTick rx s).len = s.len := by
  rw [afterRunTick, finishIfDone_len, advance_len]
  split <;> simp

theorem afterRunTick_st_of_lt (rx : Sample) (h : s.npt.toInt + 1 < s.len.toNat) : (afterRunTick rx s).st = s.st := by
  have hgoesOn : ¬ (s.len.toNat : Int) ≤ s.npt.toInt + 1 := Int.not_le.mpr h
  rw [afterRunTick, finishIfDone_st, advance_st, advance_len]
  split <;> simp [hgoesOn]

theorem memRead_afterRunTick (rx : Sample) (s : State) (i : Nat) :
    memRead (afterRunTick rx s).buf i = if (i : Int) = s.npt.toInt then some rx else memRead s.buf i := by
  rw [afterRunTick, finishIfDone_buf, advance_buf]
  split
  next h0 =>
    rw [storeSample_buf, pipeline_buf]
    by_cases hi : (i : Int) = s.npt.toInt
    · obtain rfl : i = s.npt.toInt.toNat := by omega
      rw [if_pos hi, memRead_memWrite_same]
    · rw [if_neg hi, memRead_memWrite_other _ _ (by omega)]
  next h0 => rw [pipeline_buf, if_neg (by omega)]

/-! ### The state within a run -/

/-- The codes a run that begins in `s` sends by its Starting tick and `j` Running ticks (R134). -/
def runCodes (s : State) (j : Nat) : List Code :=
  codeToSend s :: (List.range j).map fun k => chanAt s.chan (indexAfter s.chan k)

theorem runCodes_succ (s : State) (j : Nat) :
    runCodes s (j + 1) = runCodes s j ++ [chanAt s.chan (indexAfter s.chan j)] := by
  rw [runCodes, List.range_succ, List.map_append, ← List.cons_append]
  rfl

theorem runCodes_getElem?_succ (s : State) {j k : Nat} (hk : k < j) :
    (runCodes s j)[k + 1]? = some (chanAt s.chan (indexAfter s.chan k)) := by
  simp [runCodes, hk]

/-- `t` is the state of the run that began in `s`, after its Starting tick and `j` Running ticks of those that capture
`rxs` (R123, R131). -/
structure InRun (s : State) (rxs : List Sample) (j : Nat) (t : State) : Prop where
  chan : t.chan = s.chan
  len : t.len = s.len
  running : j < s.len.toNat + 2 → t.st = stRunning
  npt : t.npt.toInt = (j : Int) - 2
  cidx : t.cidx = indexAfter s.chan j
  busLog : t.busLog = s.busLog ++ (runCodes s j).map .exchange
  buf : ∀ i, memRead t.buf i = if i + 2 < j then rxs[i + 3]? else memRead s.buf i

theorem inRun_afterStartTick (rx : Sample) (rxs : List Sample) (rest : List Input) (s : State) :
    InRun s rxs 0 { (pipeline rx (takeEvent rest s)).2 with
      cidx := 0#3, npt := trunc 32 (-Config.primingBias), st := stRunning } where
  chan := by simp
  len := by simp
  running := fun _ => rfl
  npt := (by decide : (trunc 32 (-Config.primingBias)).toInt = -2)
  cidx := rfl
  busLog := by simp [runCodes, codeToSend]
  buf := fun i => by simp

theorem InRun.takeEvent {rxs : List Sample} {j : Nat} (h : InRun s rxs j t) (rest : List Input) :
    InRun s rxs j (takeEvent rest t) := { h with }

/-- One more Running tick, the run's tick `j + 1` counted from the Starting tick as 0. -/
theorem InRun.afterRunTick {rxs : List Sample} {rx : Sample} {j : Nat} (h : InRun s rxs j t) (hinv : BlockInv t)
    (hj : j < s.len.toNat + 2) (hrx : rxs[j + 1]? = some rx) : InRun s rxs (j + 1) (afterRunTick rx t) where
  chan := (afterRunTick_chan rx t).trans h.chan
  len := (afterRunTick_len rx t).trans h.len
  running := fun hlt => by
    have hgoesOn : t.npt.toInt + 1 < t.len.toNat := by rw [h.npt, h.len]; omega
    rw [afterRunTick_st_of_lt rx hgoesOn, h.running hj]
  npt := by
    rw [afterRunTick_npt, hinv.count_succ (h.running hj), h.npt]
    omega
  cidx := by rw [afterRunTick_cidx, h.chan, h.cidx, indexAfter_succ]
  busLog := by
    have hcode : codeToSend t = chanAt s.chan (indexAfter s.chan j) := by rw [codeToSend, h.chan, h.cidx]
    rw [afterRunTick_busLog, h.busLog, hcode, runCodes_succ, List.map_append, List.append_assoc]
    rfl
  buf := fun i => by
    rw [memRead_afterRunTick, h.npt, h.buf]
    by_cases hi : i + 2 = j
    · subst hi
      rw [if_pos (by omega), if_pos (by omega), hrx]
    · have hiff : i + 2 < j ↔ i + 2 < j + 1 := by omega
      rw [if_neg (by omega), if_congr hiff rfl rfl]

/-! ### Every state of a run -/

theorem runSteps_succ_of_runSteps {k : Nat} (h : runSteps k s = .next t) : runSteps (k + 1) s = step t := by
  induction k generalizing s with
  | zero =>
    obtain rfl := Host.Outcome.next.inj h
    cases hstep : step s <;> simp [runSteps, hstep]
  | succ k ih =>
    cases hstep : step s with
    | next u => rw [runSteps_succ hstep] at h ⊢; exact ih h
    | fault f => simp [runSteps, hstep] at h
    | refused r => simp [runSteps, hstep] at h

/-- The `j`-th Running tick of a run from Starting leads to the state `InRun` describes. -/
theorem exists_inRun {rxs : List Sample} {rest : List Input} {j : Nat} (hinv : BlockInv s) (hf : s.faultRec = none)
    (hst : s.st = stStarting) (hin : s.inputs = tickInputs rxs ++ rest) (hj : j ≤ s.len.toNat + 2)
    (hlen : j < rxs.length) : ∃ t, runSteps (j + 1) s = .next t ∧ InRun s rxs j t := by
  have howed := ticksOwed_of_starting hinv hf hst hin
  induction j with
  | zero =>
    obtain ⟨s', hs', hfirst⟩ := howed.ticks_take_lt hlen
    obtain rfl := Host.Outcome.next.inj hs'
    exact ⟨_, runSteps_succ (step_tick_starting hf hst hfirst.inputs), inRun_afterStartTick _ rxs _ s⟩
  | succ j ih =>
    obtain ⟨t, ht, hrun⟩ := ih (by omega) (by omega)
    obtain ⟨t', ht', hnext⟩ := howed.ticks_take_lt hlen
    obtain rfl := Host.Outcome.next.inj (ht'.symm.trans ht)
    have hstep := hnext.inv.step_tick_running hnext.noFault (hrun.running (by omega)) hnext.inputs
    exact ⟨_, (runSteps_succ_of_runSteps ht).trans hstep,
      (hrun.takeEvent _).afterRunTick (hnext.inv.takeEvent _) (by omega) (List.getElem?_eq_getElem hlen)⟩

/-- The end of a run, after its `LEN + 3` ticks (R131). -/
theorem inRun_end {rxs : List Sample} {rest : List Input} (hinv : BlockInv s) (hf : s.faultRec = none)
    (hst : s.st = stStarting) (hin : s.inputs = tickInputs rxs ++ rest) (hlen : rxs.length = s.len.toNat + 3)
    (hend : runSteps (s.len.toNat + 3) s = .next t) : InRun s rxs (s.len.toNat + 2) t := by
  obtain ⟨t', ht', hrun⟩ := exists_inRun hinv hf hst hin le_rfl (by omega)
  obtain rfl := Host.Outcome.next.inj (ht'.symm.trans hend)
  exact hrun

/-! ### Alignment (R135) -/

theorem exchange_injective : Function.Injective BusRecord.exchange := fun _ _ => BusRecord.exchange.inj

/-- The contract's codes are those of the run's history (R107, R109). -/
theorem InRun.codes_eq {rxs : List Sample} {j : Nat} {codes : List Code} (h : InRun s rxs j t)
    (hlog : t.busLog = s.busLog ++ codes.map .exchange) : codes = runCodes s j :=
  exchange_injective.list_map (List.append_cancel_left (hlog.symm.trans h.busLog))

/-- Settles O50: entry `i` holds the word of tick `i + 3`, which converts the code of tick `i + 3 - lag`; that tick is a
Running one, and its code is the slot the index has come to. -/
theorem samplesAlignWithChannels : Obligations.SamplesAlignWithChannels := by
  intro lag n conv codes rxs rest s t hinv hf hst hin hlen hlist hend hlog hadc i hi hlag
  have hrun := inRun_end hinv hf hst hin hlen hend
  have hsent : codes[i + 3 - lag]? = some (chanAt s.chan (BitVec.ofNat 3 ((i + 2 - lag) % n))) := by
    have htick : i + 3 - lag = i + 2 - lag + 1 := by omega
    rw [hrun.codes_eq hlog, htick, runCodes_getElem?_succ s (by omega), hlist.indexAfter_eq]
  have hback : i + 3 - lag + lag = i + 3 := by omega
  have hcaptured := hadc (i + 3 - lag) (by omega) _ hsent
  rw [hrun.buf, if_pos (by omega), ← hback, hcaptured, hback]

end Sys2Proof.Machine

/-! PROOF. The four ticks (41_fsm.md R121 to R128): the word that selects each, and what each leaves; the Running tick
through the state `afterRunTick` it completes in. -/

namespace Sys2Proof.Machine

variable {s t : State}

/-! ### The Running tick's state, field by field (R123, R127) -/

theorem afterRunTick_of_nonneg (h : 0 ≤ s.npt.toInt) (rx : Sample) :
    afterRunTick rx s = finishIfDone s.npt.toInt
      (advance s.npt.toInt (storeSample s.npt.toInt.toNat rx (pipeline rx s).2)) := by
  rw [afterRunTick, if_pos h]

theorem afterRunTick_of_neg (h : s.npt.toInt < 0) (rx : Sample) :
    afterRunTick rx s = finishIfDone s.npt.toInt (advance s.npt.toInt (pipeline rx s).2) := by
  rw [afterRunTick, if_neg (Int.not_le.mpr h)]

theorem afterRunTick_st (rx : Sample) (s : State) :
    (afterRunTick rx s).st = if (s.len.toNat : Int) ≤ s.npt.toInt + 1 then stIdle else s.st := by
  rw [afterRunTick, finishIfDone_st, advance_st, advance_len]
  split <;> simp

/-- The bus side of a Running tick is phase 1's. -/
theorem afterRunTick_bus (rx : Sample) (s : State) :
    (afterRunTick rx s).cs = .asserted ∧ (afterRunTick rx s).lastTx = some (chanAt s.chan s.cidx) := by
  unfold afterRunTick
  split <;> simp [codeToSend]

/-- What a Running tick leaves alone beside the channel list and the length. -/
theorem afterRunTick_frame (rx : Sample) (s : State) :
    (afterRunTick rx s).cap = s.cap ∧ (afterRunTick rx s).faultRec = s.faultRec ∧
      (afterRunTick rx s).trigger = s.trigger ∧ (afterRunTick rx s).result = s.result ∧
      (afterRunTick rx s).inputs = s.inputs := by
  unfold afterRunTick
  split <;> simp

theorem afterRunTick_faultRec (rx : Sample) (s : State) : (afterRunTick rx s).faultRec = s.faultRec := by
  obtain ⟨-, hfault, -⟩ := afterRunTick_frame rx s
  exact hfault

theorem afterRunTick_accumulators_of_nonneg (h : 0 ≤ s.npt.toInt) (rx : Sample) :
    (afterRunTick rx s).sum = addSample s.sum rx ∧ (afterRunTick rx s).sumsq = addSquare s.sumsq rx := by
  simp [afterRunTick_of_nonneg h]

/-- A priming tick touches neither buffer nor accumulators. -/
theorem afterRunTick_store_of_neg (h : s.npt.toInt < 0) (rx : Sample) :
    (afterRunTick rx s).buf = s.buf ∧ (afterRunTick rx s).sum = s.sum ∧ (afterRunTick rx s).sumsq = s.sumsq := by
  simp [afterRunTick_of_neg h]

/-- The counter a Starting tick sets (R122). -/
theorem trunc_primingBias_toInt : (trunc 32 (-Config.primingBias)).toInt = -2 := by decide

/-! ### The four effects -/

/-- Settles O20: Idle selects `TICK.IDLE`, which is phase 1. -/
theorem idleTickEffect : Obligations.IdleTickEffect :=
  fun rx d s => ⟨fun hst => by rw [decode_tick, hst]; rfl, rfl⟩

/-- Settles O21: Starting selects `TICK.START`, which sets index, counter and mode over phase 1's state. -/
theorem startTickEffect : Obligations.StartTickEffect :=
  fun rx d s => ⟨fun hst => by rw [decode_tick, hst]; rfl, _, rfl, trunc_primingBias_toInt, rfl⟩

/-- Settles O22: Running selects `TICK.RUN`; from `CAP` on it overruns, below it each field is that of `afterRunTick`. -/
theorem runTickEffect : Obligations.RunTickEffect := by
  refine fun rx d s => ⟨fun hst => by rw [decode_tick, hst]; rfl, fun hcap => ?_, fun hcap => ?_⟩
  · exact execTickRun_overrun ⟨by omega, hcap⟩
  · obtain ⟨hcs, hlast⟩ := afterRunTick_bus rx s
    refine ⟨_, execTickRun_eq_afterRunTick hcap rx, hcs, hlast, afterRunTick_busLog rx s, afterRunTick_npt rx s,
      afterRunTick_cidx rx s, afterRunTick_st rx s, fun h0 => ?_, fun h0 => afterRunTick_store_of_neg h0 rx,
      afterRunTick_chan rx s, afterRunTick_len rx s, afterRunTick_frame rx s⟩
    obtain ⟨hsum, hsumsq⟩ := afterRunTick_accumulators_of_nonneg h0 rx
    exact ⟨memRead_afterRunTick rx s, by rw [hsum, addSample_toNat], by rw [hsumsq, addSquare_toNat]⟩

/-- Settles O23: the reserved state selects `TICK.RSVD`, which raises the fault before any effect. -/
theorem reservedTickEffect : Obligations.ReservedTickEffect :=
  fun rx d s => ⟨fun hst => by rw [decode_tick, hst]; rfl, rfl⟩

/-- Settles O24: phase 1 leaves a state free of the captured word, and a priming tick stores nothing. -/
theorem discardedCapturesLeaveNoTrace : Obligations.DiscardedCapturesLeaveNoTrace := by
  refine fun rx rx' s => ⟨rfl, rfl, fun h0 => ?_⟩
  have hrun (v : Sample) :
      exec (.tickRun v) s = .next (finishIfDone s.npt.toInt (advance s.npt.toInt (pipeline v s).2)) := by
    rw [← afterRunTick_of_neg h0 v]
    exact execTickRun_eq_afterRunTick (by omega) v
  exact (hrun rx).trans (hrun rx').symm

/-! ### The index (R125, R134) -/

/-- Settles O25: the three branches of `NextIdx`, the slot after `i` being the one whose number is one more. -/
theorem nextIndexRule : Obligations.NextIndexRule := by
  refine fun chan i => ⟨fun hlast => if_pos hlast, fun j hj => ?_⟩
  have hlt := j.isLt
  have hnotLast : ¬ i.toNat + 1 = 8 := by omega
  obtain rfl : j = i + 1#3 := by bv_omega
  exact ⟨fun hterm => by rw [nextIdx, if_neg hnotLast, if_pos hterm],
    fun hcode => by rw [nextIdx, if_neg hnotLast, if_neg hcode]⟩

/-- Settles O26: the index is the slot `j mod n`, which the eight slots hold. -/
theorem indexCyclesThroughList : Obligations.IndexCyclesThroughList := by
  intro chan n j hlist
  have ⟨hpos, hmax, _⟩ := hlist
  have hslot : j % n < 2 ^ 3 := (Nat.mod_lt j hpos).trans_le hmax
  rw [hlist.indexAfter_eq, BitVec.toNat_ofNat, Nat.mod_eq_of_lt hslot]

/-! ### Running never overruns (R129) -/

/-- Under the invariant a Running tick completes. -/
theorem BlockInv.execTickRun_eq (h : BlockInv s) (hst : s.st = stRunning) (rx : Sample) :
    execTickRun rx s = .next (afterRunTick rx s) :=
  execTickRun_eq_afterRunTick (h.npt_lt_cap hst) rx

/-- Settles O28: the bounds are the invariant's, and below the capacity a Running tick keeps `FAULT`. -/
theorem runningTickNeverOverruns : Obligations.RunningTickNeverOverruns := by
  intro rx s h hst
  obtain ⟨hlow, hhigh⟩ := h.countInRun hst
  exact ⟨hlow, hhigh, h.lenFitsInRun (hst ▸ stRunning_ne_stIdle), _, h.execTickRun_eq hst rx, afterRunTick_faultRec rx s⟩

end Sys2Proof.Machine

/-! PROOF. The accumulators (41_fsm.md R127, R133): the sums over the stored samples grow by what a tick stores, and with at
most `2^21` samples of 16 bits they stay below `2^64`. -/

namespace Sys2Proof.Machine

variable {s t : State}

/-! ### Sums over the entries -/

theorem entryNat_lt (m : Memory) (i : Nat) : entryNat m i < 2 ^ 16 := by
  unfold entryNat
  cases memRead m i with
  | none => decide
  | some v => exact v.isLt

theorem entryNat_memWrite_same (m : Memory) (i : Nat) (v : Sample) : entryNat (memWrite m i v) i = v.toNat := by
  simp [entryNat]

theorem entryNat_memWrite_other (m : Memory) {i j : Nat} (v : Sample) (h : j ≠ i) :
    entryNat (memWrite m i v) j = entryNat m j := by
  rw [entryNat, memRead_memWrite_other m v h, entryNat]

/-- A store at entry `n` adds its sample to a sum over the entries below `n`. -/
theorem sum_entries_memWrite (f : Nat → Nat) (m : Memory) (n : Nat) (v : Sample) :
    ((List.range (n + 1)).map fun i => f (entryNat (memWrite m n v) i)).sum =
      ((List.range n).map fun i => f (entryNat m i)).sum + f v.toNat := by
  have hbelow : ∀ i ∈ List.range n, f (entryNat (memWrite m n v) i) = f (entryNat m i) := fun i hi => by
    rw [entryNat_memWrite_other m v (List.mem_range.mp hi).ne]
  rw [List.sum_range_succ, List.map_congr_left hbelow, entryNat_memWrite_same]

theorem bufSum_memWrite (m : Memory) (n : Nat) (v : Sample) :
    bufSum (memWrite m n v) (n + 1) = bufSum m n + v.toNat :=
  sum_entries_memWrite id m n v

theorem bufSquares_memWrite (m : Memory) (n : Nat) (v : Sample) :
    bufSquares (memWrite m n v) (n + 1) = bufSquares m n + v.toNat * v.toNat :=
  (sum_entries_memWrite (· ^ 2) m n v).trans (by rw [sq]; rfl)

theorem sum_entries_le {f : Nat → Nat} (hf : Monotone f) (m : Memory) (n : Nat) :
    ((List.range n).map fun i => f (entryNat m i)).sum ≤ n * f (2 ^ 16) := by
  have hentry : ∀ x ∈ (List.range n).map fun i => f (entryNat m i), x ≤ f (2 ^ 16) := by
    simp only [List.mem_map]
    rintro _ ⟨i, -, rfl⟩
    exact hf (entryNat_lt m i).le
  simpa using List.sum_le_card_nsmul _ _ hentry

theorem bufSum_le (m : Memory) (n : Nat) : bufSum m n ≤ n * 2 ^ 16 := sum_entries_le monotone_id m n

theorem bufSquares_le (m : Memory) (n : Nat) : bufSquares m n ≤ n * 2 ^ 32 :=
  sum_entries_le (f := (· ^ 2)) (fun _ _ h => Nat.pow_le_pow_left h 2) m n

/-! ### The count -/

theorem countOf_toNat (npt : BitVec 32) : (countOf npt).toNat = npt.toInt.toNat := by
  unfold countOf
  omega

theorem accumulatorsExact_of_count_zero (hnpt : s.npt.toInt ≤ 0) :
    AccumulatorsExact s ↔ s.sum.toNat = 0 ∧ s.sumsq.toNat = 0 := by
  rw [AccumulatorsExact, countOf_toNat, Int.toNat_of_nonpos hnpt]
  rfl

/-! ### The Running tick keeps the sums exact -/

/-- A tick that stores adds the same to accumulators and sums, with no wrap (R127). -/
theorem AccumulatorsExact.afterRunTick_of_nonneg (h : AccumulatorsExact s) (hinv : BlockInv s) (hst : s.st = stRunning)
    (h0 : 0 ≤ s.npt.toInt) (rx : Sample) : AccumulatorsExact (afterRunTick rx s) := by
  obtain ⟨hsum, hsumsq⟩ := h
  obtain ⟨n, hn⟩ := Int.eq_ofNat_of_zero_le h0
  have hcount : (countOf s.npt).toNat = n := by rw [countOf_toNat, hn]; rfl
  have hcount' : (countOf (afterRunTick rx s).npt).toNat = n + 1 := by
    rw [countOf_toNat, afterRunTick_npt, hinv.count_succ hst, hn]
    rfl
  have hbuf : (afterRunTick rx s).buf = memWrite s.buf n rx := by
    simp [Machine.afterRunTick_of_nonneg h0, hn]
  obtain ⟨hsum', hsumsq'⟩ := afterRunTick_accumulators_of_nonneg h0 rx
  have hmax : n < 2 ^ 21 := by
    have hcap := hinv.npt_lt_cap hst
    have hcap' := hinv.capInRange.2
    simp only [Config.maxCap] at hcap'
    omega
  have hrx := rx.isLt
  have hrxsq : rx.toNat * rx.toNat < 2 ^ 16 * 2 ^ 16 := Nat.mul_lt_mul'' hrx hrx
  have hle := bufSum_le s.buf n
  have hle' := bufSquares_le s.buf n
  rw [hcount] at hsum hsumsq
  constructor
  · rw [hsum', addSample_toNat, hcount', hbuf, bufSum_memWrite, hsum]
    exact Nat.mod_eq_of_lt (by omega)
  · rw [hsumsq', addSquare_toNat, hcount', hbuf, bufSquares_memWrite, hsumsq]
    exact Nat.mod_eq_of_lt (by omega)

/-- A priming tick leaves the accumulators at 0 and the count at 0. -/
theorem AccumulatorsExact.afterRunTick_of_neg (h : AccumulatorsExact s) (hinv : BlockInv s) (hst : s.st = stRunning)
    (h0 : s.npt.toInt < 0) (rx : Sample) : AccumulatorsExact (afterRunTick rx s) := by
  obtain ⟨-, hsum, hsumsq⟩ := afterRunTick_store_of_neg h0 rx
  have hnpt : (afterRunTick rx s).npt.toInt ≤ 0 := by
    rw [afterRunTick_npt, hinv.count_succ hst]
    omega
  rw [accumulatorsExact_of_count_zero hnpt, hsum, hsumsq]
  exact (accumulatorsExact_of_count_zero h0.le).mp h

theorem AccumulatorsExact.afterRunTick (h : AccumulatorsExact s) (hinv : BlockInv s) (hst : s.st = stRunning)
    (rx : Sample) : AccumulatorsExact (afterRunTick rx s) := by
  by_cases h0 : 0 ≤ s.npt.toInt
  · exact h.afterRunTick_of_nonneg hinv hst h0 rx
  · exact h.afterRunTick_of_neg hinv hst (Int.not_le.mp h0) rx

/-- The Starting tick sets the count to 0 over cleared accumulators (R122, R180 b). -/
theorem AccumulatorsClear.afterStartTick (h : AccumulatorsClear s) (rx : Sample) :
    AccumulatorsExact { (pipeline rx s).2 with
      cidx := 0#3, npt := trunc 32 (-Config.primingBias), st := stRunning } := by
  obtain ⟨hsum, hsumsq⟩ := h
  rw [accumulatorsExact_of_count_zero (trunc_primingBias_toInt.trans_le (by decide))]
  exact ⟨congrArg BitVec.toNat hsum, congrArg BitVec.toNat hsumsq⟩

/-- Settles O27: the sums are exact over no sample after the Starting tick, and each Running tick keeps them so. -/
theorem accumulatorsStayExact : Obligations.AccumulatorsStayExact := by
  refine ⟨fun rx s t hclear hx => ?_, fun rx s t hinv hst hexact hx => ?_⟩
  · exact Host.Outcome.next.inj hx ▸ hclear.afterStartTick rx
  · exact Host.Outcome.next.inj ((hinv.execTickRun_eq hst rx).symm.trans hx) ▸ hexact.afterRunTick hinv hst rx

end Sys2Proof.Machine

/-! PROOF. A run from its start write to its end (41_fsm.md R130 to R136; 42_host.md R181), read off the ticks owed and the
state within the run. -/

namespace Sys2Proof.Machine

variable {s t : State}

theorem EndsAfter.runSteps {k : Nat} (h : EndsAfter k s t) : runSteps k s = .next t := by
  obtain ⟨p, hk, hp, -, ht, -, -⟩ := h
  obtain ⟨k, rfl⟩ := Nat.exists_eq_succ_of_ne_zero hk
  exact (runSteps_succ_of_runSteps hp).trans ht

/-- Settles O46: as many ticks are owed from Starting, so they end the run, with no fault and none left to come. -/
theorem runTakesLengthPlusThreeTicks : Obligations.RunTakesLengthPlusThreeTicks := by
  intro rxs rest s hinv hf hst hin hlen
  have howed := ticksOwed_of_starting hinv hf hst hin
  obtain ⟨t, hend⟩ := howed.endsAfter (by omega) hlen.ge
  obtain ⟨t', ht', htOwed⟩ := howed.ticks
  rw [hlen] at ht'
  obtain rfl := Host.Outcome.next.inj (ht'.symm.trans hend.runSteps)
  exact ⟨t', hend, htOwed.noFault, ht', htOwed.inputs, fun hstart => ⟨⟨hstart, hend⟩, htOwed.noFault⟩⟩

/-- Settles O48: the run's end is the state after `LEN + 2` Running ticks, with no tick owed. -/
theorem runStoresItsCaptures : Obligations.RunStoresItsCaptures := by
  intro rxs rest s t hinv hf hst hin hlen hend
  have hrun := inRun_end hinv hf hst hin hlen hend
  obtain ⟨t', ht', htOwed⟩ := (ticksOwed_of_starting hinv hf hst hin).ticks
  rw [hlen] at ht'
  obtain rfl := Host.Outcome.next.inj (ht'.symm.trans hend)
  have hnpt : t'.npt.toInt = s.len.toNat := by rw [hrun.npt]; omega
  refine ⟨htOwed.st_eq_idle_iff.mpr (by omega), hnpt, by rw [countOf, hnpt]; omega, fun i hi => ?_, fun i hi => ?_,
    hrun.cidx⟩
  · rw [hrun.buf, if_pos (by omega)]
  · rw [hrun.buf, if_neg (by omega)]

/-- Settles O49: the history at the run's end is the run's codes, and the index of Running tick `j` follows the list. -/
theorem runSendsCodesInOrder : Obligations.RunSendsCodesInOrder := by
  intro rxs rest n s t hinv hf hst hin hlen hlist hend
  rw [(inRun_end hinv hf hst hin hlen hend).busLog, runCodes]
  simp only [hlist.indexAfter_eq, List.map_cons, List.map_map]
  rfl

end Sys2Proof.Machine

/-! PROOF. A call of `runAcquisition` (42_host.md R178, R180; 41_fsm.md R133), over every interleaving of its turns with
the ticks. Up to the start write the block is Idle and the caller's writes are in place one after the other; from the start
write on the ticks are the run's, and the caller arms, waits for Idle and disarms. -/

namespace Sys2Proof.Machine

variable {s t : State} {y z : Platform} {len : BitVec 32} {words : List Sample} {rx : Sample}

/-! ### Turns (R59, R160) -/

theorem BlockInv.place (h : BlockInv s) (i : Input) : BlockInv (place i s) := { h with }

theorem BlockInv.turn {u : Turn} (h : BlockInv y.block) (hturn : turnStep u y = .next z) : BlockInv z.block := by
  obtain ⟨-, rfl⟩ | ⟨l, t, -, ht, rfl⟩ := turnStep_next hturn
  · exact h
  · exact blockInvKept _ _ (h.place _) ht

theorem turnStep_tick (h : turnStep (.tick rx) y = .next z) :
    z.caller = y.caller ∧ step (place (tickInput rx) y.block) = .next z.block := by
  obtain ⟨hline, -⟩ | ⟨l, t, hline, ht, rfl⟩ := turnStep_next h
  · cases hline
  · obtain rfl := Option.some.inj hline
    exact ⟨rfl, ht⟩

/-- A tick brings no fault to a block with the invariant. -/
theorem BlockInv.tickTurn_faultRec (h : BlockInv y.block) (hf : y.block.faultRec = none)
    (hturn : turnStep (.tick rx) y = .next z) : z.block.faultRec = none := by
  obtain ⟨-, hstep⟩ := turnStep_tick hturn
  obtain ⟨t, ht, -, he⟩ := step_tick (s := Machine.place (tickInput rx) y.block) hf rfl
  obtain rfl := Host.Outcome.next.inj (ht.symm.trans hstep)
  have htaken := (h.place (tickInput rx)).takeEvent y.block.inputs
  obtain ⟨-, hfault⟩ := htaken.tick_ticksToIdle he
  exact hfault.trans hf

/-- In Idle a tick's turn is phase 1 alone. -/
theorem turnStep_tick_idle (hf : y.block.faultRec = none) (hst : y.block.st = stIdle)
    (hturn : turnStep (.tick rx) y = .next z) : z = ⟨y.caller, afterIdleTicks 1 y.block.inputs y.block⟩ := by
  obtain ⟨hcaller, hstep⟩ := turnStep_tick hturn
  have hidle := step_tick_idle (s := Machine.place (tickInput rx) y.block) hf hst rfl
  obtain ⟨caller, block⟩ := z
  obtain rfl : caller = y.caller := hcaller
  obtain rfl := Host.Outcome.next.inj (hidle.symm.trans hstep)
  rfl

/-- A caller's line is done after its turn, and the block has taken its input. -/
theorem turnStep_lineDone {l : Line} {rest : List Command} (htodo : y.caller.todo = .line l :: rest)
    (ht : step (place (lineInput l) y.block) = .next t) (hturn : turnStep .caller y = .next z) :
    z.block = t ∧ z.caller.todo = rest := by
  have hline : turnLine .caller y.caller = some l := by rw [turnLine, callerLine, htodo]
  obtain rfl := Host.Outcome.next.inj ((turnStep_line hline ht).symm.trans hturn)
  exact ⟨rfl, by simp [turnCaller, callerAfter, htodo]⟩

/-- A caller with nothing more to do stays where it is. -/
theorem turnStep_callerDone (htodo : y.caller.todo = []) (hturn : turnStep .caller y = .next z) :
    z.block = y.block ∧ z.caller.todo = [] ∧ z.caller.rejected = y.caller.rejected := by
  have hsilent : turnLine .caller y.caller = none := by rw [turnLine, callerLine, htodo]
  obtain rfl := Host.Outcome.next.inj ((turnStep_silent hsilent).symm.trans hturn)
  simp [turnCaller, callerAfter, htodo]

/-! ### The run, tick by tick (R123, R133) -/

/-- The samples a run has stored, of the words its ticks captured from the Starting tick on: the accumulators are exact,
and entry `i` holds the word of tick `i + 3`. -/
structure Stored (words : List Sample) (s : State) : Prop where
  exact : AccumulatorsExact s
  entries : ∀ i : Nat, (i : Int) < s.npt.toInt → memRead s.buf i = words[i + 3]?

/-- Where a run of length `len` is after the ticks that captured `words`, the Starting tick being the first. -/
inductive RunAt (len : BitVec 32) (words : List Sample) (s : State) : Prop
  | starting (hst : s.st = stStarting) (hlen : s.len = len) (hclear : AccumulatorsClear s) (hwords : words = [])
  | running (hst : s.st = stRunning) (hlen : s.len = len) (hnpt : s.npt.toInt + 3 = words.length)
      (hstored : Stored words s)
  | ended (hst : s.st = stIdle) (hnpt : s.npt.toInt = len.toNat) (hwords : len.toNat + 3 ≤ words.length)
      (hstored : Stored words s)

/-- The ports and the trigger have no part in where the run is. -/
theorem RunAt.ports (h : RunAt len words s) (r : Option DataWord) (g : Trigger) (q : List Input) :
    RunAt len words { s with result := r, trigger := g, inputs := q } := by
  cases h with
  | starting hst hlen hclear hwords => exact .starting hst hlen hclear hwords
  | running hst hlen hnpt hstored => exact .running hst hlen hnpt { hstored with }
  | ended hst hnpt hwords hstored => exact .ended hst hnpt hwords { hstored with }

/-- A word more changes nothing for the entries that are stored. -/
theorem Stored.append (h : Stored words s) (hwords : s.npt.toInt + 3 ≤ words.length) (rx : Sample) :
    Stored (words ++ [rx]) s where
  exact := h.exact
  entries := fun i hi => by rw [h.entries i hi, List.getElem?_append_left (by omega)]

/-- A Running tick stores its word as the entry the counter names, if that is not negative. -/
theorem Stored.afterRunTick (h : Stored words s) (hinv : BlockInv s) (hst : s.st = stRunning)
    (hnpt : s.npt.toInt + 3 = words.length) (rx : Sample) : Stored (words ++ [rx]) (afterRunTick rx s) where
  exact := h.exact.afterRunTick hinv hst rx
  entries := fun i hi => by
    rw [afterRunTick_npt, hinv.count_succ hst] at hi
    rw [memRead_afterRunTick]
    by_cases hlast : (i : Int) = s.npt.toInt
    · have hpos : i + 3 = words.length := by omega
      rw [if_pos hlast, hpos, List.getElem?_concat_length]
    · rw [if_neg hlast, (h.append hnpt.le rx).entries i (by omega)]

theorem runAt_afterRunTick (hinv : BlockInv s) (hst : s.st = stRunning) (hlen : s.len = len)
    (hnpt : s.npt.toInt + 3 = words.length) (hstored : Stored words s) (rx : Sample) :
    RunAt len (words ++ [rx]) (afterRunTick rx s) := by
  obtain ⟨-, hcount⟩ := hinv.countInRun hst
  have hstored' := hstored.afterRunTick hinv hst hnpt rx
  have hnpt' : (afterRunTick rx s).npt.toInt = s.npt.toInt + 1 := by
    rw [afterRunTick_npt, hinv.count_succ hst]
  have hst' := afterRunTick_st rx s
  have hlength : (words ++ [rx]).length = words.length + 1 := List.length_append
  subst hlen
  split at hst'
  next hend => exact .ended hst' (by omega) (by omega) hstored'
  next hgoesOn => exact .running (hst'.trans hst) (afterRunTick_len rx s) (by omega) hstored'

/-- Each tick is the run's next one; those after the end find the block Idle and store nothing. -/
theorem RunAt.tick (h : RunAt len words s) (hinv : BlockInv s) (hf : s.faultRec = none)
    (hstep : step (place (tickInput rx) s) = .next t) : RunAt len (words ++ [rx]) t := by
  cases h with
  | starting hst hlen hclear hwords =>
    have hstart := Host.Outcome.next.inj
      ((step_tick_starting (s := Machine.place (tickInput rx) s) hf hst rfl).symm.trans hstep)
    have hin : InRun (Machine.place (tickInput rx) s) [rx] 0 t := hstart ▸ inRun_afterStartTick rx [rx] _ _
    have hexact : AccumulatorsExact t :=
      hstart ▸ AccumulatorsClear.afterStartTick (s := takeEvent s.inputs s) hclear rx
    have hnpt : t.npt.toInt = -2 := hin.npt
    subst hwords
    exact .running (hin.running (by omega)) (hin.len.trans hlen) (by rw [hnpt]; rfl) ⟨hexact, fun i hi => by omega⟩
  | running hst hlen hnpt hstored =>
    have hrun := (hinv.place (tickInput rx)).step_tick_running hf hst rfl
    obtain rfl := Host.Outcome.next.inj (hrun.symm.trans hstep)
    exact runAt_afterRunTick (s := takeEvent s.inputs s) (hinv.takeEvent _) hst hlen hnpt { hstored with } rx
  | ended hst hnpt hwords hstored =>
    have hidle := step_tick_idle (s := Machine.place (tickInput rx) s) hf hst rfl
    obtain rfl := Host.Outcome.next.inj (hidle.symm.trans hstep)
    exact .ended hst hnpt (by rw [List.length_append]; omega) { hstored.append (by omega) rx with }

/-! ### The caller from the start write on -/

/-- Where the caller is once it has started the run: it disarms the trigger after the wait, which it leaves in Idle. -/
inductive CallerInRun (fs : Rat) (y : Platform) : Prop
  | arms (htodo : y.caller.todo = [.line (.arm (armPeriod fs)), .waitIdle, .line .disarm])
  | waits (htodo : y.caller.todo = [.waitIdle, .line .disarm])
  | disarms (htodo : y.caller.todo = [.line .disarm]) (hst : y.block.st = stIdle)
  | returned (htodo : y.caller.todo = []) (hst : y.block.st = stIdle) (hdisarmed : y.block.trigger = .disarmed)

/-- What holds from the start write on, after the ticks that captured `words`. -/
structure AfterStart (len : BitVec 32) (fs : Rat) (words : List Sample) (y : Platform) : Prop where
  inv : BlockInv y.block
  noFault : y.block.faultRec = none
  run : RunAt len words y.block
  caller : CallerInRun fs y

variable {fs : Rat}

theorem CallerInRun.tick (h : CallerInRun fs y) (hf : y.block.faultRec = none)
    (hturn : turnStep (.tick rx) y = .next z) : CallerInRun fs z := by
  obtain ⟨hcaller, -⟩ := turnStep_tick hturn
  cases h with
  | arms htodo => exact .arms (hcaller ▸ htodo)
  | waits htodo => exact .waits (hcaller ▸ htodo)
  | disarms htodo hst =>
    obtain rfl := turnStep_tick_idle hf hst hturn
    exact .disarms htodo hst
  | returned htodo hst hdisarmed =>
    obtain rfl := turnStep_tick_idle hf hst hturn
    exact .returned htodo hst hdisarmed

theorem AfterStart.tick (h : AfterStart len fs words y) (hturn : turnStep (.tick rx) y = .next z) :
    AfterStart len fs (words ++ [rx]) z where
  inv := h.inv.turn hturn
  noFault := h.inv.tickTurn_faultRec h.noFault hturn
  run := h.run.tick h.inv h.noFault (turnStep_tick hturn).2
  caller := h.caller.tick h.noFault hturn

/-- The caller's own turns leave the run where it is. -/
theorem AfterStart.callerTurn (h : AfterStart len fs words y) (hturn : turnStep .caller y = .next z) :
    AfterStart len fs words z := by
  have ⟨hinv, hf, hrun, hcaller⟩ := h
  have hinv' := hinv.turn hturn
  cases hcaller with
  | arms htodo =>
    have harm := step_of_arm (s := place (.arm (armPeriod fs)) y.block) hf rfl
    obtain ⟨hblock, htodo'⟩ := turnStep_lineDone htodo harm hturn
    exact ⟨hinv', hblock ▸ hf, hblock ▸ hrun.ports _ _ _, .waits htodo'⟩
  | waits htodo =>
    obtain ⟨w, hw, hblock, -, -, hleaves, hstays⟩ := waitIdleLeavesOnZero y _ hf htodo
    obtain rfl := Host.Outcome.next.inj (hw.symm.trans hturn)
    refine ⟨hinv', (congrArg State.faultRec hblock).trans hf, by rw [hblock]; exact hrun.ports _ _ _, ?_⟩
    by_cases hst : y.block.st = stIdle
    · exact .disarms (hleaves hst) ((congrArg State.st hblock).trans hst)
    · exact .waits (hstays hst)
  | disarms htodo hst =>
    have hdisarm := step_of_disarm (s := place .disarm y.block) hf rfl
    obtain ⟨hblock, htodo'⟩ := turnStep_lineDone htodo hdisarm hturn
    exact ⟨hinv', hblock ▸ hf, hblock ▸ hrun.ports _ _ _, .returned htodo' (hblock ▸ hst) (hblock ▸ rfl)⟩
  | returned htodo hst hdisarmed =>
    obtain ⟨hblock, htodo', -⟩ := turnStep_callerDone htodo hturn
    exact ⟨hinv', hblock ▸ hf, hblock ▸ hrun, .returned htodo' (hblock ▸ hst) (hblock ▸ hdisarmed)⟩

/-- All ticks after the start write are the run's. -/
theorem AfterStart.turns {us : List Turn} (h : AfterStart len fs words y) (hreset : .reset ∉ us)
    (hturns : runTurns us y = .next z) : AfterStart len fs (words ++ tickWords us) z := by
  induction us generalizing y words with
  | nil =>
    obtain rfl := Host.Outcome.next.inj hturns
    simpa [tickWords] using h
  | cons u us ih =>
    obtain ⟨w, hw, hz⟩ := runTurns_cons_next.mp hturns
    have hreset' : .reset ∉ us := fun hmem => hreset (List.mem_cons_of_mem _ hmem)
    cases u with
    | tick rx => simpa [tickWords] using ih (h.tick hw) hreset' hz
    | caller => exact ih (h.callerTurn hw) hreset' hz
    | reset => exact absurd List.mem_cons_self hreset

/-- What a run has delivered once the caller has nothing more to do (R178). -/
theorem AfterStart.delivered (h : AfterStart len fs words y) (htodo : y.caller.todo = []) :
    y.block.st = stIdle ∧ y.block.trigger = .disarmed ∧ countOf y.block.npt = len.toNat ∧
      AccumulatorsExact y.block ∧ len.toNat + 3 ≤ words.length ∧
      ∀ i < len.toNat, memRead y.block.buf i = words[i + 3]? := by
  have ⟨_, _, hrun, hcaller⟩ := h
  obtain htodo' | htodo' | ⟨htodo', -⟩ | ⟨-, hst, hdisarmed⟩ := hcaller
  · cases htodo'.symm.trans htodo
  · cases htodo'.symm.trans htodo
  · cases htodo'.symm.trans htodo
  obtain ⟨hst', -⟩ | ⟨hst', -⟩ | ⟨-, hnpt, hwords, hexact, hentries⟩ := hrun
  · exact absurd (hst'.symm.trans hst) stStarting_ne_stIdle
  · exact absurd (hst'.symm.trans hst) stRunning_ne_stIdle
  exact ⟨hst, hdisarmed, by rw [countOf, hnpt]; omega, hexact, hwords, fun i hi => hentries i (by omega)⟩

/-! ### The caller's accesses in Idle (R162, R164, R168, R172, R174) -/

/-- The block takes an operation that a caller's line stands for. -/
theorem step_place_encode {i : Instr} (hf : s.faultRec = none) (hi : i.wellFormed s.st s.cap = true) :
    step (place (.event (encode i)) s) = exec i (takeEvent s.inputs s) :=
  step_of_decode_ok (s := place (.event (encode i)) s) hf rfl (decodeEncodeRoundTrip s.st s.cap i hi)

theorem step_rdCap (hf : s.faultRec = none) :
    step (place (lineInput (.rd .cap)) s) = .next (withResult (zext64 s.cap) (takeEvent s.inputs s)) :=
  step_place_encode (i := .rdCap) hf rfl

theorem step_wrLen (hf : s.faultRec = none) (hst : s.st = stIdle) (len : BitVec 32) :
    step (place (lineInput (.wr .len (len.setWidth 64))) s) = .next { takeEvent s.inputs s with len := len } := by
  have hnat : (len.setWidth 64).toNat = len.toNat := zext64_toNat (by decide) len
  have hdata : lenOfData (len.setWidth 64) = len := by
    rw [← BitVec.toNat_inj, lenOfData_toNat, hnat, Nat.mod_eq_of_lt len.isLt]
  refine (step_place_encode (i := .wrLen (len.setWidth 64)) hf rfl).trans ?_
  rw [exec, execWrLen, lenDataOk_iff.mpr (hnat.trans_lt len.isLt), hostWrite_legal (s := takeEvent s.inputs s) hst,
    commit_ok, hdata]

theorem step_clearSum (hf : s.faultRec = none) (hst : s.st = stIdle) :
    step (place (lineInput (.wr .sum 0#64)) s) = .next { takeEvent s.inputs s with sum := 0#64 } :=
  (step_place_encode (i := .wrSum 0#64) hf rfl).trans (hostWrite_legal (s := takeEvent s.inputs s) hst)

theorem step_clearSumsq (hf : s.faultRec = none) (hst : s.st = stIdle) :
    step (place (lineInput (.wr .sumsq 0#64)) s) = .next { takeEvent s.inputs s with sumsq := 0#64 } :=
  (step_place_encode (i := .wrSumsq 0#64) hf rfl).trans (hostWrite_legal (s := takeEvent s.inputs s) hst)

theorem step_start (hf : s.faultRec = none) (hst : s.st = stIdle) (hlen : s.len.toNat ≤ s.cap.toNat) :
    step (place (lineInput (.wr .state 1#64)) s) = .next { takeEvent s.inputs s with st := stStarting } := by
  have hfits : lenFits (takeEvent s.inputs s) = true := (lenFits_iff _).mpr hlen
  refine (step_place_encode (i := .wrState 1#64) hf rfl).trans ?_
  refine (hostWrite_legal (s := takeEvent s.inputs s) hst).trans ?_
  rw [if_pos hfits, commit_ok]

/-! ### The caller up to the start write -/

variable {timing : Timing} {g : Trigger} {k : Nat}

/-- What holds once the first `k` commands of `runAcquisition` are done, the start write not among them: the block is Idle
and what they checked and wrote is in place. -/
structure Preparing (len : BitVec 32) (fs : Rat) (timing : Timing) (g : Trigger) (k : Nat) (y : Platform) : Prop where
  early : k ≤ 5
  todo : y.caller.todo = (runAcquisition len fs timing).drop k
  inv : BlockInv y.block
  noFault : y.block.faultRec = none
  idle : y.block.st = stIdle
  trigger : y.block.trigger = g
  fits : 1 ≤ k → len.toNat ≤ y.block.cap.toNat
  lenSet : 3 ≤ k → y.block.len = len
  sumClear : 4 ≤ k → y.block.sum = 0#64
  sumsqClear : 5 ≤ k → y.block.sumsq = 0#64

/-- The caller has ended with a configuration error (R178). -/
def Rejected (c : Caller) : Prop := c.todo = [] ∧ c.rejected = true

theorem Preparing.todo_ne_nil (h : Preparing len fs timing g k y) : y.caller.todo ≠ [] := by
  have hlength : (runAcquisition len fs timing).length = 9 := rfl
  have hearly := h.early
  rw [h.todo, ne_eq, List.drop_eq_nil_iff]
  omega

theorem Preparing.tick (h : Preparing len fs timing g k y) (hturn : turnStep (.tick rx) y = .next z) :
    Preparing len fs timing g k z := by
  have hinv := h.inv.turn hturn
  obtain rfl := turnStep_tick_idle h.noFault h.idle hturn
  exact { h with inv := hinv }

theorem Preparing.checkCap (h : Preparing len fs timing g 0 y) (hturn : turnStep .caller y = .next z) :
    Rejected z.caller ∨ Preparing len fs timing g 1 z := by
  have htodo : y.caller.todo = .checkCap len :: (runAcquisition len fs timing).drop 1 := h.todo
  have hinv := h.inv.turn hturn
  have hline : turnLine .caller y.caller = some (.rd .cap) := by rw [turnLine, callerLine, htodo]
  obtain rfl := Host.Outcome.next.inj ((turnStep_line hline (step_rdCap h.noFault)).symm.trans hturn)
  have hcap : (zext64 y.block.cap).toNat = y.block.cap.toNat := zext64_toNat (by decide) _
  by_cases hfits : capacityHolds len (some (zext64 y.block.cap)) = true
  · exact .inr { h with
      early := by decide
      todo := by simp [turnCaller, callerAfter, htodo, answerTo, hfits]
      inv := hinv
      fits := fun _ => (capacityHolds_iff.mp hfits).trans_eq hcap
      lenSet := nofun
      sumClear := nofun
      sumsqClear := nofun }
  · exact .inl (by simp [Rejected, turnCaller, callerAfter, htodo, answerTo, hfits, reject])

theorem Preparing.checkMargin (h : Preparing len fs timing g 1 y) (hturn : turnStep .caller y = .next z) :
    Rejected z.caller ∨ Preparing len fs timing g 2 z := by
  have htodo : y.caller.todo = .checkMargin timing (armPeriod fs) :: (runAcquisition len fs timing).drop 2 := h.todo
  have hinv := h.inv.turn hturn
  have hsilent : turnLine .caller y.caller = none := by rw [turnLine, callerLine, htodo]
  obtain rfl := Host.Outcome.next.inj ((turnStep_silent hsilent).symm.trans hturn)
  by_cases hmargin : timingMargin timing (armPeriod fs) = true
  · exact .inr { h with
      early := by decide
      todo := by simp [turnCaller, callerAfter, htodo, hmargin]
      inv := hinv
      fits := fun _ => h.fits le_rfl
      lenSet := nofun
      sumClear := nofun
      sumsqClear := nofun }
  · exact .inl (by simp [Rejected, turnCaller, callerAfter, htodo, hmargin, reject])

theorem Preparing.setLen (h : Preparing len fs timing g 2 y) (hturn : turnStep .caller y = .next z) :
    Preparing len fs timing g 3 z := by
  have hinv := h.inv.turn hturn
  obtain ⟨caller, block⟩ := z
  obtain ⟨rfl, htodo⟩ := turnStep_lineDone h.todo (step_wrLen h.noFault h.idle len) hturn
  exact { h with
    early := by decide
    todo := htodo
    inv := hinv
    fits := fun _ => h.fits (by decide)
    lenSet := fun _ => rfl
    sumClear := nofun
    sumsqClear := nofun }

theorem Preparing.clearSum (h : Preparing len fs timing g 3 y) (hturn : turnStep .caller y = .next z) :
    Preparing len fs timing g 4 z := by
  have hinv := h.inv.turn hturn
  obtain ⟨caller, block⟩ := z
  obtain ⟨rfl, htodo⟩ := turnStep_lineDone h.todo (step_clearSum h.noFault h.idle) hturn
  exact { h with
    early := by decide
    todo := htodo
    inv := hinv
    fits := fun _ => h.fits (by decide)
    lenSet := fun _ => h.lenSet le_rfl
    sumClear := fun _ => rfl
    sumsqClear := nofun }

theorem Preparing.clearSumsq (h : Preparing len fs timing g 4 y) (hturn : turnStep .caller y = .next z) :
    Preparing len fs timing g 5 z := by
  have hinv := h.inv.turn hturn
  obtain ⟨caller, block⟩ := z
  obtain ⟨rfl, htodo⟩ := turnStep_lineDone h.todo (step_clearSumsq h.noFault h.idle) hturn
  exact { h with
    early := by decide
    todo := htodo
    inv := hinv
    fits := fun _ => h.fits (by decide)
    lenSet := fun _ => h.lenSet (by decide)
    sumClear := fun _ => h.sumClear le_rfl
    sumsqClear := fun _ => rfl }

theorem Preparing.start (h : Preparing len fs timing g 5 y) (hturn : turnStep .caller y = .next z) :
    AfterStart len fs [] z := by
  have hinv := h.inv.turn hturn
  have hlen := h.lenSet (by decide)
  have hfits : y.block.len.toNat ≤ y.block.cap.toNat := hlen ▸ h.fits (by decide)
  obtain ⟨caller, block⟩ := z
  obtain ⟨rfl, htodo⟩ := turnStep_lineDone h.todo (step_start h.noFault h.idle hfits) hturn
  have hclear : AccumulatorsClear y.block := ⟨h.sumClear (by decide), h.sumsqClear le_rfl⟩
  exact ⟨hinv, h.noFault, .starting rfl hlen hclear rfl, .arms htodo⟩

/-- What a turn of the caller before the start write can lead to. -/
theorem Preparing.callerTurn (h : Preparing len fs timing g k y) (hturn : turnStep .caller y = .next z) :
    Rejected z.caller ∨ (∃ j, Preparing len fs timing g j z) ∨ AfterStart len fs [] z := by
  match k, h.early with
  | 0, _ => exact (h.checkCap hturn).imp_right fun hnext => .inl ⟨1, hnext⟩
  | 1, _ => exact (h.checkMargin hturn).imp_right fun hnext => .inl ⟨2, hnext⟩
  | 2, _ => exact .inr (.inl ⟨3, h.setLen hturn⟩)
  | 3, _ => exact .inr (.inl ⟨4, h.clearSum hturn⟩)
  | 4, _ => exact .inr (.inl ⟨5, h.clearSumsq hturn⟩)
  | 5, _ => exact .inr (.inr (h.start hturn))

/-! ### The whole call -/

theorem Rejected.turn {u : Turn} (h : Rejected y.caller) (hturn : turnStep u y = .next z) : Rejected z.caller := by
  have ⟨htodo, hrejected⟩ := h
  have hkeeps (answer : Option DataWord) : Rejected (turnCaller u answer y.caller) := by
    cases u with
    | caller => simp [Rejected, turnCaller, callerAfter, htodo, hrejected]
    | tick rx => exact h
    | reset => exact h
  obtain ⟨-, rfl⟩ | ⟨l, t, -, -, rfl⟩ := turnStep_next hturn
  · exact hkeeps _
  · exact hkeeps _

theorem Rejected.turns {us : List Turn} (h : Rejected y.caller) (hturns : runTurns us y = .next z) :
    Rejected z.caller := by
  induction us generalizing y with
  | nil => exact Host.Outcome.next.inj hturns ▸ h
  | cons u us ih =>
    obtain ⟨w, hw, hz⟩ := runTurns_cons_next.mp hturns
    exact ih (h.turn hw) hz

/-- A call that returns without rejecting has made its start write; the ticks before it are none where the trigger was
disarmed and kept silent. -/
theorem Preparing.returns {us : List Turn} (h : Preparing len fs timing g k y) (hreset : .reset ∉ us)
    (hturns : runTurns us y = .next z) (htodo : z.caller.todo = []) (hrejected : z.caller.rejected = false) :
    ∃ before words, tickWords us = before ++ words ∧ AfterStart len fs words z ∧
      (g = .disarmed → TicksOnlyArmed us y → before = []) := by
  induction us generalizing y k with
  | nil =>
    obtain rfl := Host.Outcome.next.inj hturns
    exact absurd htodo h.todo_ne_nil
  | cons u us ih =>
    obtain ⟨w, hw, hz⟩ := runTurns_cons_next.mp hturns
    have hreset' : .reset ∉ us := fun hmem => hreset (List.mem_cons_of_mem _ hmem)
    cases u with
    | tick rx =>
      obtain ⟨before, words, hwords, hafter, -⟩ := ih (h.tick hw) hreset' hz
      refine ⟨rx :: before, words, congrArg (rx :: ·) hwords, hafter, fun hg honly => ?_⟩
      obtain ⟨hsilent, -⟩ := honly
      exact absurd (h.trigger.trans hg) (hsilent rx rfl)
    | caller =>
      obtain hreject | ⟨j, hnext⟩ | hstart := h.callerTurn hw
      · obtain ⟨-, hrejected'⟩ := hreject.turns hz
        exact absurd (hrejected.symm.trans hrejected') Bool.false_ne_true
      · obtain ⟨before, words, hwords, hafter, hbefore⟩ := ih hnext hreset' hz
        exact ⟨before, words, hwords, hafter, fun hg ⟨_, honly⟩ => hbefore hg (honly w hw)⟩
      · exact ⟨[], tickWords us, rfl, hstart.turns hreset' hz, fun _ _ => rfl⟩
    | reset => exact absurd List.mem_cons_self hreset

/-- Settles O53: the call prepares an Idle block, starts the run on it, and returns when the run has ended. -/
theorem runAcquisitionDelivers : Obligations.RunAcquisitionDelivers := by
  intro len fs timing turns y z hinv hf hst hcaller hreset hturns htodo hrejected
  have hprep : Preparing len fs timing y.block.trigger 0 y :=
    ⟨by decide, congrArg Caller.todo hcaller, hinv, hf, hst, rfl, nofun, nofun, nofun, nofun⟩
  obtain ⟨before, words, hwords, hafter, hbefore⟩ := hprep.returns hreset hturns htodo hrejected
  obtain ⟨hst', hdisarmed, hcount, hexact, hlength, hentries⟩ := hafter.delivered htodo
  exact ⟨hafter.noFault, hst', hdisarmed, hcount, hexact, before, words, hwords, hlength, hentries, hbefore⟩

end Sys2Proof.Machine

/-! PROOF. The host's accesses one by one (42_host.md R161 to R176): the word that selects each, what it returns or writes,
and the faults of R176's checks in their order. -/

namespace Sys2Proof

open Machine

/-! ### The words of accesses (R72, R75) -/

/-- A read's word selects it whatever the payload lanes hold (R79). -/
theorem decode_read {st : StCode} {cap : BitVec 32} {i : Instr} {a : HostAddr} (hi : i.event = .hread a)
    (hwf : i.wellFormed st cap = true) (rx : Sample) (d : DataWord) : decode st cap ⟨eventWord i, rx, d⟩ = .ok i := by
  have hword : readWord a = eventWord i := congrArg RawEvent.ev (hi ▸ encodeKind_event i)
  rw [← hword, decode_of_decodeKind_ok (decodeKind_hread a rx d), ← hi, selectRow_event hwf]

/-- A write's word selects it with the data on the host's lane, whatever the other lane holds (R79). -/
theorem decode_write {st : StCode} {cap : BitVec 32} {i : Instr} {a : HostAddr} {d : DataWord}
    (hi : i.event = .hwrite a d) (hwf : i.wellFormed st cap = true) (rx : Sample) :
    decode st cap ⟨eventWord i, rx, d⟩ = .ok i := by
  have hword : writeWord a = eventWord i := congrArg RawEvent.ev (hi ▸ encodeKind_event i)
  rw [← hword, decode_of_decodeKind_ok (decodeKind_hwrite a rx d), ← hi, selectRow_event hwf]

namespace Machine

variable {s : State}

/-! ### Reads (R161 to R175) -/

/-- The word a read of `COUNT` returns (R34, R165). -/
theorem trunc64_countOf_toNat (npt : BitVec 32) : (trunc 64 (countOf npt)).toNat = (countOf npt).toNat := by
  have := BitVec.toInt_lt (x := npt)
  rw [trunc, BitVec.toNat_ofInt, countOf]
  omega

/-- Settles O29: the word is the read's own, and the read returns its register, widened without loss. -/
theorem registerReadsReturnValues : Obligations.RegisterReadsReturnValues := by
  intro s rx d
  have hcount : ((trunc 64 (countOf s.npt)).toNat : Int) = max s.npt.toInt 0 := by
    rw [trunc64_countOf_toNat, countOf]
    omega
  exact ⟨⟨decode_read (i := .rdState) rfl rfl rx d, _, rfl, zext64_toNat (by decide) s.st⟩,
    ⟨decode_read (i := .rdLen) rfl rfl rx d, _, rfl, zext64_toNat (by decide) s.len⟩,
    ⟨decode_read (i := .rdCount) rfl rfl rx d, _, rfl, hcount⟩,
    ⟨decode_read (i := .rdNpt) rfl rfl rx d, _, rfl, sext64_toInt (by decide) s.npt⟩,
    ⟨decode_read (i := .rdCidx) rfl rfl rx d, _, rfl, zext64_toNat (by decide) s.cidx⟩,
    ⟨decode_read (i := .rdCap) rfl rfl rx d, _, rfl, zext64_toNat (by decide) s.cap⟩,
    fun k => ⟨decode_read (i := .rdChan k) rfl rfl rx d, _, rfl, zext64_toNat (by decide) (chanAt s.chan k)⟩,
    ⟨decode_read (i := .rdSum) rfl rfl rx d, rfl⟩, ⟨decode_read (i := .rdSumsq) rfl rfl rx d, rfl⟩⟩

/-- Settles O30: below `CAP` the read is well-formed and finds its entry written or not; from `CAP` on its word does not
decode. -/
theorem bufferReadReturnsEntry : Obligations.BufferReadReturnsEntry := by
  intro i rx d s
  refine ⟨fun hi => decode_read (i := .rdBuf i) rfl (decide_eq_true hi) rx d,
    fun hi x hx => ⟨_, execRdBuf_written hi hx, zext64_toNat (by decide) x⟩, fun hi hx => execRdBuf_unwritten hi hx,
    fun hi => ?_⟩
  obtain ⟨hreject, -⟩ := bufferReadChecksIndexAgain i rx d s hi
  exact ⟨⟨_, hreject⟩, fun rest hf hin => ⟨_, step_of_decode_error hf hin hreject, rfl⟩⟩

/-! ### Writes (R162 to R176) -/

theorem hostWrite_of_dataOk {ev : EventWord} {d : DataWord} {ok : Bool} {r : Except FaultRecord State}
    (hst : s.st = stIdle) (hok : ok = true) : hostWrite ev d ok r s = commit s r :=
  hok ▸ hostWrite_legal hst

theorem hostWrite_of_not_dataOk {ev : EventWord} {d : DataWord} {ok : Bool} {r : Except FaultRecord State}
    (hst : s.st = stIdle) (hok : ¬ ok = true) :
    hostWrite ev d ok r s = .next (withFault (.illegalWriteValue ev d) s) :=
  Bool.eq_false_of_not_eq_true hok ▸ hostWrite_illegal hst

/-- Settles O32: every write is a host write by its own word, whose first check is the mode. -/
theorem writeGuardFaults : Obligations.WriteGuardFaults := by
  intro d k s hst i hi
  simp only [List.mem_cons, List.not_mem_nil, or_false] at hi
  rcases hi with rfl | rfl | rfl | rfl | rfl <;> exact hostWrite_busy hst

/-- Settles O33: after the two shared checks the start write compares `LEN` with `CAP`. -/
theorem startWriteSeedsStarting : Obligations.StartWriteSeedsStarting := by
  refine fun rx d s => ⟨decode_write (i := .wrState d) rfl rfl rx, fun hst hd hlen => ?_, fun hst => hostWrite_busy hst,
    fun hst hd => hostWrite_of_not_dataOk hst (mt stateDataOk_iff.mp hd), fun hst hd hlen => ?_⟩
  · have hfits : lenFits s = true := (lenFits_iff s).mpr hlen
    exact (hostWrite_of_dataOk hst (stateDataOk_iff.mpr hd)).trans (by rw [if_pos hfits]; rfl)
  · have hbeyond : ¬ lenFits s = true := mt (lenFits_iff s).mp (Nat.not_le.mpr hlen)
    exact (hostWrite_of_dataOk hst (stateDataOk_iff.mpr hd)).trans (by rw [if_neg hbeyond]; rfl)

/-- Settles O34: legal data is a number below `2^32`, which the low word holds. -/
theorem lengthWriteStores : Obligations.LengthWriteStores := by
  refine fun rx d s => ⟨decode_write (i := .wrLen d) rfl rfl rx, fun hst hd => ?_, fun hst => hostWrite_busy hst,
    fun hst hd => hostWrite_of_not_dataOk hst (mt lenDataOk_iff.mp (Nat.not_lt.mpr hd))⟩
  exact ⟨_, hostWrite_of_dataOk hst (lenDataOk_iff.mpr hd), by rw [lenOfData_toNat, Nat.mod_eq_of_lt hd]⟩

/-- Settles O35: legal data is a number below `2^16`, which the slot's code holds; a slot's write leaves the others. -/
theorem channelWriteStores : Obligations.ChannelWriteStores := by
  refine fun k rx d s => ⟨decode_write (i := .wrChan k d) rfl rfl rx, fun hst hd => ?_, fun hst => hostWrite_busy hst,
    fun hst hd => hostWrite_of_not_dataOk hst (mt chanDataOk_iff.mp (Nat.not_lt.mpr hd))⟩
  exact ⟨_, hostWrite_of_dataOk hst (chanDataOk_iff.mpr hd),
    by rw [chanAt_set_same, codeOfData_toNat, Nat.mod_eq_of_lt hd], fun j hj => chanAt_set_other s.chan _ hj⟩

/-- Settles O36: the one legal data word is 0, and each write clears its own accumulator. -/
theorem accumulatorWritesClear : Obligations.AccumulatorWritesClear := by
  refine fun rx d s => ⟨decode_write (i := .wrSum d) rfl rfl rx, decode_write (i := .wrSumsq d) rfl rfl rx,
    fun hst hd => ?_, fun hst => ⟨hostWrite_busy hst, hostWrite_busy hst⟩, fun hst hd => ?_⟩
  · have hok : accDataOk d = true := accDataOk_iff.mpr hd
    exact ⟨hostWrite_of_dataOk hst hok, hostWrite_of_dataOk hst hok⟩
  · have hbad : ¬ accDataOk d = true := mt accDataOk_iff.mp hd
    exact ⟨hostWrite_of_not_dataOk hst hbad, hostWrite_of_not_dataOk hst hbad⟩

end Machine

end Sys2Proof

/-! PROOF. The caller's protocol piece by piece: the checks of `runAcquisition` and its period (42_host.md R178, R239),
`configure` (R177) and `readout` (R179). -/

namespace Sys2Proof.Machine

variable {s t : State} {y : Platform} {todo : List Command} {len : BitVec 32} {fs : Rat} {timing : Timing} {period : Nat}

/-! ### The two checks (R178, R239) -/

/-- The capacity check reads `CAP` and hears the word. -/
theorem turnStep_checkCap (hf : y.block.faultRec = none) (h : y.caller.todo = .checkCap len :: todo) :
    turnStep .caller y = .next
      ⟨callerAfter (some (zext64 y.block.cap)) y.caller, withResult (zext64 y.block.cap) y.block⟩ := by
  have hline : turnLine .caller y.caller = some (.rd .cap) := by rw [turnLine, callerLine, h]
  exact turnStep_line hline (step_rdCap hf)

/-- The margin check gives the block no event. -/
theorem turnStep_checkMargin (h : y.caller.todo = .checkMargin timing period :: todo) :
    turnStep .caller y = .next ⟨callerAfter none y.caller, y.block⟩ := by
  have hsilent : turnLine .caller y.caller = none := by rw [turnLine, callerLine, h]
  exact turnStep_silent hsilent

theorem callerAfter_seen (answer : Option DataWord) (c : Caller) :
    (callerAfter answer c).seen = c.seen ++ answer.toList := by
  unfold callerAfter
  split
  case h_3 | h_4 | h_5 => split <;> rfl
  all_goals rfl

theorem callerAfter_checkCap {answer : Option DataWord} {c : Caller} (h : c.todo = .checkCap len :: todo) :
    (capacityHolds len answer = true →
      (callerAfter answer c).todo = todo ∧ (callerAfter answer c).rejected = c.rejected) ∧
    (¬ capacityHolds len answer = true → Rejected (callerAfter answer c)) := by
  simp only [callerAfter, h]
  exact ⟨fun hfits => by rw [if_pos hfits]; exact ⟨rfl, rfl⟩, fun hbeyond => by rw [if_neg hbeyond]; exact ⟨rfl, rfl⟩⟩

theorem callerAfter_checkMargin {answer : Option DataWord} {c : Caller}
    (h : c.todo = .checkMargin timing period :: todo) :
    (timingMargin timing period = true →
      (callerAfter answer c).todo = todo ∧ (callerAfter answer c).rejected = c.rejected) ∧
    (¬ timingMargin timing period = true → Rejected (callerAfter answer c)) := by
  simp only [callerAfter, h]
  exact ⟨fun hholds => by rw [if_pos hholds]; exact ⟨rfl, rfl⟩, fun hfails => by rw [if_neg hfails]; exact ⟨rfl, rfl⟩⟩

/-- Settles O51: the first turn answers the read of `CAP`, and each check passes its caller on or makes it reject. -/
theorem callerChecksFirst : Obligations.CallerChecksFirst := by
  intro len fs timing y hf hcaller
  have htodo : y.caller.todo = .checkCap len :: (runAcquisition len fs timing).drop 1 := congrArg Caller.todo hcaller
  have hcap : (zext64 y.block.cap).toNat = y.block.cap.toNat := zext64_toNat (by decide) _
  have hiff : capacityHolds len (some (zext64 y.block.cap)) = true ↔ len.toNat ≤ y.block.cap.toNat := by
    rw [capacityHolds_iff, hcap]
  obtain ⟨hpass, hreject⟩ := callerAfter_checkCap (answer := some (zext64 y.block.cap)) htodo
  refine ⟨_, _, turnStep_checkCap hf htodo, hcap, rfl, by rw [callerAfter_seen, hcaller]; rfl,
    fun hlen => hreject (mt hiff.mp (Nat.not_le.mpr hlen)), fun hlen => ?_⟩
  obtain ⟨htodo', hrejected⟩ := hpass (hiff.mpr hlen)
  have hrejected' := hrejected.trans (congrArg Caller.rejected hcaller)
  obtain ⟨hholds, hfails⟩ := callerAfter_checkMargin (answer := none) (timing := timing) (period := armPeriod fs) htodo'
  refine ⟨hrejected', _, turnStep_checkMargin htodo', rfl, fun hlong => ?_, fun hshort => ?_⟩
  · exact hfails (mt timingMargin_iff.mp (not_lt.mpr hlong))
  · obtain ⟨htodo'', hrejected''⟩ := hholds (timingMargin_iff.mpr hshort)
    exact ⟨htodo'', hrejected''.trans hrejected'⟩

/-! ### The period (R178, R212, R239) -/

theorem checkMargin_mem_runAcquisition {t : Timing} {p : Nat} :
    Command.checkMargin t p ∈ runAcquisition len fs timing ↔ t = timing ∧ p = armPeriod fs := by
  simp [runAcquisition, clearAcc, start, waitIdle]

theorem arm_mem_runAcquisition {q : Nat} :
    Command.line (.arm q) ∈ runAcquisition len fs timing ↔ q = armPeriod fs := by
  simp [runAcquisition, clearAcc, start, waitIdle]

/-- Settles O57: the one check and the one arming of the call are about the period of `fs`. -/
theorem marginCheckedAgainstArmedPeriod : Obligations.MarginCheckedAgainstArmedPeriod := by
  refine fun len fs timing => ⟨⟨_, _, checkMargin_mem_runAcquisition.mpr ⟨rfl, rfl⟩⟩,
    ⟨_, arm_mem_runAcquisition.mpr rfl⟩, fun t p q hcheck harm => ?_, fun P hfs hP => ?_⟩
  · obtain ⟨ht, hp⟩ := checkMargin_mem_runAcquisition.mp hcheck
    exact ⟨ht, hp.trans (arm_mem_runAcquisition.mp harm).symm⟩
  · exact ⟨arm_mem_runAcquisition.mpr (armPeriod_whole hfs hP).symm, by rw [timingMargin_iff, hP]⟩

/-! ### `configure` (R177) -/

/-- What slot `j` holds once `codes` have been written in turn from slot `k` on: outside of these what it held. -/
def slotAfter (k : Nat) (codes : List Code) (chan : Vector Code 8) (j : Slot) : Code :=
  if j.toNat < k then chanAt chan j else (codes[j.toNat - k]?).getD (chanAt chan j)

theorem slotAfter_zero (codes : List Code) (chan : Vector Code 8) (j : Slot) :
    slotAfter 0 codes chan j = (codes[j.toNat]?).getD (chanAt chan j) :=
  if_neg (Nat.not_lt_zero _)

theorem slotAfter_nil (k : Nat) (chan : Vector Code 8) (j : Slot) : slotAfter k [] chan j = chanAt chan j :=
  ite_self _

/-- There is no slot from 8 on. -/
theorem slotAfter_of_eight_le {k : Nat} (hk : 8 ≤ k) (codes : List Code) (chan : Vector Code 8) (j : Slot) :
    slotAfter k codes chan j = chanAt chan j :=
  if_pos (by omega)

/-- Writing one slot and then the others writes them all. -/
theorem slotAfter_set {k : Nat} {i : Slot} (hi : i.toNat = k) (c : Code) (codes : List Code) (chan : Vector Code 8)
    (j : Slot) : slotAfter (k + 1) codes (chan.set i.toNat c i.isLt) j = slotAfter k (c :: codes) chan j := by
  unfold slotAfter
  by_cases hj : j = i
  · subst hj
    rw [if_pos (by omega), if_neg (by omega), chanAt_set_same, hi, Nat.sub_self]
    rfl
  · have hne : j.toNat ≠ k := fun h => hj (BitVec.eq_of_toNat_eq (h.trans hi.symm))
    rw [chanAt_set_other chan c hj]
    by_cases hlt : j.toNat < k
    · rw [if_pos (by omega), if_pos hlt]
    · have hsucc : j.toNat - k = j.toNat - (k + 1) + 1 := by omega
      rw [if_neg (by omega), if_neg hlt, hsucc, List.getElem?_cons_succ]

/-- A write of a code to a slot of an Idle block, taken from the inputs (R170). -/
theorem step_wrChan {k : Slot} {c : Code} {rest : List Input} (hf : s.faultRec = none) (hst : s.st = stIdle)
    (hin : s.inputs = lineInput (.wr (.chan k) (c.setWidth 64)) :: rest) :
    step s = .next (setChan k c (takeEvent rest s)) := by
  have hnat : (c.setWidth 64).toNat = c.toNat := zext64_toNat (by decide) c
  have hcode : codeOfData (c.setWidth 64) = c := by
    rw [← BitVec.toNat_inj, codeOfData_toNat, hnat, Nat.mod_eq_of_lt c.isLt]
  rw [lineInput_wr_chan] at hin
  rw [step_of_decode_ok hf hin (decodeEncodeRoundTrip _ _ _ rfl), exec, execWrChan,
    hostWrite_of_dataOk (s := takeEvent rest s) hst (chanDataOk_iff.mpr (hnat.trans_lt c.isLt)), commit_ok, hcode]

/-- `t` is `s` with the codes written in turn from slot `k` on, and `rest` still to come. -/
structure Configured (k : Nat) (codes : List Code) (rest : List Input) (s t : State) : Prop where
  frame : t = { s with chan := t.chan, result := t.result, inputs := rest }
  slots : ∀ j, chanAt t.chan j = slotAfter k codes s.chan j

theorem Configured.cons {k : Nat} {i : Slot} (hi : i.toNat = k) {c : Code} {codes : List Code} {rest rest' : List Input}
    (h : Configured (k + 1) codes rest (setChan i c (takeEvent rest' s)) t) : Configured k (c :: codes) rest s t where
  frame := h.frame
  slots := fun j => (h.slots j).trans (slotAfter_set hi c codes s.chan j)

/-- The lines of `configure` from slot `k` on write the codes and the terminator, the terminator where a slot is left. -/
theorem runSteps_configureFrom {k : Nat} {codes : List Code} {rest : List Input} (hk : k + codes.length ≤ 8)
    (hf : s.faultRec = none) (hst : s.st = stIdle) (hin : s.inputs = programInputs (configureFrom k codes) ++ rest) :
    ∃ t, runSteps (configureFrom k codes).length s = .next t ∧ Configured k (codes ++ [0x0000#16]) rest s t := by
  have hslot (hlt : k < 8) : (BitVec.ofNat 3 k).toNat = k := by rw [BitVec.toNat_ofNat]; omega
  induction codes generalizing k s with
  | nil =>
    rw [configureFrom] at hin ⊢
    by_cases hlt : k < 8
    · rw [if_pos hlt] at hin ⊢
      have hwrite : Configured (k + 1) [] rest (setChan (BitVec.ofNat 3 k) 0x0000#16 (takeEvent rest s)) _ :=
        ⟨rfl, fun j => (slotAfter_nil _ _ j).symm⟩
      exact ⟨_, runSteps_succ (step_wrChan (c := 0x0000#16) hf hst hin), hwrite.cons (hslot hlt)⟩
    · rw [if_neg hlt] at hin ⊢
      have hrest : s.inputs = rest := hin
      exact ⟨s, rfl, by rw [← hrest], fun j => (slotAfter_of_eight_le (Nat.not_lt.mp hlt) _ _ j).symm⟩
  | cons c codes ih =>
    rw [List.length_cons] at hk
    have hlt : k < 8 := by omega
    rw [configureFrom, if_pos hlt] at hin ⊢
    have hstep := step_wrChan (rest := programInputs (configureFrom (k + 1) codes) ++ rest) hf hst hin
    obtain ⟨t, ht, hconf⟩ := ih (k := k + 1) (s := setChan (BitVec.ofNat 3 k) c (takeEvent _ s)) (by omega) hf hst rfl
      (fun hlt => by rw [BitVec.toNat_ofNat]; omega)
    exact ⟨t, (runSteps_succ hstep).trans ht, hconf.cons (hslot hlt)⟩

/-- Settles O37: written from slot 0 on, slot `k` holds the list's entry `k`, the terminator being the last. -/
theorem configureWritesList : Obligations.ConfigureWritesList := by
  intro codes rest s hlen hf hst hin
  obtain ⟨t, ht, hframe, hslots⟩ := runSteps_configureFrom (by omega) hf hst hin
  have hslot (k : Slot) := (hslots k).trans (slotAfter_zero _ s.chan k)
  refine ⟨t, ht, (congrArg State.faultRec hframe).trans hf, (congrArg State.st hframe).trans hst,
    congrArg State.inputs hframe, (congrArg State.len hframe :), (congrArg State.buf hframe :), fun k => ⟨fun c hc => ?_,
    fun hk => ?_, fun hk => ?_⟩⟩
  · obtain ⟨hlt, -⟩ := List.getElem?_eq_some_iff.mp hc
    rw [hslot, List.getElem?_append_left hlt, hc, Option.getD_some]
  · rw [hslot, hk, List.getElem?_concat_length, Option.getD_some]
  · rw [hslot, List.getElem?_eq_none (by rw [List.length_append, List.length_singleton]; omega), Option.getD_none]

/-! ### `readout` (R179) -/

/-- From `s` a read of `r` returns `v` and leaves all but the result-out port. -/
def ReadsAs (s : State) (r : Reg) (v : DataWord) : Prop :=
  step (place (lineInput (.rd r)) s) = .next (withResult v s)

/-- What an earlier event left on the result-out port has no part in taking an event (log 5). -/
theorem step_place_event_withResult (e : RawEvent) (w : DataWord) (s : State) :
    step (place (.event e) (withResult w s)) = step (place (.event e) s) := by
  have hin : (place (.event e) s).inputs = .event e :: s.inputs := rfl
  cases hf : s.faultRec with
  | none => rw [step, step, fetch_event (s := place (.event e) s) hf hin,
      fetch_event (s := place (.event e) (withResult w s)) hf hin]; rfl
  | some f => rw [step, step, fetch_halted (s := place (.event e) s) hf,
      fetch_halted (s := place (.event e) (withResult w s)) hf]

theorem ReadsAs.withResult {r : Reg} {v : DataWord} (h : ReadsAs s r v) (w : DataWord) :
    ReadsAs (withResult w s) r v :=
  (step_place_event_withResult _ w s).trans h

/-- A read that the block answers in one turn of the caller. -/
theorem turnStep_read {r : Reg} {v : DataWord} (htodo : y.caller.todo = .line (.rd r) :: todo)
    (hread : ReadsAs y.block r v) :
    turnStep .caller y = .next
      ⟨{ y.caller with todo := todo, seen := y.caller.seen ++ [v] }, withResult v y.block⟩ := by
  have hline : turnLine .caller y.caller = some (.rd r) := by rw [turnLine, callerLine, htodo]
  rw [turnStep_line hline hread, turnCaller, answerTo, withResult_result, callerAfter, htodo]
  rfl

/-- Reads one after the other return their words in order and leave all but the result-out port (R57). -/
theorem runTurns_reads {regs : List Reg} {words : List DataWord} (hreads : List.Forall₂ (ReadsAs y.block) regs words)
    (htodo : y.caller.todo = regs.map (fun r => .line (.rd r)) ++ todo) :
    ∃ z, runTurns (List.replicate regs.length .caller) y = .next z ∧ z.caller.todo = todo ∧
      z.block = { y.block with result := z.block.result } ∧ z.caller.seen = y.caller.seen ++ words := by
  induction regs generalizing y words with
  | nil =>
    cases hreads
    exact ⟨y, rfl, htodo, rfl, (List.append_nil _).symm⟩
  | cons r regs ih =>
    obtain _ | @⟨_, v, _, words, hread, hreads⟩ := hreads
    have hturn := turnStep_read htodo hread
    obtain ⟨z, hz, htodo', hframe, hseen⟩ :=
      ih (y := ⟨⟨_, _, y.caller.seen ++ [v]⟩, withResult v y.block⟩) (hreads.imp fun _ _ h => h.withResult v) rfl
    exact ⟨z, (runTurns_cons hturn).trans hz, htodo', hframe, hseen.trans (List.append_assoc _ _ _)⟩

/-- What the reads of `readout len` return from `s`. -/
def readoutWords (len : Nat) (s : State) : List DataWord :=
  [trunc 64 (countOf s.npt), s.sum, s.sumsq] ++ (List.range len).map fun i => zext64 ((memRead s.buf i).getD 0#16)

theorem map_toNat_readoutWords (len : Nat) (s : State) :
    (readoutWords len s).map BitVec.toNat =
      [(countOf s.npt).toNat, s.sum.toNat, s.sumsq.toNat] ++ (List.range len).map (entryNat s.buf) := by
  have hentry (i : Nat) : (zext64 ((memRead s.buf i).getD 0#16)).toNat = entryNat s.buf i := by
    rw [zext64_toNat (by decide), entryNat]
    cases memRead s.buf i <;> rfl
  simp [readoutWords, trunc64_countOf_toNat, hentry, Function.comp_def]

/-- The registers `readout len` reads. -/
def readoutRegs (len : Nat) : List Reg :=
  [.count, .sum, .sumsq] ++ (List.range len).map fun i => .buf (BitVec.ofNat 21 i)

theorem readout_eq_map (len : Nat) : readout len = (readoutRegs len).map .rd := by
  simp [readout, readoutRegs]

/-- A read of a written entry of the buffer returns it (R175). -/
theorem BlockInv.readsAs_buf (h : BlockInv s) (hf : s.faultRec = none) {i : Nat} (hi : i < s.cap.toNat)
    (hwritten : (memRead s.buf i).isSome) :
    ReadsAs s (.buf (BitVec.ofNat 21 i)) (zext64 ((memRead s.buf i).getD 0#16)) := by
  obtain ⟨v, hv⟩ := Option.isSome_iff_exists.mp hwritten
  have hcap := h.capInRange.2
  have hindex : (BitVec.ofNat 21 i).toNat = i := by
    rw [Config.maxCap] at hcap
    rw [BitVec.toNat_ofNat]
    omega
  have hi' : (BitVec.ofNat 21 i).toNat < s.cap.toNat := hindex.symm ▸ hi
  rw [ReadsAs, lineInput_rd_buf, step_place_encode (i := .rdBuf _) hf (decide_eq_true hi'), hv, Option.getD_some]
  exact execRdBuf_written (s := Machine.takeEvent s.inputs s) hi' (hindex.symm ▸ hv)

theorem BlockInv.readsAs_readout (h : BlockInv s) (hf : s.faultRec = none) {n : Nat} (hn : n ≤ s.cap.toNat)
    (hwritten : ∀ i < n, (memRead s.buf i).isSome) :
    List.Forall₂ (ReadsAs s) (readoutRegs n) (readoutWords n s) := by
  have hentry (i : Nat) (hi : i ∈ List.range n) :
      ReadsAs s (.buf (BitVec.ofNat 21 i)) (zext64 ((memRead s.buf i).getD 0#16)) :=
    have hlt := List.mem_range.mp hi
    h.readsAs_buf hf (hlt.trans_le hn) (hwritten i hlt)
  exact .cons (step_place_encode (i := .rdCount) hf rfl) (.cons (step_place_encode (i := .rdSum) hf rfl)
    (.cons (step_place_encode (i := .rdSumsq) hf rfl)
      (List.forall₂_map_left_iff.mpr (List.forall₂_map_right_iff.mpr (List.forall₂_same.mpr hentry)))))

/-- Settles O55: each line of `readout` is a read of a register or of a written entry. -/
theorem readoutReturnsResults : Obligations.ReadoutReturnsResults := by
  intro len todo y hinv hf hlen hwritten htodo
  have hlength : (readoutRegs len).length = len + 3 := by simp [readoutRegs]
  rw [readout_eq_map, List.map_map] at htodo
  obtain ⟨z, hz, htodo', hframe, hseen⟩ := runTurns_reads (hinv.readsAs_readout hf hlen hwritten) htodo
  rw [hlength] at hz
  exact ⟨z, hz, htodo', hframe, by rw [hseen, List.map_append, map_toNat_readoutWords, List.append_assoc]⟩

end Sys2Proof.Machine

/-! PROOF. A call of `runAcquisition` returns (42_host.md R178; 60_exceptions.md R212, R244). What is left of a call is
ranked by the commands its caller still has to do and, among equal ones, by the ticks the run is owed. No turn raises the
rank; while the caller waits for a run that goes on, a tick lowers it, and otherwise the caller's own turn does; fairness
brings the turn that is needed. -/

namespace Sys2Proof.Machine

variable {s t : State} {y z : Platform} {len : BitVec 32} {fs : Rat} {timing : Timing} {sched : Nat → Turn}

/-! ### Schedules (R205) -/

theorem scheduleRun_succ {n : Nat} (h : scheduleRun sched n y = .next z) :
    scheduleRun sched (n + 1) y = runTurns [sched n] z := by
  rw [scheduleRun, List.range_succ, List.map_append, runTurns_append h]
  rfl

theorem scheduleRun_succ_next {n : Nat} {w : Platform} (h : scheduleRun sched n y = .next z)
    (hturn : turnStep (sched n) z = .next w) : scheduleRun sched (n + 1) y = .next w := by
  rw [scheduleRun_succ h, runTurns_cons hturn, runTurns_nil]

/-- Where every turn keeps an invariant and never raises a rank, every later platform has the invariant and no higher
rank. -/
theorem exists_later {α : Type*} [Preorder α] {Inv : Platform → Prop} {rank : Platform → α}
    (hkeep : ∀ n z, Inv z → ∃ w, turnStep (sched n) z = .next w ∧ Inv w ∧ rank w ≤ rank z) {n m : Nat} (hnm : n ≤ m)
    (hz : scheduleRun sched n y = .next z) (hinv : Inv z) :
    ∃ w, scheduleRun sched m y = .next w ∧ Inv w ∧ rank w ≤ rank z := by
  induction m, hnm using Nat.le_induction with
  | base => exact ⟨z, hz, hinv, le_rfl⟩
  | succ m _ ih =>
    obtain ⟨w, hw, hwInv, hle⟩ := ih
    obtain ⟨v, hv, hvInv, hle'⟩ := hkeep m w hwInv
    exact ⟨v, scheduleRun_succ_next hw hv, hvInv, hle'.trans hle⟩

/-- A schedule on which, from every platform that is not done, a turn comes that lowers a well-founded rank, unless the
rank has been lowered before it, gets done. -/
theorem exists_done {α : Type*} [PartialOrder α] [WellFoundedLT α] {Inv Done : Platform → Prop} {rank : Platform → α}
    (hkeep : ∀ n z, Inv z → ∃ w, turnStep (sched n) z = .next w ∧ Inv w ∧ rank w ≤ rank z)
    (hlower : ∀ n z, scheduleRun sched n y = .next z → Inv z → ¬ Done z → ∃ m, n ≤ m ∧ ∀ v w,
      scheduleRun sched m y = .next v → Inv v → rank v = rank z → turnStep (sched m) v = .next w → rank w < rank z)
    {n : Nat} (hz : scheduleRun sched n y = .next z) (hinv : Inv z) :
    ∃ m w, scheduleRun sched m y = .next w ∧ Inv w ∧ Done w := by
  induction hr : rank z using WellFoundedLT.induction generalizing n z with
  | ind r ih =>
    by_cases hdone : Done z
    · exact ⟨n, z, hz, hinv, hdone⟩
    · obtain ⟨m, hnm, hlow⟩ := hlower n z hz hinv hdone
      obtain ⟨v, hv, hvInv, hle⟩ := exists_later hkeep hnm hz hinv
      obtain heq | hlt := hle.eq_or_lt
      · obtain ⟨w, hw, hwInv, -⟩ := hkeep m v hvInv
        exact ih (rank w) (hr ▸ hlow v w hv hvInv heq hw) (scheduleRun_succ_next hv hw) hwInv rfl
      · exact ih (rank v) (hr ▸ hlt) hv hvInv rfl

/-! ### Every turn is taken (R202) -/

theorem step_answers (hf : s.faultRec = none) : ∃ t, step s = .next t := by
  match hin : s.inputs with
  | [] => exact ⟨s, by simp [step, fetch_quiet hf hin]⟩
  | .arm p :: rest => exact ⟨_, step_of_arm hf hin⟩
  | .disarm :: rest => exact ⟨_, step_of_disarm hf hin⟩
  | .event e :: rest =>
    cases hd : decode s.st s.cap e with
    | ok i =>
      obtain ⟨t, ht⟩ := exec_answers i (takeEvent rest s)
      exact ⟨t, (step_of_decode_ok hf hin hd).trans ht⟩
    | error r => exact ⟨_, step_of_decode_error hf hin hd⟩

theorem turnStep_answers (u : Turn) (hf : y.block.faultRec = none) : ∃ z, turnStep u y = .next z := by
  cases hl : turnLine u y.caller with
  | none => exact ⟨_, turnStep_silent hl⟩
  | some l =>
    obtain ⟨t, ht⟩ := step_answers (s := place (lineInput l) y.block) hf
    exact ⟨_, turnStep_line hl ht⟩

theorem turnStep_cap {u : Turn} (hturn : turnStep u y = .next z) : z.block.cap = y.block.cap := by
  obtain ⟨-, rfl⟩ | ⟨l, t, -, ht, rfl⟩ := turnStep_next hturn
  · rfl
  · exact capacityIsConstant.2 (place (lineInput l) y.block) t ht

/-- The caller's own turn gives it some answer. -/
theorem turnStep_caller_answer (hturn : turnStep .caller y = .next z) :
    ∃ answer, z.caller = callerAfter answer y.caller := by
  obtain ⟨-, rfl⟩ | ⟨l, t, -, -, rfl⟩ := turnStep_next hturn
  · exact ⟨_, rfl⟩
  · exact ⟨_, rfl⟩

theorem callerAfter_line {answer : Option DataWord} {c : Caller} {l : Line} {todo : List Command}
    (h : c.todo = .line l :: todo) : (callerAfter answer c).todo = todo ∧ (callerAfter answer c).rejected = c.rejected := by
  simp [callerAfter, h]

/-! ### A caller whose checks hold (R178, R239) -/

/-- The command does not make its caller reject on a block of capacity `cap`. -/
def Command.Holds (cap : BitVec 32) : Command → Prop
  | .line _ => True
  | .checkCap len => len.toNat ≤ cap.toNat
  | .checkMargin timing period => timingMargin timing period = true
  | .waitIdle => True

/-- The caller has not rejected, and no check before it will make it. -/
structure Unrejected (y : Platform) : Prop where
  kept : y.caller.rejected = false
  holds : ∀ c ∈ y.caller.todo, c.Holds y.block.cap

/-- A turn of such a caller does its command, unless that is the wait and the block is not Idle. -/
theorem Unrejected.callerTurn {c : Command} {todo : List Command} (h : Unrejected y) (hf : y.block.faultRec = none)
    (htodo : y.caller.todo = c :: todo) (hturn : turnStep .caller y = .next z) :
    z.caller.rejected = y.caller.rejected ∧
      (z.caller.todo = todo ∨
        (c = .waitIdle ∧ y.block.st ≠ stIdle ∧ z.caller.todo = y.caller.todo ∧ ∃ v, z.block = withResult v y.block)) := by
  have hholds : c.Holds y.block.cap := h.holds c (htodo ▸ List.mem_cons_self)
  cases c with
  | line l =>
    obtain ⟨answer, hcaller⟩ := turnStep_caller_answer hturn
    obtain ⟨hdone, hrejected⟩ := callerAfter_line (answer := answer) htodo
    exact ⟨hcaller ▸ hrejected, .inl (hcaller ▸ hdone)⟩
  | checkCap len =>
    obtain rfl := Host.Outcome.next.inj ((turnStep_checkCap hf htodo).symm.trans hturn)
    obtain ⟨hpass, -⟩ := callerAfter_checkCap (answer := some (zext64 y.block.cap)) htodo
    obtain ⟨hdone, hrejected⟩ := hpass (capacityHolds_iff.mpr (hholds.trans_eq (zext64_toNat (by decide) _).symm))
    exact ⟨hrejected, .inl hdone⟩
  | checkMargin t p =>
    obtain rfl := Host.Outcome.next.inj ((turnStep_checkMargin htodo).symm.trans hturn)
    obtain ⟨hpass, -⟩ := callerAfter_checkMargin (answer := none) htodo
    obtain ⟨hdone, hrejected⟩ := hpass hholds
    exact ⟨hrejected, .inl hdone⟩
  | waitIdle =>
    obtain ⟨w, hw, -, hrejected, -, hleaves, hstays⟩ := waitIdleLeavesOnZero y todo hf htodo
    obtain rfl := Host.Outcome.next.inj (hw.symm.trans hturn)
    refine ⟨hrejected, ?_⟩
    by_cases hst : y.block.st = stIdle
    · exact .inl (hleaves hst)
    · obtain rfl := Host.Outcome.next.inj ((turnStep_wait hf htodo).symm.trans hturn)
      exact .inr ⟨rfl, hst, (hstays hst).trans htodo.symm, _, rfl⟩

theorem Unrejected.turn {u : Turn} (h : Unrejected y) (hf : y.block.faultRec = none)
    (hturn : turnStep u y = .next z) (hu : u ≠ .reset) : Unrejected z := by
  have ⟨hkept, hholds⟩ := h
  have hcap := turnStep_cap hturn
  cases u with
  | tick rx =>
    obtain ⟨hcaller, -⟩ := turnStep_tick hturn
    exact ⟨hcaller ▸ hkept, by rwa [hcaller, hcap]⟩
  | caller =>
    cases htodo : y.caller.todo with
    | nil =>
      obtain ⟨-, hdone, hrejected⟩ := turnStep_callerDone htodo hturn
      exact ⟨hrejected.trans hkept, by simp [hdone]⟩
    | cons c todo =>
      obtain ⟨hrejected, hdone | ⟨-, -, hstays, -⟩⟩ := h.callerTurn hf htodo hturn
      · exact ⟨hrejected.trans hkept, fun d hd => hcap ▸ hholds d (htodo ▸ List.mem_cons_of_mem c (hdone ▸ hd))⟩
      · exact ⟨hrejected.trans hkept, by rwa [hstays, hcap]⟩
  | reset => exact absurd rfl hu

/-! ### The trigger (R212) -/

theorem TickEffect.trigger_eq (he : TickEffect s t) : t.trigger = s.trigger := by
  cases he <;> simp

theorem turnStep_tick_effect {rx : Sample} (hf : y.block.faultRec = none) (hturn : turnStep (.tick rx) y = .next z) :
    TickEffect (takeEvent y.block.inputs (place (tickInput rx) y.block)) z.block := by
  obtain ⟨-, hstep⟩ := turnStep_tick hturn
  obtain ⟨t, ht, -, he⟩ := step_tick (s := place (tickInput rx) y.block) hf rfl
  exact Host.Outcome.next.inj (ht.symm.trans hstep) ▸ he

/-! ### The call (R178) -/

/-- What holds of a call in progress: it prepares the run or has started it, no check makes it reject, and the trigger is
armed while it waits. -/
structure Calling (len : BitVec 32) (fs : Rat) (timing : Timing) (y : Platform) : Prop where
  unrejected : Unrejected y
  phase : (∃ g k, Preparing len fs timing g k y) ∨ ∃ words, AfterStart len fs words y
  armed : y.caller.todo = [.waitIdle, .line .disarm] → ∃ p, y.block.trigger = .armed p

theorem Calling.inv (h : Calling len fs timing y) : BlockInv y.block := by
  obtain ⟨g, k, hprep⟩ | ⟨words, hafter⟩ := h.phase
  · exact hprep.inv
  · exact hafter.inv

theorem Calling.noFault (h : Calling len fs timing y) : y.block.faultRec = none := by
  obtain ⟨g, k, hprep⟩ | ⟨words, hafter⟩ := h.phase
  · exact hprep.noFault
  · exact hafter.noFault

/-- What is left of a call is the end of its commands. -/
theorem Calling.todo_eq_drop (h : Calling len fs timing y) :
    y.caller.todo = (runAcquisition len fs timing).drop (9 - y.caller.todo.length) := by
  have hlength : (runAcquisition len fs timing).length = 9 := rfl
  obtain ⟨g, k, hprep⟩ | ⟨words, hafter⟩ := h.phase
  · have hearly := hprep.early
    rw [hprep.todo, List.length_drop, hlength, show 9 - (9 - k) = k by omega]
  · obtain htodo | htodo | ⟨htodo, -⟩ | ⟨htodo, -⟩ := hafter.caller <;> rw [htodo] <;> rfl

/-- Of the commands of a call the wait has one alone behind it. -/
theorem Calling.todo_of_wait (h : Calling len fs timing y) {todo : List Command}
    (htodo : y.caller.todo = .waitIdle :: todo) : y.caller.todo = [.waitIdle, .line .disarm] := by
  obtain ⟨g, k, hprep⟩ | ⟨words, hafter⟩ := h.phase
  · have hearly := hprep.early
    have hhead := congrArg List.head? (hprep.todo.symm.trans htodo)
    interval_cases k <;> simp [runAcquisition, clearAcc, start] at hhead
  · obtain htodo' | htodo' | ⟨htodo', -⟩ | ⟨htodo', -⟩ := hafter.caller
    · cases htodo'.symm.trans htodo
    · exact htodo'
    · cases htodo'.symm.trans htodo
    · cases htodo'.symm.trans htodo

/-- A call that has nothing left to do has returned, and its run has ended (R178, R181). -/
theorem Calling.returned (h : Calling len fs timing y) (htodo : y.caller.todo = []) :
    y.block.st = stIdle ∧ countOf y.block.npt = len.toNat := by
  obtain ⟨g, k, hprep⟩ | ⟨words, hafter⟩ := h.phase
  · exact absurd htodo hprep.todo_ne_nil
  · obtain ⟨hst, -, hcount, -⟩ := hafter.delivered htodo
    exact ⟨hst, hcount⟩

/-! ### Turns of a call -/

theorem Calling.tick {rx : Sample} (h : Calling len fs timing y) (hturn : turnStep (.tick rx) y = .next z) :
    Calling len fs timing z where
  unrejected := h.unrejected.turn h.noFault hturn nofun
  phase := by
    obtain ⟨g, k, hprep⟩ | ⟨words, hafter⟩ := h.phase
    · exact .inl ⟨g, k, hprep.tick hturn⟩
    · exact .inr ⟨_, hafter.tick hturn⟩
  armed := fun htodo => by
    obtain ⟨hcaller, -⟩ := turnStep_tick hturn
    obtain ⟨p, hp⟩ := h.armed (hcaller ▸ htodo)
    exact ⟨p, (turnStep_tick_effect h.noFault hturn).trigger_eq.trans hp⟩

/-- The command before the wait arms the trigger. -/
theorem Calling.armed_of_callerTurn {c : Command} {todo : List Command} (h : Calling len fs timing y)
    (htodo : y.caller.todo = c :: todo) (htodo' : todo = [.waitIdle, .line .disarm])
    (hturn : turnStep .caller y = .next z) : ∃ p, z.block.trigger = .armed p := by
  subst htodo'
  have hdrop := h.todo_eq_drop
  rw [htodo] at hdrop
  obtain rfl : c = .line (.arm (armPeriod fs)) := (List.cons.inj hdrop).1
  have harm := step_of_arm (s := place (.arm (armPeriod fs)) y.block) h.noFault rfl
  obtain ⟨hblock, -⟩ := turnStep_lineDone htodo harm hturn
  exact ⟨_, congrArg State.trigger hblock⟩

theorem Calling.callerTurn (h : Calling len fs timing y) (hturn : turnStep .caller y = .next z) :
    Calling len fs timing z where
  unrejected := h.unrejected.turn h.noFault hturn nofun
  phase := by
    obtain ⟨g, k, hprep⟩ | ⟨words, hafter⟩ := h.phase
    · obtain ⟨-, hrejected⟩ | ⟨j, hnext⟩ | hstart := hprep.callerTurn hturn
      · have hkept := (h.unrejected.turn h.noFault hturn nofun).kept
        exact absurd (hkept.symm.trans hrejected) Bool.false_ne_true
      · exact .inl ⟨g, j, hnext⟩
      · exact .inr ⟨[], hstart⟩
    · exact .inr ⟨words, hafter.callerTurn hturn⟩
  armed := fun hwaits => by
    cases htodo : y.caller.todo with
    | nil =>
      obtain ⟨-, hdone, -⟩ := turnStep_callerDone htodo hturn
      cases hdone.symm.trans hwaits
    | cons c todo =>
      obtain ⟨-, hdone | ⟨-, -, hstays, v, hblock⟩⟩ := h.unrejected.callerTurn h.noFault htodo hturn
      · exact h.armed_of_callerTurn htodo (hdone.symm.trans hwaits) hturn
      · obtain ⟨p, hp⟩ := h.armed (hstays.symm.trans hwaits)
        exact ⟨p, hblock ▸ hp⟩

/-! ### What is left of a call -/

/-- The commands the caller still has to do, and among as many the ticks the run is owed. -/
def callRank (y : Platform) : ℕ ×ₗ ℕ := toLex (y.caller.todo.length, ticksToIdle y.block)

theorem callRank_lt_of_todo (h : z.caller.todo.length < y.caller.todo.length) : callRank z < callRank y :=
  Prod.Lex.toLex_lt_toLex.mpr (.inl h)

/-- Platforms with as much left of a call have the same commands left and as many ticks owed. -/
theorem Calling.eq_of_callRank (hz : Calling len fs timing z) (hy : Calling len fs timing y)
    (h : callRank z = callRank y) : z.caller.todo = y.caller.todo ∧ ticksToIdle z.block = ticksToIdle y.block := by
  obtain ⟨hlength, hticks⟩ := Prod.ext_iff.mp (toLex_inj.mp h)
  have hlength : z.caller.todo.length = y.caller.todo.length := hlength
  exact ⟨by rw [hz.todo_eq_drop, hy.todo_eq_drop, hlength], hticks⟩

/-- A tick takes one off the ticks owed and leaves the commands. -/
theorem Calling.tick_left {rx : Sample} (h : Calling len fs timing y) (hturn : turnStep (.tick rx) y = .next z) :
    z.caller.todo = y.caller.todo ∧ ticksToIdle z.block = ticksToIdle y.block - 1 := by
  obtain ⟨hcaller, -⟩ := turnStep_tick hturn
  have htaken := (h.inv.place (tickInput rx)).takeEvent y.block.inputs
  obtain ⟨hticks, -⟩ := htaken.tick_ticksToIdle (turnStep_tick_effect h.noFault hturn)
  exact ⟨congrArg Caller.todo hcaller, hticks⟩

theorem Calling.callRank_tick_le {rx : Sample} (h : Calling len fs timing y)
    (hturn : turnStep (.tick rx) y = .next z) : callRank z ≤ callRank y := by
  obtain ⟨htodo, hticks⟩ := h.tick_left hturn
  exact Prod.Lex.toLex_le_toLex.mpr (.inr ⟨congrArg List.length htodo, by omega⟩)

theorem Calling.callRank_tick_lt {rx : Sample} (h : Calling len fs timing y) (howed : ticksToIdle y.block ≠ 0)
    (hturn : turnStep (.tick rx) y = .next z) : callRank z < callRank y := by
  obtain ⟨htodo, hticks⟩ := h.tick_left hturn
  exact Prod.Lex.toLex_lt_toLex.mpr (.inr ⟨congrArg List.length htodo, by omega⟩)

/-- The caller waits for a run that still goes on. -/
def WaitsForRun (y : Platform) : Prop :=
  y.caller.todo = [.waitIdle, .line .disarm] ∧ ticksToIdle y.block ≠ 0

/-- The caller's own turn does one of its commands, unless it waits for a run that goes on. -/
theorem Calling.callRank_caller_lt (h : Calling len fs timing y) (htodo : y.caller.todo ≠ []) (hready : ¬ WaitsForRun y)
    (hturn : turnStep .caller y = .next z) : callRank z < callRank y := by
  obtain ⟨c, todo, hcons⟩ := List.exists_cons_of_ne_nil htodo
  obtain ⟨-, hdone | ⟨rfl, hst, -⟩⟩ := h.unrejected.callerTurn h.noFault hcons hturn
  · exact callRank_lt_of_todo (by rw [hdone, hcons, List.length_cons]; omega)
  · exact absurd ⟨h.todo_of_wait hcons, mt h.inv.ticksToIdle_eq_zero_iff.mp hst⟩ hready

theorem Calling.callRank_caller_le (h : Calling len fs timing y) (hturn : turnStep .caller y = .next z) :
    callRank z ≤ callRank y := by
  cases htodo : y.caller.todo with
  | nil =>
    obtain ⟨hblock, hdone, -⟩ := turnStep_callerDone htodo hturn
    rw [callRank, callRank, hblock, hdone, htodo]
  | cons c todo =>
    obtain ⟨-, hdone | ⟨-, -, hstays, v, hblock⟩⟩ := h.unrejected.callerTurn h.noFault htodo hturn
    · exact (callRank_lt_of_todo (by rw [hdone, htodo, List.length_cons]; omega)).le
    · rw [callRank, callRank, hstays, hblock, ticksToIdle_congr (withResult_st _ _) (withResult_len _ _)
        (withResult_npt _ _)]

/-! ### Progress (R244) -/

/-- Every turn but a reset is taken, goes on with the call and leaves no more of it. -/
theorem Calling.turn {u : Turn} (h : Calling len fs timing y) (hu : u ≠ .reset) :
    ∃ z, turnStep u y = .next z ∧ Calling len fs timing z ∧ callRank z ≤ callRank y := by
  obtain ⟨z, hz⟩ := turnStep_answers u h.noFault
  cases u with
  | tick rx => exact ⟨z, hz, h.tick hz, h.callRank_tick_le hz⟩
  | caller => exact ⟨z, hz, h.callerTurn hz, h.callRank_caller_le hz⟩
  | reset => exact absurd rfl hu

/-- Fairness brings a turn that leaves less of the call, unless less is left before it: a tick, which the armed trigger
delivers, where the caller waits for a run that goes on, and the caller's own turn otherwise. -/
theorem Calling.exists_lowering {n : Nat} (h : Calling len fs timing z) (htodo : z.caller.todo ≠ [])
    (htrigger : TriggerSchedule sched y) (hgoes : CallerGoesOn sched) (hz : scheduleRun sched n y = .next z) :
    ∃ m, n ≤ m ∧ ∀ v w, scheduleRun sched m y = .next v → Calling len fs timing v → callRank v = callRank z →
      turnStep (sched m) v = .next w → callRank w < callRank z := by
  by_cases hwaits : WaitsForRun z
  · have ⟨hwait, howed⟩ := hwaits
    obtain ⟨p, hp⟩ := h.armed hwait
    obtain ⟨m, hnm, htick⟩ := htrigger.weaklyFair n z p hz hp
    refine ⟨m, hnm, fun v w hv hcall hrank hturn => ?_⟩
    obtain ⟨hsame, hticks⟩ := hcall.eq_of_callRank h hrank
    obtain ⟨rx, hrx⟩ | ⟨v', hv', hdisarmed⟩ := htick
    · rw [hrx] at hturn
      exact hrank ▸ hcall.callRank_tick_lt (hticks ▸ howed) hturn
    · obtain rfl := Host.Outcome.next.inj (hv.symm.trans hv')
      obtain ⟨q, hq⟩ := hcall.armed (hsame.trans hwait)
      cases hq.symm.trans hdisarmed
  · obtain ⟨m, hnm, hm⟩ := hgoes n
    refine ⟨m, hnm, fun v w hv hcall hrank hturn => ?_⟩
    obtain ⟨hsame, hticks⟩ := hcall.eq_of_callRank h hrank
    have hready : ¬ WaitsForRun v := by rwa [WaitsForRun, hsame, hticks]
    rw [hm] at hturn
    exact hrank ▸ hcall.callRank_caller_lt (hsame ▸ htodo) hready hturn

/-- A call on an Idle block whose two checks hold. -/
theorem calling_of_checks (hinv : BlockInv y.block) (hf : y.block.faultRec = none) (hst : y.block.st = stIdle)
    (hcaller : y.caller = callerOf (runAcquisition len fs timing)) (hlen : len.toNat ≤ y.block.cap.toNat)
    (hmargin : timingMargin timing (armPeriod fs) = true) : Calling len fs timing y := by
  have htodo : y.caller.todo = runAcquisition len fs timing := congrArg Caller.todo hcaller
  refine ⟨⟨congrArg Caller.rejected hcaller, ?_⟩, .inl ⟨_, 0, by decide, htodo, hinv, hf, hst, rfl, nofun, nofun, nofun,
    nofun⟩, fun hwaits => ?_⟩
  · rw [htodo]
    simp [runAcquisition, clearAcc, start, waitIdle, Command.Holds, hlen, hmargin]
  · cases (htodo.symm.trans hwaits)

/-- Settles O54: the schedule's turns leave less and less of the call until nothing is left of it. -/
theorem runAcquisitionReturns : Obligations.RunAcquisitionReturns := by
  intro len fs timing sched y hinv hf hst hcaller hlen hmargin htrigger hgoes hreset
  have hcall := calling_of_checks hinv hf hst hcaller hlen hmargin
  obtain ⟨n, z, hz, hcall', htodo⟩ := exists_done (Inv := Calling len fs timing) (Done := fun z => z.caller.todo = [])
    (fun n _ h => h.turn (hreset n)) (fun _ _ hz h hdone => h.exists_lowering hdone htrigger hgoes hz) (n := 0) rfl hcall
  obtain ⟨hst', hcount⟩ := hcall'.returned htodo
  exact ⟨n, z, hz, htodo, hcall'.unrejected.kept, hst', hcall'.noFault, hcount⟩

end Sys2Proof.Machine

/-! PROOF. Faults and the trigger's contract (60_exceptions.md R202, R203, R212, R217): a recorded fault is final and a step
with nothing to take changes nothing; every operation records the first fault that applies to its event; and a step
hands the trigger's contract on, a reset being the one event that sets the trigger. -/

namespace Sys2Proof.Machine

variable {s t : State}

/-! ### Nothing is taken (R202, R217) -/

/-- Settles O7: with a fault recorded nothing is fetched, whatever is still to come. -/
theorem faultIsFinal : Obligations.FaultIsFinal := by
  intro s r hf
  simp [step, fetch_halted hf]

theorem step_of_nil (hf : s.faultRec = none) (hin : s.inputs = []) : step s = .next s := by
  simp [step, fetch_quiet hf hin]

/-- Settles O10: a fetch that finds no input leads to the state itself. -/
theorem quietBlockHoldsState : Obligations.QuietBlockHoldsState :=
  fun _ hf hin => step_of_nil hf hin

/-! ### The first fault of an operation's own event, kind by kind (R203) -/

theorem kindNat_encode (i : Instr) : kindNat (encode i).ev = i.event.code.toNat := by
  rw [kindNat, ← kindField_toNat, encode, kindField_eventWord]

theorem addrNat_readWord (a : HostAddr) : addrNat (readWord a) = a.toNat := by
  have := a.isLt
  rw [addrNat, readWord_toNat]
  omega

theorem addrNat_writeWord (a : HostAddr) : addrNat (writeWord a) = a.toNat := by
  have := a.isLt
  rw [addrNat, writeWord_toNat]
  omega

theorem not_reservedWord_encode {st : StCode} {cap : BitVec 32} {i : Instr} (hwf : i.wellFormed st cap = true) :
    ¬ ReservedWord cap (encode i).ev := by
  intro hres
  obtain ⟨r, hr⟩ := decode_error_iff (st := st) (e := encode i).mpr hres
  cases hr.symm.trans (decodeEncodeRoundTrip st cap i hwf)

/-- The payload lanes an event's kind ignores have no part in its fault (R79). -/
theorem firstFault_canonical (s : State) (e : RawEvent) : firstFault s e.canonical = firstFault s e := by
  by_cases hwrite : kindField e.ev = 3#4
  · simp [firstFault, RawEvent.canonical, hwrite]
  · have hkind : kindNat e.ev ≠ 3 := mt (kindNat_eq_iff (by decide)).mp hwrite
    simp only [firstFault, RawEvent.canonical, hkind, if_false]
    rfl

section

variable {i : Instr} (hwf : i.wellFormed s.st s.cap = true)
include hwf

/-- A tick's checks: the reserved state, then the overrun (R124, R128). -/
theorem firstFault_tick {rx : Sample} (hi : i.event = .tick rx) :
    firstFault s (encode i) =
      if s.st = stReserved then some (.reservedState s.st)
      else if s.st = stRunning ∧ 0 ≤ s.npt.toInt ∧ (s.cap.toNat : Int) ≤ s.npt.toInt then some (.bufferOverrun s.npt)
      else none := by
  have hkind : kindNat (encode i).ev = 1 := by rw [kindNat_encode, hi]; rfl
  rw [firstFault, if_neg (not_reservedWord_encode hwf), if_pos hkind]

/-- A read's one check is that a buffer entry has been written (R175). -/
theorem firstFault_hread {a : HostAddr} (hi : i.event = .hread a) :
    firstFault s (encode i) =
      if 0x200000 ≤ a.toNat ∧ memRead s.buf (a.toNat - 0x200000) = none then
        some (.unwrittenRead (BitVec.ofNat 21 a.toNat))
      else none := by
  have hkind : kindNat (encode i).ev = 2 := by rw [kindNat_encode, hi]; rfl
  have haddr : addrNat (encode i).ev = a.toNat := by rw [← encodeKind_event, hi, encodeKind, addrNat_readWord]
  rw [firstFault, if_neg (not_reservedWord_encode hwf), if_neg (by omega), if_pos hkind, haddr]

/-- A write's checks: the mode, the data, and for the start the length (R162, R176). -/
theorem firstFault_hwrite {a : HostAddr} {d : DataWord} (hi : i.event = .hwrite a d) :
    firstFault s (encode i) =
      if s.st ≠ stIdle then some (.writeDuringRun (eventWord i) s.st)
      else if IllegalData a.toNat d then some (.illegalWriteValue (eventWord i) d)
      else if a.toNat = 0 ∧ s.cap.toNat < s.len.toNat then some (.lenExceedsCap s.len)
      else none := by
  have hkind : kindNat (encode i).ev = 3 := by rw [kindNat_encode, hi]; rfl
  have haddr : addrNat (encode i).ev = a.toNat := by rw [← encodeKind_event, hi, encodeKind, addrNat_writeWord]
  have hdata : (encode i).d = d := by rw [← encodeKind_event, hi, encodeKind]
  rw [firstFault, if_neg (not_reservedWord_encode hwf), if_neg (by omega), if_neg (by omega), if_pos hkind,
    haddr, hdata, encode]

theorem firstFault_reset (hi : i.event = .reset) : firstFault s (encode i) = none := by
  have hkind : kindNat (encode i).ev = 4 := by rw [kindNat_encode, hi]; rfl
  rw [firstFault, if_neg (not_reservedWord_encode hwf), if_neg (by omega), if_neg (by omega),
    if_neg (by omega)]

/-! ### Every operation records it (R203) -/

theorem TickEffect.faultRec_eq_firstFault {rx : Sample} (hf : s.faultRec = none) (he : TickEffect s t)
    (hi : i.event = .tick rx) : t.faultRec = firstFault s (encode i) := by
  rw [firstFault_tick hwf hi]
  cases he with
  | idle rx hst => simp [hst, hf, stIdle_ne_stReserved, stRunning_ne_stIdle.symm]
  | start rx hst => simp [hst, hf, stStarting_ne_stReserved, stStarting_ne_stRunning]
  | store rx hst h0 hcap => simp [hst, hf, stRunning_ne_stReserved, hcap]
  | prime rx hst h0 => simp [hst, hf, stRunning_ne_stReserved, h0]
  | overrun hst hcap =>
    have h0 : 0 ≤ s.npt.toInt := by omega
    simp [hst, stRunning_ne_stReserved, h0, hcap]
  | reserved hst => simp [hst]

theorem tick_faultRec_eq_firstFault {rx : Sample} (hf : s.faultRec = none) (hi : i.event = .tick rx)
    (hmode : i.tickMode ≠ none) (h : exec i s = .next t) : t.faultRec = firstFault s (encode i) :=
  have hst := tickMode_eq_some_of_modeOk (wellFormed_iff.mp hwf).1 hmode
  (exec_tick_effect hst h).faultRec_eq_firstFault hwf hf hi

theorem registerRead_faultRec_eq_firstFault {a : HostAddr} {v : DataWord} (hf : s.faultRec = none)
    (hi : i.event = .hread a) (ha : isBufAddr a = false) (h : hostRead v s = .next t) :
    t.faultRec = firstFault s (encode i) := by
  have hlow : ¬ 0x200000 ≤ a.toNat := mt (isBufAddr_iff a).mpr (Bool.eq_false_iff.mp ha)
  rw [hostRead_keeps_faultRec h, hf, firstFault_hread hwf hi, if_neg fun hbuf => hlow hbuf.1]

/-- A write whose own effect records what is left to check records the first fault, where it takes exactly the data that
is not illegal. -/
theorem hostWrite_faultRec_eq_firstFault {a : HostAddr} {d : DataWord} {ok : Bool} {r : Except FaultRecord State}
    (hi : i.event = .hwrite a d) (hok : ok = true ↔ ¬ IllegalData a.toNat d)
    (hr : commit s r = .next t →
      t.faultRec = if a.toNat = 0 ∧ s.cap.toNat < s.len.toNat then some (.lenExceedsCap s.len) else none)
    (h : hostWrite (eventWord i) d ok r s = .next t) : t.faultRec = firstFault s (encode i) := by
  rw [firstFault_hwrite hwf hi]
  by_cases hst : s.st = stIdle
  · rw [if_neg (not_not.mpr hst)]
    by_cases hd : IllegalData a.toNat d
    · rw [hostWrite_of_not_dataOk hst fun hok' => hok.mp hok' hd] at h
      rw [if_pos hd, ← Host.Outcome.next.inj h, withFault_faultRec]
    · rw [hostWrite_of_dataOk hst (hok.mpr hd)] at h
      rw [if_neg hd, hr h]
  · rw [hostWrite_busy hst] at h
    rw [if_pos hst, ← Host.Outcome.next.inj h, withFault_faultRec]

/-- A write that is not the start has nothing to check but mode and data. -/
theorem fieldWrite_faultRec_eq_firstFault {a : HostAddr} {d : DataWord} {ok : Bool} {u : State}
    (hf : s.faultRec = none) (hi : i.event = .hwrite a d) (hok : ok = true ↔ ¬ IllegalData a.toNat d) (ha : a.toNat ≠ 0)
    (h : hostWrite (eventWord i) d ok (.ok u) s = .next t) (hu : u.faultRec = s.faultRec) :
    t.faultRec = firstFault s (encode i) := by
  refine hostWrite_faultRec_eq_firstFault hwf hi hok (fun hc => ?_) h
  rw [if_neg fun hlen => ha hlen.1, ← Host.Outcome.next.inj hc, hu, hf]

end

theorem execRdBuf_faultRec_eq_firstFault {k : BufIndex} (hwf : (Instr.rdBuf k).wellFormed s.st s.cap = true)
    (hf : s.faultRec = none) (h : execRdBuf k s = .next t) : t.faultRec = firstFault s (encode (.rdBuf k)) := by
  have hk : k.toNat < s.cap.toNat := of_decide_eq_true (wellFormed_iff.mp hwf).2
  have hindex : BitVec.ofNat 21 (2 ^ 21 + k.toNat) = k := by
    have := k.isLt
    apply BitVec.eq_of_toNat_eq
    rw [BitVec.toNat_ofNat]
    omega
  rw [firstFault_hread hwf rfl, regAddr_buf_toNat, hindex]
  cases hv : memRead s.buf k.toNat with
  | some v =>
    rw [execRdBuf_written hk hv] at h
    simp [← Host.Outcome.next.inj h, hf, hv]
  | none =>
    rw [execRdBuf_unwritten hk hv] at h
    simp [← Host.Outcome.next.inj h, hv]

theorem execWrState_faultRec_eq_firstFault {d : DataWord} (hwf : (Instr.wrState d).wellFormed s.st s.cap = true)
    (hf : s.faultRec = none) (h : execWrState d s = .next t) : t.faultRec = firstFault s (encode (.wrState d)) := by
  have hdata : stateDataOk d = true ↔ ¬ IllegalData 0 d := by rw [stateDataOk_iff]; omega
  refine hostWrite_faultRec_eq_firstFault hwf rfl hdata (fun hc => ?_) h
  by_cases hlen : s.len.toNat ≤ s.cap.toNat
  · rw [if_pos ((lenFits_iff s).mpr hlen)] at hc
    rw [← Host.Outcome.next.inj hc, if_neg (by omega), ← hf]
  · rw [if_neg (mt (lenFits_iff s).mp hlen)] at hc
    rw [← Host.Outcome.next.inj hc, if_pos ⟨rfl, by omega⟩, withFault_faultRec]

/-- A well-formed operation records the first fault that applies to its own event. -/
theorem exec_faultRec_eq_firstFault {i : Instr} (hwf : i.wellFormed s.st s.cap = true) (hf : s.faultRec = none)
    (h : exec i s = .next t) : t.faultRec = firstFault s (encode i) := by
  cases i with
  | tickIdle rx | tickStart rx | tickRun rx | tickRsvd rx => exact tick_faultRec_eq_firstFault hwf hf rfl nofun h
  | rdState | rdLen | rdCount | rdNpt | rdCidx | rdCap | rdSum | rdSumsq =>
    exact registerRead_faultRec_eq_firstFault hwf hf rfl rfl h
  | rdChan k => exact registerRead_faultRec_eq_firstFault hwf hf rfl (isBufAddr_regAddr_chan k) h
  | rdBuf k => exact execRdBuf_faultRec_eq_firstFault hwf hf h
  | wrState d => exact execWrState_faultRec_eq_firstFault hwf hf h
  | wrLen d =>
    have hdata : lenDataOk d = true ↔ ¬ IllegalData 1 d := by rw [lenDataOk_iff]; omega
    exact fieldWrite_faultRec_eq_firstFault hwf hf rfl hdata (by decide) h rfl
  | wrChan k d =>
    have ha := regAddr_chan_toNat k
    have hdata : chanDataOk d = true ↔ ¬ IllegalData (regAddr (.chan k)).toNat d := by
      rw [chanDataOk_iff]
      omega
    exact fieldWrite_faultRec_eq_firstFault hwf hf rfl hdata (by omega) h (setChan_faultRec s k _)
  | wrSum d =>
    have hdata : accDataOk d = true ↔ ¬ IllegalData 0x10 d := by rw [accDataOk_iff]; omega
    exact fieldWrite_faultRec_eq_firstFault hwf hf rfl hdata (by decide) h rfl
  | wrSumsq d =>
    have hdata : accDataOk d = true ↔ ¬ IllegalData 0x11 d := by rw [accDataOk_iff]; omega
    exact fieldWrite_faultRec_eq_firstFault hwf hf rfl hdata (by decide) h rfl
  | reset => rw [firstFault_reset hwf rfl, ← Host.Outcome.next.inj h, resetState_faultRec, hf]

/-- Settles O9: a word that does not decode is a reserved one, the first check; a word that decodes is that of the operation
it runs, which records the first of the checks that are left. -/
theorem firstApplicableFaultRecorded : Obligations.FirstApplicableFaultRecorded := by
  intro s e rest hf hin
  cases hd : decode s.st s.cap e with
  | ok i =>
    obtain ⟨hwf, henc⟩ := decodedEventIsItsEncoding s.st s.cap e i hd
    obtain ⟨t, hx⟩ := exec_answers i (takeEvent rest s)
    refine ⟨t, (step_of_decode_ok hf hin hd).trans hx, ?_⟩
    rw [← firstFault_canonical, ← henc]
    exact exec_faultRec_eq_firstFault (s := takeEvent rest s) hwf hf hx
  | error r => exact ⟨_, step_of_decode_error hf hin hd, (if_pos (decode_error_iff.mp ⟨r, hd⟩)).symm⟩

/-! ### The trigger's contract (R212, R230) -/

theorem AccessEffect.trigger_eq (he : AccessEffect s t) : t.trigger = s.trigger := by
  cases he <;> rfl

theorem decode_of_ev_reset {st : StCode} {cap : BitVec 32} {e : RawEvent} (hev : e.ev = eventWord .reset) :
    decode st cap e = .ok .reset := by
  have hkind : decodeKind e = .ok .reset := by simp [decodeKind, hev, eventWord, zField, kindField, addrField]
  rw [decode_of_decodeKind_ok hkind, selectRow]

/-- Of the events a reset alone acts on the trigger, which it disarms (R230). -/
theorem exec_decoded_trigger {e : RawEvent} {i : Instr} (hd : decode s.st s.cap e = .ok i) (h : exec i s = .next t) :
    t.trigger = if e.ev = eventWord .reset then .disarmed else s.trigger := by
  by_cases hev : e.ev = eventWord .reset
  · obtain rfl := Except.ok.inj (hd.symm.trans (decode_of_ev_reset hev))
    rw [if_pos hev, ← Host.Outcome.next.inj h, resetState_trigger]
  · rw [if_neg hev]
    obtain htick | ⟨hi, hne⟩ | ⟨-, hword⟩ := decode_ok_cases hd
    · exact (exec_tick_effect htick h).trigger_eq
    · exact (exec_access_effect hi hne h).trigger_eq
    · exact absurd hword hev

theorem triggerContract_event {g : Trigger} {e : RawEvent} {rest : List Input}
    (h : triggerContract g (.event e :: rest) = true) :
    triggerContract (if e.ev = eventWord .reset then .disarmed else g) rest = true := by
  rw [triggerContract] at h
  split_ifs at h ⊢
  · exact h
  · exact (Bool.and_eq_true_iff.mp h).2
  · exact h

/-- Settles O12: each input a step takes leaves the trigger in the state from which the contract goes on. -/
theorem triggerContractKept : Obligations.TriggerContractKept := by
  intro s t hc h
  obtain ⟨-, ⟨-, rfl⟩ | harm | hdisarm | hevent | hreserved⟩ := step_cases h
  · exact hc
  · obtain ⟨p, rest, hin, rfl⟩ := harm
    rw [hin, triggerContract] at hc
    exact hc
  · obtain ⟨rest, hin, rfl⟩ := hdisarm
    rw [hin, triggerContract] at hc
    exact hc
  · obtain ⟨e, rest, i, hin, hd, hx⟩ := hevent
    rw [exec_decoded_trigger (s := takeEvent rest s) hd hx, exec_inputs hx]
    exact triggerContract_event (hin ▸ hc)
  · obtain ⟨e, rest, r, hin, hd, rfl⟩ := hreserved
    have hne : e.ev ≠ eventWord .reset := fun hev => nomatch (decode_of_ev_reset hev).symm.trans hd
    have hrest := triggerContract_event (hin ▸ hc)
    rwa [if_neg hne] at hrest

end Sys2Proof.Machine

/-! PROOF. The reset event (70_reset_and_hazards.md R230, R231): a reset answers `resetState`, and what it installs and
keeps is read off that state field by field. -/

namespace Sys2Proof.Machine

/-- A reset makes no check: it answers from every state (R230). -/
@[simp] theorem exec_reset (s : State) : exec .reset s = .next (resetState s) := commit_ok s (resetState s)

/-- A reset of the power-up state writes back each value it finds, and its marker is all that is new (R230, R231). -/
theorem resetState_reset :
    resetState State.reset = { State.reset with busLog := State.reset.busLog ++ [.reset] } := rfl

/-- Settles O1: power-up already holds what a reset installs. -/
theorem powerUpIsReset : Obligations.PowerUpIsReset :=
  ⟨rfl, rfl, rfl, (exec_reset State.reset).trans (congrArg _ resetState_reset)⟩

/-- Settles O2: no operand takes part in the choice of the reset's row, and each value is a field of `resetState`; the
slots of a filled vector and the entries of the empty buffer are read through their own laws. -/
theorem resetInstallsValues : Obligations.ResetInstallsValues := by
  refine ⟨rfl, fun st cap rx d => decode_of_ev_reset rfl, fun s => ⟨resetState s, exec_reset s, ?_⟩⟩
  have hslots : ∀ k, chanAt (resetState s).chan k = 0x0000#16 := chanAt_replicate 0x0000#16
  have hentries : ∀ i, memRead (resetState s).buf i = none := memRead_nil
  exact ⟨resetState_st s, resetState_npt s, resetState_cidx s, hslots, resetState_len s, resetState_sum s,
    resetState_sumsq s, resetState_cs s, resetState_lastTx s, hentries, resetState_busLog s, resetState_trigger s,
    resetState_faultRec s, resetState_cap s⟩

/-- Settles O3: a reset installs no value in either port. -/
theorem resetKeepsPorts : Obligations.ResetKeepsPorts := fun s =>
  ⟨resetState s, exec_reset s, resetState_result s, resetState_inputs s⟩

end Sys2Proof.Machine
